-- ==== Sys2Proof/Word.lean ====
section
/-! DEFINITION. The word types of the CORE, and the unpacked form of a floating-point value. -/

namespace Sys2Proof

/-- One byte of a bus word (R71). -/
abbrev Byte := BitVec 8

/-- One bus access: 32 bits (R27, R75). -/
abbrev Word := BitVec 32

/-- The bit pattern of an IEEE 754 binary32 value (R73). -/
abbrev F32 := BitVec 32

/-- The bit pattern of an IEEE 754 binary64 value (R19, R74). -/
abbrev F64 := BitVec 64

/-- What a floating-point pattern stands for: a NaN, an infinity, or the exact number
`(-1)^neg * m * 2^e`. -/
inductive FpVal where
  | nan
  | inf (neg : Bool)
  | fin (neg : Bool) (m : Nat) (e : Int)
deriving DecidableEq, Repr

end Sys2Proof
end

