-- ==== Sys2Proof/Config.lean ====
section
/-! DEFINITION. What an implementation fixes (the parameters of R9) and the values the spec leaves open
(the parameter functions of R21, the draws of R17). -/

namespace Sys2Proof

/-- The numeric parameters of R9. One machine has one `Params` for ever: it stands in State so that a
statement about every state is about every implementation (log 2). -/
structure Params where
  /-- `L_MAX`: entries of the coefficient memory and of the ring. -/
  lMax : Nat
  /-- `AUDIO_FIFO_DEPTH`: entries of the audio FIFO. -/
  fifoDepth : Nat
  /-- `BASE`: host byte address of register offset 0x000. -/
  base : Nat
deriving DecidableEq, Repr

/-- The defaults of R9. R9 gives BASE no default: 0 is a DESIGN CHOICE (log 2). -/
def Params.default : Params := { lMax := 4095, fifoDepth := 16, base := 0 }

/-- The free values of the model (R17): the `n`-th draw, as 64 bits nothing is known of. Every draw of the
spec is a function of one of these onto the set it draws from (log 3). -/
opaque Config.drawBits : Nat → BitVec 64

/-- The parameter function SIN before the properties of R21 are imposed (log 5). -/
opaque Config.sinRaw : F64 → F64

/-- The parameter function POW before the properties of R21 are imposed (log 5). -/
opaque Config.powRaw : F64 → F64 → F64

/-- The parameter function ATAN2 before the properties of R21 are imposed (log 5). -/
opaque Config.atan2Raw : F64 → F64 → F64

/-- What the I0 series would answer if its loop outran the model's budget, which it never does (log 6). -/
opaque Config.unfinishedSeries : F64

end Sys2Proof
end

