-- ==== Sys2Proof/Syntax.lean ====
section
/-! DEFINITION. The commands of the CORE: one constructor for each row of the opcode table (R91). -/

namespace Sys2Proof

/-- The seven commands of R91. A command word has no operand field (R90). -/
inductive Instr where
  /-- 0x00, R139. -/
  | nop
  /-- 0x01, R99. -/
  | design
  /-- 0x02, R140. -/
  | start
  /-- 0x03, R141. -/
  | pushIq
  /-- 0x04, R117. -/
  | firStep
  /-- 0x05, R125. -/
  | demodStep
  /-- 0x06, R132. -/
  | resampleStep
deriving DecidableEq, Repr

end Sys2Proof
end

