-- ==== Sys2Proof/WellFormed.lean ====
section
/-! DEFINITION. Well-formedness: of the parameters (R9), of a command word (R89), and of a command. -/

namespace Sys2Proof

/-- The ranges R9 gives the parameters: `L_MAX` odd in 1..7679, the FIFO depth in 1..0xFFFF, `BASE` a
multiple of 0x10000. -/
def Params.wf (p : Params) : Bool :=
  decide (p.lMax % 2 = 1) && decide (p.lMax ≤ 7679) &&
    decide (1 ≤ p.fifoDepth) && decide (p.fifoDepth ≤ 0xFFFF) &&
    decide (p.base % 0x10000 = 0)

/-- A command word of the format CMD32 with an opcode of R91: RSVD is 0 and the opcode is 0x00 to 0x06. -/
def wordWellFormed (w : Word) : Bool :=
  decide (w.extractLsb' 8 24 = 0#24) && decide (w.extractLsb' 0 8 ≤ 6#8)

/-- Every command is well formed: the format gives a command no operand that could be out of range (R90). -/
def Instr.wf (_ : Instr) : Bool := true

end Sys2Proof
end

