-- ==== Sys2Proof/Decode.lean ====
section
/-! DEFINITION. The command decoder (R93), total on words and on bytes, and the encoder (R91). -/

namespace Sys2Proof

/-- `decode` of R93: `none` is ILLEGAL. -/
def decodeWord (w : Word) : Option Instr :=
  if w.extractLsb' 8 24 ≠ 0#24 then none
  else
    match (w.extractLsb' 0 8).toNat with
    | 0x00 => some .nop
    | 0x01 => some .design
    | 0x02 => some .start
    | 0x03 => some .pushIq
    | 0x04 => some .firStep
    | 0x05 => some .demodStep
    | 0x06 => some .resampleStep
    | _ => none

/-- The 32-bit word whose bytes, lowest address first, are the four given (R71, little-endian). -/
def wordOfBytes (b0 b1 b2 b3 : Byte) : Word := b3 ++ b2 ++ b1 ++ b0

/-- Byte `j` of a bus word: bits `8j+7 : 8j` (R71). -/
def byteOfWord (w : Word) (j : Nat) : Byte := w.extractLsb' (8 * j) 8

/-- The four bytes of a bus word, lowest address first (R71). -/
def bytesOfWord (w : Word) : List Byte :=
  [byteOfWord w 0, byteOfWord w 1, byteOfWord w 2, byteOfWord w 3]

/-- The decoder on bytes: every command is one 32-bit word (R95); what is left of the bytes comes back with
it. Fewer than four bytes, and a word that decodes to no command, are rejected. -/
def decode : List Byte → Option (Instr × List Byte)
  | b0 :: b1 :: b2 :: b3 :: rest => (decodeWord (wordOfBytes b0 b1 b2 b3)).map (·, rest)
  | _ => none

/-- The word of each command, as R91's table has it. -/
def encodeWord : Instr → Word
  | .nop => 0x00000000#32
  | .design => 0x00000001#32
  | .start => 0x00000002#32
  | .pushIq => 0x00000003#32
  | .firStep => 0x00000004#32
  | .demodStep => 0x00000005#32
  | .resampleStep => 0x00000006#32

/-- The bytes of a command's word, lowest address first. -/
def encode (i : Instr) : List Byte := bytesOfWord (encodeWord i)

/-- The command the decoder reads from the `nbits` low bits of `w` (the bits above are 0), laid out as the
bus stores them. -/
def decodeTableWord (nbits w : Nat) : Option Instr :=
  (decode (bytesOfWord (BitVec.ofNat 32 (w % 2 ^ nbits)))).map (·.1)

end Sys2Proof
end

