-- ==== Sys2Proof/Machine/State.lean ====
section
/-! DEFINITION. The state of the CORE as plain data (R68), the reasons a step can stop, the turns of the
agents, the words of the register map, and the state after reset (R166). -/

namespace Sys2Proof.Machine

/-- The error codes of R147, by name. `noError` is code 0. -/
inductive ErrCode where
  | noError
  | cfgNonfinite
  | cfgNonpositive
  | cfgDecimZero
  | cfgTargetZero
  | lenNonfinite
  | lenNonpositive
  | lenExceedsCapacity
  | besselOverflow
  | coefNonfinite
  | ratioNotInteger
  | ratioRange
  | illegalCmd
  | notDesigned
  | writeWhileBusy
deriving DecidableEq, Repr

/-- Why a step faults: a violated internal invariant (R155, log 10). -/
inductive Fault where
  /-- Raised by FIR_STEP and PUSH_IQ when WR or FILTER_LEN lies outside the ring or the coefficient memory.
  Safe: R155 asks a model for a fault here, and no reachable state has it. -/
  | ringBounds
  /-- Raised by FIR_STEP and PUSH_IQ when FILTER_LEN is even. Safe, as `ringBounds`. -/
  | lengthParity
  /-- Raised by FIR_STEP, PUSH_IQ and RESAMPLE_STEP when a latched factor is 0 with DESIGNED = 1. Safe, as
  `ringBounds`. -/
  | latchedZero
deriving DecidableEq, Repr

/-- Why a step is refused. -/
inductive Refusal where
  /-- A command the model gives no meaning: raised by no arm of this model. Safe. -/
  | notModelled (mnemonic : String)
  /-- A host access that is no 32-bit access at a multiple of 4, which R75 has a model refuse. Safe. -/
  | notAlignedWord
  /-- A host access that does not reach this CORE's 64 KiB window (R70): another device's (log 9). Safe. -/
  | outsideWindow
deriving DecidableEq, Repr

/-- The width of a host access (R75 names 8, 16, 32 and 64 bits). -/
inductive Width where
  | byte
  | half
  | word
  | double
deriving DecidableEq, Repr

/-- One turn of one agent (R11, R82, R165): a host access, an opportunity of the core engine or of the
audio sink, or a reset by the platform. `addr` is a host byte address (R70). -/
inductive Turn where
  | hostRead (width : Width) (addr : Nat)
  | hostWrite (width : Width) (addr : Nat) (value : Word)
  | core
  | sink
  | reset
deriving DecidableEq, Repr

/-- The 64-bit registers of R27. `scalarIn` is the register the spec calls SIN. -/
inductive Reg64 where
  | cutoff | twidth | ripple | gain | fs
  | beta
  | dinI | dinQ | scalarIn
  | firOutI | firOutQ | angle
  | nIn | nFirOut | nDemod | nRsIn | nAudio
deriving DecidableEq, Repr

/-- What stands at an offset of the register space (R27, R61, R78). -/
inductive BusWord where
  | id | version | lmax | fifoDepth | cmd | status | errCode | fifoLevel
  | decim | targetRate | filterLen | resampleFactor
  | inI | inQ | audioLast | decimActive
  /-- Bits 31:0 of a 64-bit register, at the lower offset (R72). -/
  | lo (r : Reg64)
  /-- Bits 63:32 of a 64-bit register, at the offset + 4 (R72). -/
  | hi (r : Reg64)
  /-- Bits 31:0 of window entry `i` (R61). -/
  | coefLo (i : Nat)
  /-- Bits 63:32 of window entry `i` (R61). -/
  | coefHi (i : Nat)
  /-- Unmapped: reads 0, ignores writes (R78). -/
  | reserved
deriving DecidableEq, Repr

/-- The configuration registers (R43 to R45). -/
structure ConfigRegs where
  cutoff : F64
  twidth : F64
  ripple : F64
  gain : F64
  fs : F64
  decim : Word
  targetRate : Word
deriving DecidableEq, Repr

/-- The data registers that hold the operands of commands (R25, R50, R51). -/
structure OperandRegs where
  inI : F32
  inQ : F32
  dinI : F64
  dinQ : F64
  scalarIn : F64
deriving DecidableEq, Repr

/-- The stored fields of STATUS (R33). FIFO_FULL is a view of the FIFO (R38) and is not stored. -/
structure Status where
  busy : Bool
  designed : Bool
  firValid : Bool
  audioValid : Bool
  err : Bool
  nonfinite : Bool
deriving DecidableEq, Repr

/-- What DESIGN latches, beside COEF (R46 to R49). -/
structure Latched where
  filterLen : Word
  resampleFactor : Word
  decimActive : Word
  beta : F64
deriving DecidableEq, Repr

/-- The result registers (R58 to R60). -/
structure Results where
  firOutI : F64
  firOutQ : F64
  angle : F64
  audioLast : Word
deriving DecidableEq, Repr

/-- The five counters (R52 to R57). -/
structure Counters where
  nIn : BitVec 64
  nFirOut : BitVec 64
  nDemod : BitVec 64
  nRsIn : BitVec 64
  nAudio : BitVec 64
deriving DecidableEq, Repr

/-- The state of the machine. Everything down to `pending` is the spec's (R68); `params` are the parameters
of R9 (log 2); the last four fields are the model's own (logs 1, 3, 12). -/
structure State where
  /-- The parameters of R9: no step changes them. -/
  params : Params
  cfg : ConfigRegs
  operands : OperandRegs
  status : Status
  /-- ERR_CODE (R41). -/
  errCode : ErrCode
  latched : Latched
  results : Results
  counters : Counters
  /-- COEF: `L_MAX` entries (R62). -/
  coef : List F64
  /-- RING: `L_MAX` pairs of I and Q (R63). -/
  ring : List (F32 × F32)
  /-- WR (R64). -/
  wr : Nat
  /-- PREV, the pair of I and Q (R65). -/
  prev : F64 × F64
  /-- FIFO, oldest first (R66). -/
  fifo : List (BitVec 16)
  /-- PENDING (R67): meaningful only while BUSY = 1. -/
  pending : Word
  /-- How many free values have been drawn (R17, log 3). -/
  draws : Nat
  /-- The turns the agents take next (R11, R82, log 1). -/
  agenda : List Turn
  /-- What the host's reads returned, oldest first (R14, log 12). -/
  hostReads : List Word
  /-- The samples the audio sink has received, oldest first (R134, log 12). -/
  audioOut : List (BitVec 16)
deriving DecidableEq, Repr

/-- COEF after a reset: a draw for each of the `n` entries, numbered from `d` (R62, R166, log 7). -/
def resetCoef (n d : Nat) : List F64 := (List.range n).map fun i => Config.drawBits (d + i)

/-- RING after a reset or a START: a draw for each half of the `n` pairs, numbered from `d` (R63, R166,
logs 7, 14). -/
def drawRing (n d : Nat) : List (F32 × F32) :=
  (List.range n).map fun i =>
    ((Config.drawBits (d + 2 * i)).setWidth 32, (Config.drawBits (d + 2 * i + 1)).setWidth 32)

/-- The reset values of R166 for a machine with parameters `p` whose next draw is number `d`. PENDING, which
R166 sets to none, is 0 here: it is not read while BUSY = 0 (log 8). -/
def State.resetFrom (p : Params) (d : Nat) : State where
  params := p
  cfg :=
    { cutoff := 0x40F1170000000000#64, twidth := 0x40B3880000000000#64,
      ripple := 0x404E000000000000#64, gain := 0x4000000000000000#64,
      fs := 0x41424F8000000000#64, decim := 5#32, targetRate := 48000#32 }
  operands := { inI := 0#32, inQ := 0#32, dinI := 0#64, dinQ := 0#64, scalarIn := 0#64 }
  status :=
    { busy := false, designed := false, firValid := false, audioValid := false, err := false,
      nonfinite := false }
  errCode := .noError
  latched := { filterLen := 0#32, resampleFactor := 0#32, decimActive := 0#32, beta := 0#64 }
  results := { firOutI := 0#64, firOutQ := 0#64, angle := 0#64, audioLast := 0#32 }
  counters := { nIn := 0#64, nFirOut := 0#64, nDemod := 0#64, nRsIn := 0#64, nAudio := 0#64 }
  coef := resetCoef p.lMax d
  ring := drawRing p.lMax (d + p.lMax)
  wr := 0
  prev := (0#64, 0#64)
  fifo := []
  pending := 0#32
  draws := d + 3 * p.lMax
  agenda := []
  hostReads := []
  audioOut := []

/-- The machine right after reset (R166), with the default parameters of R9 (log 2): no turn is planned, no
read made, no sample received. -/
def State.reset : State := State.resetFrom Params.default 0

end Sys2Proof.Machine
end

