-- ==== Sys2Proof/Machine/Flags.lean ====
section
/-! DEFINITION. STATUS and the error code: the words the host reads (R33, R38, R147), the W1C write (R39),
and the views of the FIFO (R38, R42). -/

namespace Sys2Proof.Machine

/-- The number ERR_CODE shows for each error (R147). -/
def ErrCode.word : ErrCode → Word
  | .noError => 0#32
  | .cfgNonfinite => 1#32
  | .cfgNonpositive => 2#32
  | .cfgDecimZero => 3#32
  | .cfgTargetZero => 4#32
  | .lenNonfinite => 5#32
  | .lenNonpositive => 6#32
  | .lenExceedsCapacity => 7#32
  | .besselOverflow => 8#32
  | .coefNonfinite => 9#32
  | .ratioNotInteger => 10#32
  | .ratioRange => 11#32
  | .illegalCmd => 16#32
  | .notDesigned => 17#32
  | .writeWhileBusy => 18#32

/-- FIFO_FULL (R38): the FIFO holds `AUDIO_FIFO_DEPTH` entries. -/
def State.fifoFull (s : State) : Bool := s.fifo.length == s.params.fifoDepth

/-- FIFO_LEVEL (R42). -/
def State.fifoLevel (s : State) : Word := BitVec.ofNat 32 s.fifo.length

/-- STATUS as the host reads it (R33): bit 0 BUSY, 1 DESIGNED, 2 FIR_VALID, 3 AUDIO_VALID, 4 FIFO_FULL,
8 ERR, 9 NONFINITE; the reserved bits read 0 (R40). -/
def State.statusWord (s : State) : Word :=
  0#22 ++ BitVec.ofBool s.status.nonfinite ++ BitVec.ofBool s.status.err ++ 0#3 ++
    BitVec.ofBool s.fifoFull ++ BitVec.ofBool s.status.audioValid ++ BitVec.ofBool s.status.firValid ++
    BitVec.ofBool s.status.designed ++ BitVec.ofBool s.status.busy

/-- An accepted write to STATUS (R39): bit 8 clears ERR and ERR_CODE, bit 9 clears NONFINITE; every other bit
is ignored (R40). This is the only way but reset to re-arm ERR_CODE (R159). -/
def State.writeStatus (s : State) (v : Word) : State :=
  { s with
    errCode := if v.getLsbD 8 then .noError else s.errCode
    status := { s.status with
      err := !v.getLsbD 8 && s.status.err
      nonfinite := !v.getLsbD 9 && s.status.nonfinite } }

end Sys2Proof.Machine
end

