-- ==== Sys2Proof/Machine/Ops.lean ====
section
/-! DEFINITION. The operations every command is made of: raising a command error (R148), completing a command
(R138), starting a stream (R140), the assertions on the latched state (R155), and the storage operations on
RING, FIFO and the draws. -/

namespace Sys2Proof.Machine

/-- `report(code)` of R148: the first error wins, and ERR is set. -/
def State.report (s : State) (c : ErrCode) : State :=
  { s with
    errCode := if s.status.err then s.errCode else c
    status := { s.status with err := true } }

/-- The end of a core step: BUSY is cleared (R138). -/
def State.complete (s : State) : State := { s with status := { s.status with busy := false } }

/-- `raise CoreError(code)` inside a command: the whole entry of the machine's one kind of exception (R148,
R158). The code is reported, the command ends, and the core step clears BUSY. -/
def State.raise (s : State) (c : ErrCode) : State := (s.report c).complete

/-- `start_stream()` of R140. RING holds a draw after it (R63, log 14). -/
def State.startStream (s : State) : State :=
  { s with
    ring := drawRing s.params.lMax s.draws
    draws := s.draws + 2 * s.params.lMax
    wr := 0
    prev := (0#64, 0#64)
    counters := { nIn := 0#64, nFirOut := 0#64, nDemod := 0#64, nRsIn := 0#64, nAudio := 0#64 }
    status := { s.status with firValid := false, audioValid := false } }

/-- The filter's assertions (R155, R88): the storage has its `L_MAX` entries, `WR < L ≤ L_MAX`, `L` is odd and
`D ≥ 1`. The fault a model records when one is violated, if one is. -/
def State.filterFault (s : State) : Option Fault :=
  if s.coef.length ≠ s.params.lMax ∨ s.ring.length ≠ s.params.lMax ∨
      s.params.lMax < s.latched.filterLen.toNat ∨ s.latched.filterLen.toNat ≤ s.wr then some .ringBounds
  else if s.latched.filterLen.toNat % 2 = 0 then some .lengthParity
  else if s.latched.decimActive = 0#32 then some .latchedZero
  else none

/-- The resampler's assertion (R131): `R ≥ 1`. -/
def State.resamplerFault (s : State) : Option Fault :=
  if s.latched.resampleFactor = 0#32 then some .latchedZero else none

/-- `a mod R == 0` for a counter and a latched factor. -/
def dividesCount (factor : Word) (n : BitVec 64) : Bool := n.toNat % factor.toNat == 0

/-- Whether the filter step on this state produces an output: `k ≥ L - 1` and `k mod D == 0` with `k = N_IN`
(R116). -/
def State.firEmits (s : State) : Bool :=
  decide (s.latched.filterLen.toNat ≤ s.counters.nIn.toNat + 1) &&
    dividesCount s.latched.decimActive s.counters.nIn

/-- Whether the resampler step on this state emits: `m mod R == 0` with `m = N_RS_IN` (R131). -/
def State.resampleEmits (s : State) : Bool := dividesCount s.latched.resampleFactor s.counters.nRsIn

/-- `held(PENDING)` of R138 for RESAMPLE_STEP (DESIGNED = 1 is tested before it). -/
def State.resampleHeld (s : State) : Bool := s.fifoFull && s.resampleEmits

/-- `held(PENDING)` of R138 for PUSH_IQ (DESIGNED = 1 is tested before it). -/
def State.pushHeld (s : State) : Bool := s.fifoFull && s.firEmits && s.resampleEmits

/-- The sample goes into the slot at WR, WR advances modulo `L`, N_IN counts it (R116). -/
def State.storeSample (s : State) (xi xq : F32) : State :=
  { s with
    ring := s.ring.set s.wr (xi, xq)
    wr := (s.wr + 1) % s.latched.filterLen.toNat
    counters := { s.counters with nIn := s.counters.nIn + 1 } }

/-- An audio sample is emitted (R131): appended to the FIFO, shown in AUDIO_LAST, counted, flagged. -/
def State.emitAudio (s : State) (q : BitVec 16) : State :=
  { s with
    fifo := s.fifo ++ [q]
    results := { s.results with audioLast := q.signExtend 32 }
    counters := { s.counters with nAudio := s.counters.nAudio + 1 }
    status := { s.status with audioValid := true } }

/-- `n` free values have been drawn (R17, log 3). -/
def State.advanceDraws (s : State) (n : Nat) : State := { s with draws := s.draws + n }

end Sys2Proof.Machine
end

