-- ==== Sys2Proof/Machine/Bus.lean ====
section
/-! DEFINITION. The host bus: the register map (R27), reads (R77 to R79, R81), writes (R80), and the accesses
as they arrive (R70, R75). -/

namespace Sys2Proof.Machine

/-- R27's rows at 0x000 to 0x044. -/
def registerMapLow : List (Nat × BusWord) :=
  [(0x000, BusWord.id), (0x004, BusWord.version), (0x008, BusWord.lmax), (0x00C, BusWord.fifoDepth),
   (0x010, BusWord.cmd), (0x014, BusWord.status), (0x018, BusWord.errCode), (0x01C, BusWord.fifoLevel),
   (0x020, BusWord.lo Reg64.cutoff), (0x024, BusWord.hi Reg64.cutoff),
   (0x028, BusWord.lo Reg64.twidth), (0x02C, BusWord.hi Reg64.twidth),
   (0x030, BusWord.lo Reg64.ripple), (0x034, BusWord.hi Reg64.ripple),
   (0x038, BusWord.lo Reg64.gain), (0x03C, BusWord.hi Reg64.gain),
   (0x040, BusWord.lo Reg64.fs), (0x044, BusWord.hi Reg64.fs)]

/-- R27's rows at 0x048 to 0x07C. -/
def registerMapMid : List (Nat × BusWord) :=
  [(0x048, BusWord.decim), (0x04C, BusWord.targetRate),
   (0x050, BusWord.filterLen), (0x054, BusWord.resampleFactor),
   (0x058, BusWord.lo Reg64.beta), (0x05C, BusWord.hi Reg64.beta),
   (0x060, BusWord.inI), (0x064, BusWord.inQ),
   (0x068, BusWord.lo Reg64.dinI), (0x06C, BusWord.hi Reg64.dinI),
   (0x070, BusWord.lo Reg64.dinQ), (0x074, BusWord.hi Reg64.dinQ),
   (0x078, BusWord.lo Reg64.scalarIn), (0x07C, BusWord.hi Reg64.scalarIn)]

/-- R27's rows at 0x080 to 0x0C4. -/
def registerMapHigh : List (Nat × BusWord) :=
  [(0x080, BusWord.lo Reg64.firOutI), (0x084, BusWord.hi Reg64.firOutI),
   (0x088, BusWord.lo Reg64.firOutQ), (0x08C, BusWord.hi Reg64.firOutQ),
   (0x090, BusWord.lo Reg64.angle), (0x094, BusWord.hi Reg64.angle),
   (0x098, BusWord.audioLast), (0x09C, BusWord.decimActive),
   (0x0A0, BusWord.lo Reg64.nIn), (0x0A4, BusWord.hi Reg64.nIn),
   (0x0A8, BusWord.lo Reg64.nFirOut), (0x0AC, BusWord.hi Reg64.nFirOut),
   (0x0B0, BusWord.lo Reg64.nDemod), (0x0B4, BusWord.hi Reg64.nDemod),
   (0x0B8, BusWord.lo Reg64.nRsIn), (0x0BC, BusWord.hi Reg64.nRsIn),
   (0x0C0, BusWord.lo Reg64.nAudio), (0x0C4, BusWord.hi Reg64.nAudio)]

/-- The rows of R27's table below the coefficient window, at their offsets. -/
def registerMap : List (Nat × BusWord) := registerMapLow ++ registerMapMid ++ registerMapHigh

/-- What stands at an offset, a multiple of 4: a register of R27, an entry of the coefficient window (R61),
or nothing (R78). -/
def busWordAt (lMax off : Nat) : BusWord :=
  if 0x1000 ≤ off ∧ off < 0x1000 + 8 * lMax then
    (if off % 8 = 0 then .coefLo ((off - 0x1000) / 8) else .coefHi ((off - 0x1000) / 8))
  else (registerMap.lookup off).getD .reserved

/-- The value of a 64-bit register. -/
def State.read64 (s : State) : Reg64 → BitVec 64
  | .cutoff => s.cfg.cutoff
  | .twidth => s.cfg.twidth
  | .ripple => s.cfg.ripple
  | .gain => s.cfg.gain
  | .fs => s.cfg.fs
  | .beta => s.latched.beta
  | .dinI => s.operands.dinI
  | .dinQ => s.operands.dinQ
  | .scalarIn => s.operands.scalarIn
  | .firOutI => s.results.firOutI
  | .firOutQ => s.results.firOutQ
  | .angle => s.results.angle
  | .nIn => s.counters.nIn
  | .nFirOut => s.counters.nFirOut
  | .nDemod => s.counters.nDemod
  | .nRsIn => s.counters.nRsIn
  | .nAudio => s.counters.nAudio

/-- Bits 31:0 (R72). -/
def lowWord (v : BitVec 64) : Word := v.extractLsb' 0 32

/-- Bits 63:32 (R72). -/
def highWord (v : BitVec 64) : Word := v.extractLsb' 32 32

/-- Entry `i` of the coefficient window: COEF[i] below FILTER_LEN, 0 from there on (R61). -/
def State.windowEntry (s : State) (i : Nat) : F64 :=
  if i < s.latched.filterLen.toNat then s.coef.getD i 0#64 else 0#64

/-- What a read of a bus word returns (R27 to R61): the constants, the registers, the views; CMD and unmapped
offsets read 0 (R78, R79). -/
def State.readWord (s : State) : BusWord → Word
  | .id => 0x464D3257#32
  | .version => 0x00000007#32
  | .lmax => BitVec.ofNat 32 s.params.lMax
  | .fifoDepth => BitVec.ofNat 32 s.params.fifoDepth
  | .cmd => 0#32
  | .status => s.statusWord
  | .errCode => s.errCode.word
  | .fifoLevel => s.fifoLevel
  | .decim => s.cfg.decim
  | .targetRate => s.cfg.targetRate
  | .filterLen => s.latched.filterLen
  | .resampleFactor => s.latched.resampleFactor
  | .inI => s.operands.inI
  | .inQ => s.operands.inQ
  | .audioLast => s.results.audioLast
  | .decimActive => s.latched.decimActive
  | .lo r => lowWord (s.read64 r)
  | .hi r => highWord (s.read64 r)
  | .coefLo i => lowWord (s.windowEntry i)
  | .coefHi i => highWord (s.windowEntry i)
  | .reserved => 0#32

/-- `MemRead(off, 4)` of R14. -/
def State.memRead (s : State) (off : Nat) : Word := s.readWord (busWordAt s.params.lMax off)

/-- The 64-bit registers R27 marks RW. -/
def Reg64.isRW : Reg64 → Bool
  | .cutoff | .twidth | .ripple | .gain | .fs | .dinI | .dinQ | .scalarIn => true
  | .beta | .firOutI | .firOutQ | .angle | .nIn | .nFirOut | .nDemod | .nRsIn | .nAudio => false

/-- The bus words a write can have an effect on, RW, WO or W1C (R27, R80). -/
def BusWord.isWritable : BusWord → Bool
  | .cmd | .status | .decim | .targetRate | .inI | .inQ => true
  | .lo r | .hi r => r.isRW
  | .id | .version | .lmax | .fifoDepth | .errCode | .fifoLevel | .filterLen | .resampleFactor
  | .audioLast | .decimActive | .coefLo _ | .coefHi _ | .reserved => false

/-- Stores a 64-bit RW register; an RO one keeps its value (R79). -/
def State.write64 (s : State) (r : Reg64) (v : BitVec 64) : State :=
  match r with
  | .cutoff => { s with cfg := { s.cfg with cutoff := v } }
  | .twidth => { s with cfg := { s.cfg with twidth := v } }
  | .ripple => { s with cfg := { s.cfg with ripple := v } }
  | .gain => { s with cfg := { s.cfg with gain := v } }
  | .fs => { s with cfg := { s.cfg with fs := v } }
  | .dinI => { s with operands := { s.operands with dinI := v } }
  | .dinQ => { s with operands := { s.operands with dinQ := v } }
  | .scalarIn => { s with operands := { s.operands with scalarIn := v } }
  | .beta | .firOutI | .firOutQ | .angle | .nIn | .nFirOut | .nDemod | .nRsIn | .nAudio => s

/-- An accepted write to CMD (R32). -/
def State.issue (s : State) (v : Word) : State :=
  { s with pending := v, status := { s.status with busy := true } }

/-- An accepted write of `v` (R80, with BUSY = 0): CMD, STATUS, or a register word that stores it. -/
def State.writeWord (s : State) (b : BusWord) (v : Word) : State :=
  match b with
  | .cmd => s.issue v
  | .status => s.writeStatus v
  | .decim => { s with cfg := { s.cfg with decim := v } }
  | .targetRate => { s with cfg := { s.cfg with targetRate := v } }
  | .inI => { s with operands := { s.operands with inI := v } }
  | .inQ => { s with operands := { s.operands with inQ := v } }
  | .lo r => s.write64 r (highWord (s.read64 r) ++ v)
  | .hi r => s.write64 r (v ++ lowWord (s.read64 r))
  | .id | .version | .lmax | .fifoDepth | .errCode | .fifoLevel | .filterLen | .resampleFactor
  | .audioLast | .decimActive | .coefLo _ | .coefHi _ | .reserved => s

/-- `MemWrite(off, 4, v)` of R80. -/
def State.memWrite (s : State) (off : Nat) (v : Word) : State :=
  let b := busWordAt s.params.lMax off
  if b.isWritable then (if s.status.busy then s.report .writeWhileBusy else s.writeWord b v) else s

/-- The offset a host byte address reaches (R70), if it lies in this CORE's window. -/
def State.busOffset (s : State) (addr : Nat) : Option Nat :=
  if s.params.base ≤ addr ∧ addr - s.params.base ≤ 0xFFFF then some (addr - s.params.base) else none

/-- An access as it arrives: `k` answers the aligned word accesses of this CORE's window; the others are
refused (R70, R75, log 9). -/
def State.onAccess (s : State) (w : Width) (addr : Nat) (k : Nat → State) :
    Host.Outcome State Fault Refusal :=
  match s.busOffset addr with
  | none => .refused .outsideWindow
  | some off => if w = .word ∧ off % 4 = 0 then .next (k off) else .refused .notAlignedWord

/-- A host read: it changes nothing but what the host has seen (R77). -/
def State.hostRead (s : State) (w : Width) (addr : Nat) : Host.Outcome State Fault Refusal :=
  s.onAccess w addr fun off => { s with hostReads := s.hostReads ++ [s.memRead off] }

/-- A host write (R80). -/
def State.hostWrite (s : State) (w : Width) (addr : Nat) (v : Word) : Host.Outcome State Fault Refusal :=
  s.onAccess w addr fun off => s.memWrite off v

end Sys2Proof.Machine
end

