-- ==== Sys2Proof/Machine/Control.lean ====
section
/-! DEFINITION. The control commands NOP (R139) and START (R140). -/

namespace Sys2Proof.Machine

/-- NOP (R139): no effect; the core step clears BUSY. -/
def execNop (s : State) : Host.Outcome State Fault Refusal := .next s.complete

/-- START (R140). -/
def execStart (s : State) : Host.Outcome State Fault Refusal := .next s.startStream.complete

end Sys2Proof.Machine
end

