-- ==== Sys2Proof/Machine/Float64.lean ====
section
/-! DEFINITION. IEEE 754 binary64 arithmetic on bit patterns (R19, R20, R73, R74): every operation takes its
operands to exact numbers, computes exactly, and rounds once, to nearest with ties to even. Where an
operation gives a NaN, the pattern returned here is one marker; the payload that becomes visible is drawn
where the value is stored (log 4). What R19 leaves to the format (signed zeros, infinities, overflow) is
IEEE 754's (log 15). -/

namespace Sys2Proof.Fp

/-- The NaN that stands for "some quiet NaN" inside a computation (log 4). -/
def nan : F64 := 0x7FF8000000000000#64

/-- Bits 62:0 as a number: for a non-NaN pattern, larger means larger in magnitude (R74). -/
def mag (b : F64) : Nat := b.toNat % 2 ^ 63

/-- `mag` of an infinity. -/
def infMag : Nat := 2047 * 2 ^ 52

/-- Bit 63 (R74). -/
def sign (b : F64) : Bool := b.msb

/-- The pattern with the given sign and bits 62:0. -/
def pack (neg : Bool) (magnitude : Nat) : F64 :=
  BitVec.ofNat 64 ((if neg then 2 ^ 63 else 0) + magnitude)

def inf (neg : Bool) : F64 := pack neg infMag

def isNaN (b : F64) : Bool := decide (infMag < mag b)

def isInf (b : F64) : Bool := decide (mag b = infMag)

def isFinite (b : F64) : Bool := decide (mag b < infMag)

/-- The value of a binary64 pattern (R74): bit 63 sign, bits 62:52 biased exponent, bits 51:0 fraction. -/
def unpack (b : F64) : FpVal :=
  let expo : Nat := mag b / 2 ^ 52
  let frac : Nat := mag b % 2 ^ 52
  if expo = 2047 then (if frac = 0 then .inf (sign b) else .nan)
  else if expo = 0 then .fin (sign b) frac (-1074)
  else .fin (sign b) (2 ^ 52 + frac) ((expo : Int) - 1075)

/-- `n / d` rounded to the nearest integer, a tie to the even one. -/
def roundHalfEven (n d : Nat) : Nat :=
  let q := n / d
  let r := n % d
  if d < 2 * r ∨ (2 * r = d ∧ q % 2 = 1) then q + 1 else q

/-- The exponent of the last place of the binary64 value nearest to `m * 2^e` (`m > 0`): 53 significant
bits, but never below the subnormals' 2^-1074. -/
def lastPlace (m : Nat) (e : Int) : Int := max (e + (Nat.log2 m : Int) - 52) (-1074)

/-- `m * 2^e` in units of `2^q`, rounded to nearest even. -/
def scaled (m : Nat) (e q : Int) : Nat :=
  if q ≤ e then m * 2 ^ (e - q).toNat else roundHalfEven m (2 ^ (q - e).toNat)

/-- Bits 62:0 of the binary64 value nearest to `m * 2^e`, ties to even; from the rounded value `2^1024` on,
those of infinity (R19). -/
def roundMag (m : Nat) (e : Int) : Nat :=
  if m = 0 then 0
  else
    let q := lastPlace m e
    min ((q + 1074).toNat * 2 ^ 52 + scaled m e q) infMag

/-- The binary64 value nearest to `(-1)^neg * m * 2^e`. -/
def round (neg : Bool) (m : Nat) (e : Int) : F64 := pack neg (roundMag m e)

/-- `m` in units of half, with the lowest bit saying that the exact value lies strictly above `m`: enough,
when `m` has 55 bits or more, for `round` to give what it would give for the exact value. -/
def sticky (m : Nat) (inexact : Bool) : Nat := 2 * m + (if inexact then 1 else 0)

/-- The value with the other sign. -/
def neg (a : F64) : F64 := a ^^^ (0x8000000000000000#64)

/-- The exact signed number `(-1)^neg * m`. -/
def signed (neg : Bool) (m : Nat) : Int := if neg then -(m : Int) else (m : Int)

/-- The binary64 sum of two finite values: an exact zero is -0.0 only if both operands are negative zeros. -/
def addFin (na : Bool) (ma : Nat) (ea : Int) (nb : Bool) (mb : Nat) (eb : Int) : F64 :=
  let e := min ea eb
  let v := signed na (ma * 2 ^ (ea - e).toNat) + signed nb (mb * 2 ^ (eb - e).toNat)
  if v = 0 then pack (na && nb) 0 else round (decide (v < 0)) v.natAbs e

/-- `a + b` (R19). -/
def add (a b : F64) : F64 :=
  match unpack a, unpack b with
  | .nan, _ => nan
  | _, .nan => nan
  | .inf na, .inf nb => if na = nb then inf na else nan
  | .inf na, .fin .. => inf na
  | .fin .., .inf nb => inf nb
  | .fin na ma ea, .fin nb mb eb => addFin na ma ea nb mb eb

/-- `a - b` (R19). -/
def sub (a b : F64) : F64 := add a (neg b)

/-- `a * b` (R19). -/
def mul (a b : F64) : F64 :=
  match unpack a, unpack b with
  | .nan, _ => nan
  | _, .nan => nan
  | .inf na, .inf nb => inf (na != nb)
  | .inf na, .fin nb mb _ => if mb = 0 then nan else inf (na != nb)
  | .fin na ma _, .inf nb => if ma = 0 then nan else inf (na != nb)
  | .fin na ma ea, .fin nb mb eb => round (na != nb) (ma * mb) (ea + eb)

/-- The value nearest to `(-1)^neg * (n / d) * 2^e`, for `0 < d`: the quotient is taken to 110 bits below its
units place and its remainder kept as the sticky bit. -/
def roundQuot (neg : Bool) (n d : Nat) (e : Int) : F64 :=
  round neg (sticky (n * 2 ^ 110 / d) (decide (n * 2 ^ 110 % d ≠ 0))) (e - 111)

/-- `a / b` (R19). -/
def div (a b : F64) : F64 :=
  match unpack a, unpack b with
  | .nan, _ => nan
  | _, .nan => nan
  | .inf _, .inf _ => nan
  | .inf na, .fin nb _ _ => inf (na != nb)
  | .fin na _ _, .inf nb => pack (na != nb) 0
  | .fin na ma ea, .fin nb mb eb =>
    if mb = 0 then (if ma = 0 then nan else inf (na != nb))
    else roundQuot (na != nb) ma mb (ea - eb)

/-- The integer square root of `n`, for `n < 4^fuel`. -/
def isqrt : (fuel : Nat) → (n : Nat) → Nat
  | 0, _ => 0
  | fuel + 1, n =>
    let r := 2 * isqrt fuel (n / 4)
    if (r + 1) * (r + 1) ≤ n then r + 1 else r

/-- The value nearest to the square root of `m * 2^e` (R20): the root is taken to 60 bits below its units
place and its remainder kept as the sticky bit. -/
def roundSqrt (m : Nat) (e : Int) : F64 :=
  let n := (if e % 2 = 0 then m else 2 * m) * 2 ^ 120
  let r := isqrt 90 n
  round false (sticky r (decide (r * r ≠ n))) (e / 2 - 61)

/-- `SQRT` of R20, the correctly rounded square root. -/
def sqrt (a : F64) : F64 :=
  match unpack a with
  | .nan => nan
  | .inf true => nan
  | .inf false => inf false
  | .fin neg m e => if m = 0 then a else if neg then nan else roundSqrt m e

/-- An integer with the order of the non-NaN values: both zeros are 0. -/
def key (b : F64) : Int := signed (sign b) (mag b)

/-- `a < b` (R18): false when an operand is a NaN. -/
def lt (a b : F64) : Bool := !isNaN a && !isNaN b && decide (key a < key b)

/-- `a ≤ b` (R18): false when an operand is a NaN. -/
def le (a b : F64) : Bool := !isNaN a && !isNaN b && decide (key a ≤ key b)

/-- `a == b` (R18): false when an operand is a NaN; +0.0 == -0.0. -/
def eq (a b : F64) : Bool := !isNaN a && !isNaN b && decide (key a = key b)

/-- `f64(n)` of R20: exact below 2^53. -/
def ofNat (n : Nat) : F64 := round false n 0

/-- `floor(x)` of R20 for a finite `x`; 0 for another, which no rule takes the floor of. -/
def floor (a : F64) : Int :=
  match unpack a with
  | .fin neg m e =>
    if 0 ≤ e then signed neg (m * 2 ^ e.toNat) else signed neg m / (2 ^ (-e).toNat : Nat)
  | _ => 0

/-- `ceil(x)` of R20 for a finite `x`; 0 for another, which no rule takes the ceiling of. -/
def ceil (a : F64) : Int :=
  match unpack a with
  | .fin neg m e =>
    if 0 ≤ e then signed neg (m * 2 ^ e.toNat) else -(-(signed neg m) / (2 ^ (-e).toNat : Nat))
  | _ => 0

/-- `trunc(x)` of R20 for a finite `x`; 0 for another, which no rule truncates. -/
def trunc (a : F64) : Int :=
  match unpack a with
  | .fin neg m e =>
    if 0 ≤ e then signed neg (m * 2 ^ e.toNat) else signed neg (m / 2 ^ (-e).toNat)
  | _ => 0

/-- Whether a finite value is an integer, the test `ratio == floor(ratio)` of R107. -/
def isInteger (a : F64) : Bool :=
  match unpack a with
  | .fin _ m e => decide (0 ≤ e) || decide (m % 2 ^ (-e).toNat = 0)
  | _ => false

/-- The value of a binary32 pattern (R73): bit 31 sign, bits 30:23 biased exponent, bits 22:0 fraction. -/
def unpack32 (b : F32) : FpVal :=
  let expo : Nat := b.toNat / 2 ^ 23 % 2 ^ 8
  let frac : Nat := b.toNat % 2 ^ 23
  if expo = 255 then (if frac = 0 then .inf b.msb else .nan)
  else if expo = 0 then .fin b.msb frac (-149)
  else .fin b.msb (2 ^ 23 + frac) ((expo : Int) - 150)

/-- `widen32` of R20: the binary64 value equal to a binary32 value. -/
def widen32 (b : F32) : F64 :=
  match unpack32 b with
  | .nan => nan
  | .inf neg => inf neg
  | .fin neg m e => round neg m e

/-- A quiet NaN with the sign and the 51 payload bits of the pattern given: every quiet NaN is one. -/
def quietNaN (bits : F64) : F64 := bits ||| 0x7FF8000000000000#64

/-! The decimal literals of the rules, each the binary64 value nearest to it (R20, log 16). -/

def one : F64 := 0x3FF0000000000000#64
def two : F64 := 0x4000000000000000#64
def minusOne : F64 := 0xBFF0000000000000#64
def eight : F64 := 0x4020000000000000#64
/-- 21.0 (R101). -/
def twentyOne : F64 := 0x4035000000000000#64
/-- 50.0 (R101). -/
def fifty : F64 := 0x4049000000000000#64
/-- 0.4 (R101). -/
def c0_4 : F64 := 0x3FD999999999999A#64
/-- 0.5842 (R101). -/
def c0_5842 : F64 := 0x3FE2B1C432CA57A8#64
/-- 0.07886 (R101). -/
def c0_07886 : F64 := 0x3FB4302B40F66A55#64
/-- 0.1102 (R101). -/
def c0_1102 : F64 := 0x3FBC36113404EA4B#64
/-- 8.7 (R101). -/
def c8_7 : F64 := 0x4021666666666666#64
/-- 2.285 (R102). -/
def c2_285 : F64 := 0x400247AE147AE148#64
/-- 1e-10 (R103). -/
def c1em10 : F64 := 0x3DDB7CDFD9D7BDBB#64
/-- 32767.0 (R130). -/
def c32767 : F64 := 0x40DFFFC000000000#64
/-- 4294967295.0 (R107). -/
def c4294967295 : F64 := 0x41EFFFFFFFE00000#64
/-- `PI64` (R20). -/
def pi64 : F64 := 0x400921FB54442D18#64
/-- `-PI64` (R21). -/
def minusPi64 : F64 := 0xC00921FB54442D18#64

end Sys2Proof.Fp
end

