-- ==== Sys2Proof/Machine/Elementary.lean ====
section
/-! DEFINITION. The parameter functions SIN, POW and ATAN2 of R21 and the sets the draws of R17 draw from.
Each is an opaque constant of Config mapped onto the functions (the values) R21 (R17) allows, so that every
one of them is possible and nothing else can be proved of it (logs 3, 5). -/

namespace Sys2Proof

/-- `-1 ≤ v ≤ 1`, the bound R21 puts on a sine. -/
def inUnit (v : F64) : Bool := Fp.le Fp.minusOne v && Fp.le v Fp.one

/-- `-PI64 ≤ v ≤ PI64`, the bound R21 puts on an arctangent. -/
def inClosedPi (v : F64) : Bool := Fp.le Fp.minusPi64 v && Fp.le v Fp.pi64

/-- `-PI64 < v ≤ PI64`, the angles of R124 and R126. -/
def inHalfOpenPi (v : F64) : Bool := Fp.lt Fp.minusPi64 v && Fp.le v Fp.pi64

/-- The sine of a finite value without its sign: any value in [-1, 1]. -/
def sinOfMagnitude (x : F64) : F64 :=
  let v := Config.sinRaw x
  if inUnit v then v else 0#64

/-- `SIN` (R21): odd bit for bit and within [-1, 1] on finite values; anything on the others. -/
def SIN (x : F64) : F64 :=
  if Fp.isFinite x then
    (if Fp.sign x then Fp.neg (sinOfMagnitude (Fp.neg x)) else sinOfMagnitude x)
  else Config.sinRaw x

/-- Finite and `> 0`. -/
def isFinitePositive (v : F64) : Bool := Fp.isFinite v && Fp.lt 0#64 v

/-- `POW` (R21): `POW(+0, 0.4)` is +0 and `POW(x, 0.4)` is finite and positive for a finite `x > 0`;
anything elsewhere. -/
def POW (x y : F64) : F64 :=
  let v := Config.powRaw x y
  if y = Fp.c0_4 then
    if x = 0#64 then 0#64
    else if isFinitePositive x then (if isFinitePositive v then v else Fp.one)
    else v
  else v

/-- `ATAN2` (R21): a NaN for a NaN operand; in [-PI64, PI64] for operands not both zero; anything on two
zeros, where R124 does not call it. -/
def ATAN2 (y x : F64) : F64 :=
  let v := Config.atan2Raw y x
  if Fp.isNaN y || Fp.isNaN x then Fp.nan
  else if Fp.eq y 0#64 && Fp.eq x 0#64 then v
  else if inClosedPi v then v
  else Fp.pi64

/-- The `n`-th draw from the angles `(-PI64, PI64]` (R124). -/
def drawAngle (n : Nat) : F64 :=
  let v := Config.drawBits n
  if inHalfOpenPi v then v else Fp.pi64

/-- The `n`-th draw from -32768..32767 (R130). -/
def drawSample (n : Nat) : BitVec 16 := (Config.drawBits n).setWidth 16

/-- The `n`-th draw from the quiet NaN patterns (R19). -/
def drawNaN (n : Nat) : F64 := Fp.quietNaN (Config.drawBits n)

/-- The value that is stored for the result `v` of a computation: `v`, or for a NaN the `n`-th draw of a
payload (R19, log 4). -/
def settleNaN (n : Nat) (v : F64) : F64 := if Fp.isNaN v then drawNaN n else v

end Sys2Proof
end

