-- ==== Sys2Proof/Machine/Operands.lean ====
section
/-! DEFINITION. The operands of commands as the rules read them (R90, R92): a binary32 register widened
exactly, an unsigned register converted with `f64`, the ring in time order, the taps in force. -/

namespace Sys2Proof.Machine

/-- DECIM or TARGET_RATE in binary64 arithmetic (R90): `f64` of the unsigned value. -/
def unsignedOperand (w : Word) : F64 := Fp.ofNat w.toNat

/-- The taps in force: entries `0 .. FILTER_LEN - 1` of COEF (R62). -/
def State.taps (s : State) : List F64 := s.coef.take s.latched.filterLen.toNat

/-- The ring in time order from the slot `newest` (R116): entry `j` is `RING[(newest - j) mod L]`, so the
newest sample comes first and the oldest last. -/
def timeOrder (ring : List (F32 × F32)) (newest len : Nat) : List (F32 × F32) :=
  (List.range len).map fun j => ring.getD ((newest + (len - j)) % len) (0#32, 0#32)

end Sys2Proof.Machine
end

