-- ==== Sys2Proof/Machine/Designer.lean ====
section
/-! DEFINITION. The kaiser_fir_designer unit and its command DESIGN (R98 to R109). Every sub-function is the
rule's pseudocode, operation by operation; a `raise` is an `Except.error`. -/

namespace Sys2Proof.Machine

/-- What a successful DESIGN computes: the arguments of `commit_success` (R108). -/
structure DesignResult where
  taps : List F64
  len : Nat
  factor : Nat
  beta : F64
  decim : Word
deriving DecidableEq, Repr

/-- The five binary64 fields in the order R100 checks them. -/
def ConfigRegs.fields (c : ConfigRegs) : List F64 := [c.cutoff, c.twidth, c.ripple, c.gain, c.fs]

/-- `check_fields` (R100). -/
def checkFields (c : ConfigRegs) : Except ErrCode Unit :=
  if c.fields.any (fun v => !Fp.isFinite v) then .error .cfgNonfinite
  else if c.fields.any (fun v => !Fp.lt 0#64 v) then .error .cfgNonpositive
  else if c.decim = 0#32 then .error .cfgDecimZero
  else if c.targetRate = 0#32 then .error .cfgTargetZero
  else .ok ()

/-- `kaiser_beta` (R101). -/
def kaiserBeta (rdb : F64) : F64 :=
  if Fp.lt rdb Fp.twentyOne then 0#64
  else if Fp.le rdb Fp.fifty then
    let a := Fp.sub rdb Fp.twentyOne
    Fp.add (Fp.mul Fp.c0_5842 (POW a Fp.c0_4)) (Fp.mul Fp.c0_07886 a)
  else Fp.mul Fp.c0_1102 (Fp.sub rdb Fp.c8_7)

/-- The quotient `q` of R102. -/
def orderQuotient (rdb tw fs : F64) : F64 :=
  let df := Fp.div tw fs
  let denom := Fp.mul (Fp.mul Fp.c2_285 (Fp.mul Fp.two Fp.pi64)) df
  Fp.div (Fp.sub rdb Fp.eight) denom

/-- The length test of R102 on the integer `n = M0 + 1`: forced to the next odd value, and not above the
capacity. -/
def forceOdd (lMax : Nat) (n : Int) : Except ErrCode Nat :=
  if n ≤ 0 then .error .lenNonpositive
  else
    let len := if n % 2 = 1 then n.toNat else n.toNat + 1
    if lMax < len then .error .lenExceedsCapacity else .ok len

/-- `filter_length` (R102): the length `L`; `M` is `L - 1`. -/
def filterLength (lMax : Nat) (rdb tw fs : F64) : Except ErrCode Nat :=
  let q := orderQuotient rdb tw fs
  if !Fp.isFinite q then .error .lenNonfinite
  else forceOdd lMax (Fp.ceil q + 1)

/-- The loop of I0 (R103), at the term number `k`: `none` when the budget is used up. -/
def seriesLoop (y : F64) : (budget : Nat) → (s term : F64) → (k : Nat) → Option (Except ErrCode F64)
  | 0, _, _, _ => none
  | budget + 1, s, term, k =>
    let r := Fp.div y (Fp.ofNat k)
    let term := Fp.mul term (Fp.mul r r)
    if term = Fp.inf false then some (.error .besselOverflow)
    else if Fp.lt term (Fp.mul Fp.c1em10 s) then some (.ok s)
    else
      let s := Fp.add s term
      if s = Fp.inf false then some (.error .besselOverflow)
      else seriesLoop y budget s term (k + 1)

/-- Terms the loop is given: more than it can take for any finite `x ≥ 0` (log 6). -/
def seriesBudget : Nat := 4096

/-- `I0` (R103) of a finite `x ≥ 0`. A loop that outran the budget would answer a free value (log 6). -/
def besselI0 (x : F64) : Except ErrCode F64 :=
  (seriesLoop (Fp.div x Fp.two) seriesBudget Fp.one Fp.one 1).getD (.ok Config.unfinishedSeries)

/-- `window` (R104). -/
def kaiserWindow (t alpha beta i0b : F64) : Except ErrCode F64 :=
  if Fp.eq alpha 0#64 then .ok Fp.one
  else
    let u := Fp.div t alpha
    match besselI0 (Fp.mul beta (Fp.sqrt (Fp.sub Fp.one (Fp.mul u u)))) with
    | .error c => .error c
    | .ok v => .ok (Fp.div v i0b)

/-- `sinc` (R105). R105 says NaN where `w` is +0.0; there `a` is a zero, and this is `SIN(0) / 0`: a NaN if SIN of it
is a zero and else an infinity, since R21 does not fix SIN of a zero (log 5, DEDUCED). R106 raises COEF_NONFINITE
either way. -/
def sinc (t w : F64) : F64 :=
  if Fp.eq t 0#64 then Fp.one
  else
    let a := Fp.mul w t
    Fp.div (SIN a) a

/-- One tap of R106: the body of the loop for tap `n`. -/
def tap (w alpha g beta i0b : F64) (n : Nat) : Except ErrCode F64 :=
  let t := Fp.sub (Fp.ofNat n) alpha
  match kaiserWindow t alpha beta i0b with
  | .error c => .error c
  | .ok v =>
    let h := Fp.mul (Fp.mul (sinc t w) v) g
    if Fp.isFinite h then .ok h else .error .coefNonfinite

/-- The loop of R106 over `count` taps from tap `n` on, in ascending order; it ends at the first raise. -/
def tapLoop (f : Nat → Except ErrCode F64) : (count n : Nat) → Except ErrCode (List F64)
  | 0, _ => .ok []
  | count + 1, n =>
    match f n with
    | .error c => .error c
    | .ok h =>
      match tapLoop f count (n + 1) with
      | .error c => .error c
      | .ok rest => .ok (h :: rest)

/-- `w` of R106: `(2.0 * PI64) * fc` with `fc = fc_hz / fs`. -/
def angularCutoff (fcHz fs : F64) : F64 := Fp.mul (Fp.mul Fp.two Fp.pi64) (Fp.div fcHz fs)

/-- `alpha` of R106: `f64(M) / 2.0` with `M = L - 1`. -/
def tapCentre (len : Nat) : F64 := Fp.div (Fp.ofNat (len - 1)) Fp.two

/-- `coefficients` (R106). -/
def coefficients (fcHz fs g beta i0b : F64) (len : Nat) : Except ErrCode (List F64) :=
  tapLoop (tap (angularCutoff fcHz fs) (tapCentre len) g beta i0b) len 0

/-- The ratio of R107: `(fs / f64(d)) / f64(tr)`. -/
def rateRatio (fs : F64) (d tr : Word) : F64 :=
  Fp.div (Fp.div fs (unsignedOperand d)) (unsignedOperand tr)

/-- `resample_factor` (R107). -/
def resampleFactorOf (fs : F64) (d tr : Word) : Except ErrCode Nat :=
  let ratio := rateRatio fs d tr
  if !Fp.isInteger ratio then .error .ratioNotInteger
  else if Fp.lt ratio Fp.one || Fp.lt Fp.c4294967295 ratio then .error .ratioRange
  else .ok (Fp.trunc ratio).toNat

/-- The computation of DESIGN (R99) from the configuration registers alone (R98): the first `raise` its
pseudocode reaches, or what `commit_success` is given. -/
def designOf (lMax : Nat) (c : ConfigRegs) : Except ErrCode DesignResult := do
  checkFields c
  let beta := kaiserBeta c.ripple
  let len ← filterLength lMax c.ripple c.twidth c.fs
  let factor ← resampleFactorOf c.fs c.decim c.targetRate
  let i0b ← besselI0 beta
  let h ← coefficients c.cutoff c.fs c.gain beta i0b len
  return { taps := h, len := len, factor := factor, beta := beta, decim := c.decim }

/-- `commit_success` (R108). -/
def State.commitSuccess (s : State) (d : DesignResult) : State :=
  State.startStream
    { s with
      coef := d.taps ++ s.coef.drop d.taps.length
      latched :=
        { filterLen := BitVec.ofNat 32 d.len, resampleFactor := BitVec.ofNat 32 d.factor,
          decimActive := d.decim, beta := d.beta }
      status := { s.status with designed := true } }

/-- `commit_failure` (R109), without the report. -/
def State.commitFailure (s : State) : State :=
  { s with
    latched := { filterLen := 0#32, resampleFactor := 0#32, decimActive := 0#32, beta := 0#64 }
    status := { s.status with designed := false } }

/-- How DESIGN ends: `commit_success`, or `commit_failure` and the report of the code (R99, R109, R148). -/
def State.finishDesign (s : State) : Except ErrCode DesignResult → State
  | .ok d => (s.commitSuccess d).complete
  | .error c => s.commitFailure.raise c

/-- DESIGN (R99). -/
def execDesign (s : State) : Host.Outcome State Fault Refusal :=
  .next (s.finishDesign (designOf s.params.lMax s.cfg))

end Sys2Proof.Machine
end

