-- ==== Sys2Proof/Machine/Demod.lean ====
section
/-! DEFINITION. The fm_phase_demod_unit (R124) and its command DEMOD_STEP (R125). -/

namespace Sys2Proof.Machine

/-- The real part of `current * conj(previous)` (R124). -/
def productRe (c p : F64 × F64) : F64 := Fp.add (Fp.mul c.1 p.1) (Fp.mul c.2 p.2)

/-- The imaginary part of `current * conj(previous)` (R124). Where its products overflow, two equal samples give a
NaN here, not the +0.0 of R128's last bullet (log 22, DEDUCED). -/
def productIm (c p : F64 × F64) : F64 := Fp.sub (Fp.mul c.2 p.1) (Fp.mul c.1 p.2)

/-- The degenerate case of R124: the first step since START, or a product zero in both parts. -/
def State.demodDegenerate (s : State) (c : F64 × F64) : Bool :=
  s.counters.nDemod == 0#64 ||
    (Fp.eq (productRe c s.prev) 0#64 && Fp.eq (productIm c s.prev) 0#64)

/-- The four-quadrant arctangent in the half-open range of R124: -PI64 becomes PI64. -/
def halfOpenAtan2 (im re : F64) : F64 :=
  let a := ATAN2 im re
  if Fp.eq a Fp.minusPi64 then Fp.pi64 else a

/-- The angle of R124: a draw in the degenerate case; a NaN takes a drawn payload (log 4). -/
def State.demodAngle (s : State) (c : F64 × F64) : F64 :=
  if s.demodDegenerate c then drawAngle s.draws
  else settleNaN s.draws (halfOpenAtan2 (productIm c s.prev) (productRe c s.prev))

/-- `demod_step` of R124, one complex sample through the demodulator. -/
def State.demodUnit (s : State) (ci cq : F64) : State :=
  { s with
    prev := (ci, cq)
    results := { s.results with angle := s.demodAngle (ci, cq) }
    counters := { s.counters with nDemod := s.counters.nDemod + 1 }
    draws := s.draws + 1 }

/-- DEMOD_STEP (R125). -/
def execDemodStep (s : State) : Host.Outcome State Fault Refusal :=
  .next (s.demodUnit s.operands.dinI s.operands.dinQ).complete

end Sys2Proof.Machine
end

