-- ==== Sys2Proof/Machine/Fir.lean ====
section
/-! DEFINITION. The streaming_decimating_complex_fir unit (R116) and its command FIR_STEP (R117). -/

namespace Sys2Proof.Machine

/-- One lane of the dot product of R116: from +0.0, each tap times the widened sample of its age, rounded,
then added, tap 0 first. The lanes share the taps and nothing else (R120). -/
def laneSum (taps : List F64) (xs : List F32) : F64 :=
  (taps.zip xs).foldl (fun acc p => Fp.add acc (Fp.mul p.1 (Fp.widen32 p.2))) 0#64

/-- The window of the dot product: the `L` ring entries in time order, the newest in the slot `newest`. -/
def State.window (s : State) (newest : Nat) : List (F32 × F32) :=
  timeOrder s.ring newest s.latched.filterLen.toNat

/-- The filter output of R116 is stored and counted. A NaN takes a drawn payload (log 4). -/
def State.emitFir (s : State) (ai aq : F64) : State :=
  { s with
    results := { s.results with firOutI := settleNaN s.draws ai, firOutQ := settleNaN (s.draws + 1) aq }
    counters := { s.counters with nFirOut := s.counters.nFirOut + 1 }
    status := { s.status with firValid := true }
    draws := s.draws + 2 }

/-- `fir_step` of R116, one input sample through the filter. -/
def State.firUnit (s : State) (xi xq : F32) : State :=
  let t := s.storeSample xi xq
  if s.firEmits then
    t.emitFir (laneSum t.taps ((t.window s.wr).map (·.1))) (laneSum t.taps ((t.window s.wr).map (·.2)))
  else { t with status := { t.status with firValid := false } }

/-- FIR_STEP (R117). -/
def execFirStep (s : State) : Host.Outcome State Fault Refusal :=
  if s.status.designed = false then .next (s.raise .notDesigned)
  else
    match s.filterFault with
    | some f => .fault f
    | none => .next (s.firUnit s.operands.inI s.operands.inQ).complete

end Sys2Proof.Machine
end

