-- ==== Sys2Proof/Machine/Resampler.lean ====
section
/-! DEFINITION. The audio_resampler_quantizer unit (R130, R131) and its command RESAMPLE_STEP (R132). -/

namespace Sys2Proof.Machine

/-- The clip of R130 to [-1.0, 1.0]. -/
def clip (a : F64) : F64 :=
  let v := if Fp.lt a Fp.minusOne then Fp.minusOne else a
  if Fp.lt Fp.one v then Fp.one else v

/-- `quantize` of R130 as an integer, for a value that is no NaN. -/
def quantized (a : F64) : Int := Fp.trunc (Fp.mul (clip a) Fp.c32767)

/-- `quantize` of R130: the sample; for a NaN the `n`-th draw. -/
def quantize (n : Nat) (a : F64) : BitVec 16 :=
  if Fp.isNaN a then drawSample n else BitVec.ofInt 16 (quantized a)

/-- The quantizer's flag (R130): NONFINITE is set when the value is a NaN. -/
def State.flagNaN (s : State) (a : F64) : State :=
  { s with status := { s.status with nonfinite := s.status.nonfinite || Fp.isNaN a } }

/-- `resample_step` of R131, one demodulated sample through the resampler. -/
def State.resampleUnit (s : State) (a : F64) : State :=
  let t := { s with counters := { s.counters with nRsIn := s.counters.nRsIn + 1 } }
  if s.resampleEmits then ((t.flagNaN a).emitAudio (quantize s.draws a)).advanceDraws 1
  else { t with status := { t.status with audioValid := false } }

/-- RESAMPLE_STEP (R132), with the hold of R133. -/
def execResampleStep (s : State) : Host.Outcome State Fault Refusal :=
  if s.status.designed = false then .next (s.raise .notDesigned)
  else
    match s.resamplerFault with
    | some f => .fault f
    | none => .next (if s.resampleHeld then s else (s.resampleUnit s.operands.scalarIn).complete)

end Sys2Proof.Machine
end

