-- ==== Sys2Proof/Machine/Pipeline.lean ====
section
/-! DEFINITION. The chained command PUSH_IQ (R141). -/

namespace Sys2Proof.Machine

/-- The three units in a row, as R141 chains them: the demodulator and the resampler run only when the filter
produced an output. -/
def State.pushUnits (s : State) (xi xq : F32) : State :=
  let t := s.firUnit xi xq
  if s.firEmits then
    let u := t.demodUnit t.results.firOutI t.results.firOutQ
    u.resampleUnit u.results.angle
  else { t with status := { t.status with audioValid := false } }

/-- PUSH_IQ (R141), with the hold of R133. -/
def execPushIq (s : State) : Host.Outcome State Fault Refusal :=
  if s.status.designed = false then .next (s.raise .notDesigned)
  else
    match s.filterFault, s.resamplerFault with
    | some f, _ => .fault f
    | none, some f => .fault f
    | none, none => .next (if s.pushHeld then s else (s.pushUnits s.operands.inI s.operands.inQ).complete)

end Sys2Proof.Machine
end

