-- ==== Sys2Proof/Machine/Dispatch.lean ====
section
/-! DEFINITION. One arm per command: the core step of R138 on a word that decodes to it. -/

namespace Sys2Proof.Machine

def exec (i : Instr) (s : State) : Host.Outcome State Fault Refusal :=
  match i with
  | .nop => Sys2Proof.Machine.execNop s
  | .design => Sys2Proof.Machine.execDesign s
  | .start => Sys2Proof.Machine.execStart s
  | .pushIq => Sys2Proof.Machine.execPushIq s
  | .firStep => Sys2Proof.Machine.execFirStep s
  | .demodStep => Sys2Proof.Machine.execDemodStep s
  | .resampleStep => Sys2Proof.Machine.execResampleStep s

end Sys2Proof.Machine
end

