-- ==== Sys2Proof/Machine/Engine.lean ====
section
/-! DEFINITION. The turns of the agents (R11, R82): the core engine (R138), the audio sink (R134), reset (R165),
and the choice of the agent that moves. -/

namespace Sys2Proof.Machine

/-- A turn of the core engine (R138). With a command pending it runs that command's step (a held command's
step changes nothing, R133), or raises ILLEGAL_CMD on a word that decodes to none (R93). With none pending it
waits (R169). -/
def State.coreTurn (s : State) : Host.Outcome State Fault Refusal :=
  if s.status.busy then
    match decodeWord s.pending with
    | some i => exec i s
    | none => .next (s.raise .illegalCmd)
  else .next s

/-- A turn of the audio sink (R134): it takes the oldest entry, if there is one. -/
def State.sinkTurn (s : State) : State :=
  match s.fifo with
  | [] => s
  | q :: rest => { s with fifo := rest, audioOut := s.audioOut ++ [q] }

/-- A reset by the platform (R165, R166). The parameters are the machine's; what is left of the agenda, what
the host has read and what the sink has received are the other agents'. -/
def State.resetTurn (s : State) : State :=
  { State.resetFrom s.params s.draws with
    agenda := s.agenda, hostReads := s.hostReads, audioOut := s.audioOut }

/-- One turn of one agent. -/
def State.takeTurn (s : State) : Turn → Host.Outcome State Fault Refusal
  | .hostRead w addr => s.hostRead w addr
  | .hostWrite w addr v => s.hostWrite w addr v
  | .core => s.coreTurn
  | .sink => .next s.sinkTurn
  | .reset => .next s.resetTurn

/-- The next turn of the agenda; when the agenda is used up, the core engine's (log 1). -/
def State.nextTurn (s : State) : Host.Outcome State Fault Refusal :=
  match s.agenda with
  | [] => s.coreTurn
  | t :: rest => State.takeTurn { s with agenda := rest } t

/-- The word is pending and the next turn is the core engine's (log 13). -/
def State.withCommand (s : State) (w : Word) : State :=
  { s with pending := w, status := { s.status with busy := true }, agenda := .core :: s.agenda }

end Sys2Proof.Machine
end

