-- ==== Sys2Proof/Machine/Step.lean ====
section
/-! DEFINITION. One step of the machine: one turn of one agent (R82). -/

namespace Sys2Proof.Machine

/-- One atomic step (R82). -/
def step (s : State) : Host.Outcome State Fault Refusal := s.nextTurn

/-- `s` with the command word `w` (bits from `nbits` on are 0) pending and the core engine to move next: the
CORE fetches nothing (R26), so this is where its next command stands (log 13). -/
def State.withFetchWord (s : State) (nbits w : Nat) : State :=
  s.withCommand (BitVec.ofNat 32 (w % 2 ^ nbits))

end Sys2Proof.Machine
end

