-- ==== Sys2Proof/Machine/HostNotation.lean ====
section
/-! DEFINITION. The host notation of R96 and R97 as the turns it expands to, for a CORE at `base`. The core
engine's turns are not the host's: `runCommand` is `do` of R97 under the schedule in which the engine steps
right after the write to CMD and the first poll finds BUSY = 0. -/

namespace Sys2Proof.Machine

/-- `wr32 OFF, V` (R96). -/
def wr32 (base off : Nat) (v : Word) : List Turn := [.hostWrite .word (base + off) v]

/-- `rd32 OFF` (R96). -/
def rd32 (base off : Nat) : List Turn := [.hostRead .word (base + off)]

/-- `cmd V` (R96). -/
def cmdWord (base : Nat) (v : Word) : List Turn := wr32 base 0x010 v

/-- `wr64 NAME, X` (R97), for the register whose low word is at `off`. -/
def wr64 (base off : Nat) (x : BitVec 64) : List Turn :=
  wr32 base off (lowWord x) ++ wr32 base (off + 4) (highWord x)

/-- `rd64 NAME` (R97), for the register whose low word is at `off`. -/
def rd64 (base off : Nat) : List Turn := rd32 base off ++ rd32 base (off + 4)

/-- `do V` (R97) under the schedule above. -/
def runCommand (base : Nat) (v : Word) : List Turn := cmdWord base v ++ [.core] ++ rd32 base 0x014

/-- `push I, Q` (R97), on bit patterns. -/
def pushSample (base : Nat) (i q : F32) : List Turn :=
  wr32 base 0x060 i ++ wr32 base 0x064 q ++ runCommand base (encodeWord .pushIq)

/-- `fir I, Q` (R97), on bit patterns. -/
def firSample (base : Nat) (i q : F32) : List Turn :=
  wr32 base 0x060 i ++ wr32 base 0x064 q ++ runCommand base (encodeWord .firStep)

/-- `demod I, Q` (R97), on bit patterns. -/
def demodSample (base : Nat) (i q : F64) : List Turn :=
  wr64 base 0x068 i ++ wr64 base 0x070 q ++ runCommand base (encodeWord .demodStep)

/-- `rs X` (R97), on a bit pattern. -/
def resampleSample (base : Nat) (x : F64) : List Turn :=
  wr64 base 0x078 x ++ runCommand base (encodeWord .resampleStep)

/-- `clr` (R97). -/
def clearSticky (base : Nat) : List Turn := wr32 base 0x014 0x00000300#32

end Sys2Proof.Machine
end

