-- ==== Sys2Proof/Safety.lean ====
section
/-! DEFINITION. The terms the claims are stated in: the exact value of a floating-point pattern and correct
rounding (R19, R20), the invariant of the machine (R155), the hold of R138, the loop of R116, the series of R103
and the taps of R106 in the spec's own words, the counts of R118 and R131, and the end of a run (R182). -/

namespace Sys2Proof.Fp

/-- The exact number a finite binary64 pattern stands for (R74); 0 for a NaN or an infinity. -/
def toRat (b : F64) : ℚ :=
  match unpack b with
  | .fin neg m e => (signed neg m : ℚ) * 2 ^ e
  | _ => 0

/-- The exact number a finite binary32 pattern stands for (R73); 0 for a NaN or an infinity. -/
def toRat32 (b : F32) : ℚ :=
  match unpack32 b with
  | .fin neg m e => (signed neg m : ℚ) * 2 ^ e
  | _ => 0

/-- `r` is the finite binary64 value nearest to `x`, and where two are equally near, the one whose last
fraction bit is 0 (R19). -/
def IsNearestEven (x : ℚ) (r : F64) : Prop :=
  isFinite r = true ∧
    ∀ c : F64, isFinite c = true →
      |toRat r - x| ≤ |toRat c - x| ∧
        (|toRat r - x| = |toRat c - x| → toRat c ≠ toRat r → r.getLsbD 0 = false)

/-- `r` is `x` rounded to binary64, to nearest, ties to even (R19): beyond the largest finite value by half a
unit in its last place or more, the infinity of `x`'s sign. -/
def RoundsTo (x : ℚ) (r : F64) : Prop :=
  if |x| < 2 ^ 1024 - 2 ^ 970 then IsNearestEven x r else r = inf (decide (x < 0))

/-- What a rule stores for the value `v`: `v` itself, or any NaN at all when `v` is a NaN (R19). -/
def SameOrNaN (r v : F64) : Prop := if isNaN v = true then isNaN r = true else r = v

/-- The operations beside infinities of signs `s` and `u`, and a finite `a` (R19; IEEE 754's, log 15). -/
structure InfinityRules (a : F64) (s u : Bool) : Prop where
  addLeft : add (inf s) a = inf s
  addRight : add a (inf s) = inf s
  addSame : add (inf s) (inf s) = inf s
  addOpposite : isNaN (add (inf s) (inf !s)) = true
  subLeft : sub (inf s) a = inf s
  subRight : sub a (inf s) = inf !s
  subOpposite : sub (inf s) (inf !s) = inf s
  subSame : isNaN (sub (inf s) (inf s)) = true
  mulBoth : mul (inf s) (inf u) = inf (s != u)
  mulLeft : toRat a ≠ 0 → mul (inf s) a = inf (s != sign a)
  mulRight : toRat a ≠ 0 → mul a (inf s) = inf (sign a != s)
  mulZero : toRat a = 0 → isNaN (mul (inf s) a) = true ∧ isNaN (mul a (inf s)) = true
  divBoth : isNaN (div (inf s) (inf u)) = true
  divLeft : div (inf s) a = inf (s != sign a)
  divRight : div a (inf s) = pack (sign a != s) 0

/-- A divisor of zero, and the signs of results that may be zero, for finite `a` and `b` (R19; IEEE 754's,
log 15). -/
structure ZeroRules (a b : F64) : Prop where
  divByZero : toRat b = 0 → toRat a ≠ 0 → div a b = inf (sign a != sign b)
  zeroByZero : toRat b = 0 → toRat a = 0 → isNaN (div a b) = true
  mulSign : sign (mul a b) = (sign a != sign b)
  divSign : toRat b ≠ 0 → sign (div a b) = (sign a != sign b)
  addZero : toRat a + toRat b = 0 → add a b = pack (sign a && sign b) 0
  subZero : toRat a - toRat b = 0 → sub a b = pack (sign a && !sign b) 0

/-- Where an infinity of sign `s` stands among the values `a` that are no NaN (R18; IEEE 754's, log 15). -/
structure InfinityOrder (a : F64) (s : Bool) : Prop where
  leTop : le a (inf false) = true
  leBottom : le (inf true) a = true
  ltTop : lt a (inf false) = true ↔ a ≠ inf false
  ltBottom : lt (inf true) a = true ↔ a ≠ inf true
  eqInf : eq a (inf s) = true ↔ a = inf s

end Sys2Proof.Fp

namespace Sys2Proof.Machine

/-- Latched state of a designed machine (R46, R47, R49, R64, R88, R106, R155). -/
structure State.DesignedOk (s : State) : Prop where
  lenOdd : s.latched.filterLen.toNat % 2 = 1
  lenLe : s.latched.filterLen.toNat ≤ s.params.lMax
  wrLt : s.wr < s.latched.filterLen.toNat
  decimPos : s.latched.decimActive ≠ 0#32
  factorPos : s.latched.resampleFactor ≠ 0#32
  tapsFinite : ∀ h ∈ s.taps, Fp.isFinite h = true

/-- The latched registers of a machine without a design (R46 to R49). -/
def State.undesigned : Latched :=
  { filterLen := 0#32, resampleFactor := 0#32, decimActive := 0#32, beta := 0#64 }

/-- What holds of the machine between any two steps: the ranges R9 gives the parameters, the sizes of the
memories (R62, R63, R66), the internal invariants of R155 when DESIGNED = 1, the cleared latches when
DESIGNED = 0 (R46 to R49), the agreement of ERR with ERR_CODE (R41), the range of ANGLE (R126), and
AUDIO_LAST a sign-extended sample (R60). -/
structure State.Inv (s : State) : Prop where
  params : s.params.wf = true
  coefLen : s.coef.length = s.params.lMax
  ringLen : s.ring.length = s.params.lMax
  fifoLen : s.fifo.length ≤ s.params.fifoDepth
  designed : s.status.designed = true → s.DesignedOk
  undesigned : s.status.designed = false → s.latched = State.undesigned
  errAgrees : s.status.err = false ↔ s.errCode = .noError
  angle : Fp.isNaN s.results.angle = true ∨ inHalfOpenPi s.results.angle = true
  audioLast : ∃ q : BitVec 16, s.results.audioLast = q.signExtend 32

/-- `held` of R138, word for word: the commands the full FIFO holds back in this state. -/
def State.HeldBy (s : State) (i : Instr) : Prop :=
  s.fifo.length = s.params.fifoDepth ∧ s.status.designed = true ∧
    ((i = .resampleStep ∧ s.counters.nRsIn.toNat % s.latched.resampleFactor.toNat = 0) ∨
      (i = .pushIq ∧ (s.counters.nIn.toNat : Int) ≥ (s.latched.filterLen.toNat : Int) - 1 ∧
        s.counters.nIn.toNat % s.latched.decimActive.toNat = 0 ∧
        s.counters.nRsIn.toNat % s.latched.resampleFactor.toNat = 0))

/-- The core engine has the next turn: the agenda says so, or is used up. -/
def State.CoreMoves (s : State) : Prop := s.agenda = [] ∨ ∃ rest, s.agenda = .core :: rest

/-- The state with the turn just taken off the agenda. -/
def State.turnTaken (s : State) : State := { s with agenda := s.agenda.tail }

/-- The emission test of R116, word for word. -/
def State.EmitsFir (s : State) : Prop :=
  (s.counters.nIn.toNat : Int) ≥ (s.latched.filterLen.toNat : Int) - 1 ∧
    s.counters.nIn.toNat % s.latched.decimActive.toNat = 0

/-- The accumulator of R116's loop after its first `j` rounds, for the lane `part`: `newest` is the slot of the
newest sample, and the ring is read at the mathematical remainder of `newest - j`. -/
def accumulated (coef : List F64) (ring : List (F32 × F32)) (part : F32 × F32 → F32) (newest len : Nat) :
    (j : Nat) → F64
  | 0 => 0#64
  | j + 1 =>
    Fp.add (accumulated coef ring part newest len j)
      (Fp.mul (coef.getD j 0#64)
        (Fp.widen32 (part (ring.getD (((newest : Int) - j) % len).toNat (0#32, 0#32)))))

/-- The term number `k` of the series of R103 for `y = x / 2`: each is the one before times the square of `y / k`. -/
def besselTerm (y : F64) : (k : Nat) → F64
  | 0 => Fp.one
  | k + 1 => Fp.mul (besselTerm y k) (Fp.mul (Fp.div y (Fp.ofNat (k + 1))) (Fp.div y (Fp.ofNat (k + 1))))

/-- The sum of the series of R103 from term 0 through term `k`, added in that order. -/
def besselSum (y : F64) : (k : Nat) → F64
  | 0 => Fp.one
  | k + 1 => Fp.add (besselSum y k) (besselTerm y (k + 1))

/-- The test that ends the series of R103: the term after term `k` is below 1e-10 of the sum through term `k`. -/
def besselStops (y : F64) (k : Nat) : Prop :=
  Fp.lt (besselTerm y (k + 1)) (Fp.mul Fp.c1em10 (besselSum y k)) = true

/-- The window of tap `n` of R106 for the length `len`, in R104's own words: 1.0 for one tap, else what the inner I0
answers over `i0b`. -/
def windowOfTap (beta i0b : F64) (len n : Nat) : Except ErrCode F64 :=
  let alpha := Fp.div (Fp.ofNat (len - 1)) Fp.two
  let u := Fp.div (Fp.sub (Fp.ofNat n) alpha) alpha
  if len = 1 then .ok Fp.one
  else
    match besselI0 (Fp.mul beta (Fp.sqrt (Fp.sub Fp.one (Fp.mul u u)))) with
    | .error e => .error e
    | .ok v => .ok (Fp.div v i0b)

/-- The value of tap `n` of R106 for the length `len` and the window value `v`: `(sinc * v) * g`, with R105's sinc. -/
def valueOfTap (fcHz fs g : F64) (len n : Nat) (v : F64) : F64 :=
  let t := Fp.sub (Fp.ofNat n) (Fp.div (Fp.ofNat (len - 1)) Fp.two)
  let a := Fp.mul (Fp.mul (Fp.mul Fp.two Fp.pi64) (Fp.div fcHz fs)) t
  Fp.mul (Fp.mul (if Fp.eq t 0#64 = true then Fp.one else Fp.div (SIN a) a) v) g

/-- Tap `n` of R106 raises nothing: its window answers, and its value is neither a NaN nor an infinity. -/
def TapFits (fcHz fs g beta i0b : F64) (len n : Nat) : Prop :=
  ∃ v, windowOfTap beta i0b len n = .ok v ∧ Fp.isFinite (valueOfTap fcHz fs g len n v) = true

/-- `count(N)` of R118: the outputs `n` filter steps since START have produced, for the length `len` and the
decimation factor `d`. -/
def outputCount (len d n : Nat) : Int :=
  if n < len then 0
  else ((n : Int) - 1) / d - (-(-((len : Int) - 1) / d)) + 1

/-- The filter has produced the outputs R118 counts for the samples consumed since START. -/
def State.CountsAgree (s : State) : Prop :=
  s.status.designed = true →
    (s.counters.nFirOut.toNat : Int) =
      outputCount s.latched.filterLen.toNat s.latched.decimActive.toNat s.counters.nIn.toNat

/-- The resampler has emitted the samples R131 counts for those it has consumed since START: N_AUDIO is N_RS_IN
divided by RESAMPLE_FACTOR, rounded up (R129, R135). -/
def State.EmissionsAgree (s : State) : Prop :=
  s.status.designed = true →
    s.counters.nAudio.toNat =
      (s.counters.nRsIn.toNat + s.latched.resampleFactor.toNat - 1) / s.latched.resampleFactor.toNat

/-- The offsets R80 lists: the RW, WO and W1C registers of R27, word by word. -/
def writableOffsets : List Nat :=
  [0x010, 0x014, 0x020, 0x024, 0x028, 0x02C, 0x030, 0x034, 0x038, 0x03C, 0x040, 0x044, 0x048, 0x04C,
   0x060, 0x064, 0x068, 0x06C, 0x070, 0x074, 0x078, 0x07C]

/-- The state but for the registers the host writes: two states with the same rest differ in those alone. -/
def State.withHostRegisters (s r : State) : State := { s with cfg := r.cfg, operands := r.operands }

/-- The storage and latched state a filter step needs (R88, R155). -/
def State.FilterReady (s : State) : Prop :=
  s.status.designed = true ∧ s.DesignedOk ∧ s.coef.length = s.params.lMax ∧ s.ring.length = s.params.lMax

/-- The samples in the FIFO and at the sink are `n` and those N_AUDIO counts: `n` is what the sink had received at
the last START, if the FIFO was empty then (R182). -/
def State.AudioCountAgrees (s : State) (n : Nat) : Prop :=
  s.audioOut.length + s.fifo.length = n + s.counters.nAudio.toNat

/-- The next turn starts a stream (R140): it is the core engine's, with START pending, or a DESIGN that succeeds. -/
def State.RestartsStream (s : State) : Prop :=
  s.CoreMoves ∧ s.status.busy = true ∧
    (decodeWord s.pending = some .start ∨
      (decodeWord s.pending = some .design ∧ ∃ d, designOf s.params.lMax s.cfg = .ok d))

/-- A turn that issues a command: a host write to CMD (R32). -/
def State.IssuedBy (s : State) (u : Turn) : Prop := ∃ v, u = .hostWrite .word (s.params.base + 0x010) v

/-- The end of a run (R182): the host has issued its last command, no command is pending, and the sink has received
every sample. -/
def State.RunOver (s : State) : Prop :=
  (∀ u ∈ s.agenda, ¬ s.IssuedBy u) ∧ s.status.busy = false ∧ s.fifo = []

/-- What a step from `s` to `t` emitted, by the machine's own account: AUDIO_LAST, if N_AUDIO has risen. -/
def emitted (s t : State) : List (BitVec 16) :=
  if t.counters.nAudio.toNat = s.counters.nAudio.toNat + 1 then [t.results.audioLast.setWidth 16] else []

/-- What `k` steps from `s` emit, in the order of the steps. -/
def emissions : (k : Nat) → (s : State) → List (BitVec 16)
  | 0, _ => []
  | k + 1, s =>
    match step s with
    | .next t => emitted s t ++ emissions k t
    | .fault _ => []
    | .refused _ => []

/-- WR stands at the sample count while the ring fills for the first time since START (R116, R140). -/
def State.CursorFollows (s : State) : Prop :=
  s.status.designed = true → s.counters.nIn.toNat < s.latched.filterLen.toNat → s.wr = s.counters.nIn.toNat

/-- The two states differ at most in ring entries that no sample has been written to since START (R63). -/
def State.SameButUnwritten (s u : State) : Prop :=
  u = { s with ring := u.ring } ∧ u.ring.length = s.ring.length ∧
    ∀ j, j < s.counters.nIn.toNat → j < s.latched.filterLen.toNat → u.ring[j]? = s.ring[j]?

end Sys2Proof.Machine
end

