-- ==== Sys2Proof/Certificates/Slice0/Obligations.lean ====
section
/-! DEFINITION. The statements for the provers. Each docstring names the rule it formalises. -/

open Sys2Proof Sys2Proof.Machine

/-! ### Encoding -/

/-- R91: the seven words of the opcode map decode to their commands, and every other opcode is reserved. -/
def Obligations.OpcodeMapDecodes : Prop :=
  decodeWord 0x00000000#32 = some .nop ∧ decodeWord 0x00000001#32 = some .design ∧
  decodeWord 0x00000002#32 = some .start ∧ decodeWord 0x00000003#32 = some .pushIq ∧
  decodeWord 0x00000004#32 = some .firStep ∧ decodeWord 0x00000005#32 = some .demodStep ∧
  decodeWord 0x00000006#32 = some .resampleStep ∧
  ∀ op : BitVec 8, 7 ≤ op.toNat → decodeWord (0#24 ++ op) = none

/-- R93, R94: each command has one word and each word at most one command; a word decodes to none exactly when
RSVD is not 0 or the opcode is 0x07 or more. -/
def Obligations.EachWordHasOneMeaning : Prop :=
  ∀ w : Word, (∀ i : Instr, decodeWord w = some i ↔ w = encodeWord i) ∧
    (decodeWord w = none ↔ w.extractLsb' 8 24 ≠ 0#24 ∨ 7 ≤ (w.extractLsb' 0 8).toNat)

/-- The model's own byte decoder (log 19, DEDUCED: no step of the CORE decodes bytes, and the refusal of fewer than
four of them is in no rule) reads one little-endian 32-bit word, as R71 and R95 lay it out, and leaves the rest; so it
gives back every encoded command. -/
def Obligations.BytesDecodeAsLittleEndianWords : Prop :=
  (∀ (w : Word) (rest : List Byte), decode (bytesOfWord w ++ rest) = (decodeWord w).map (·, rest)) ∧
  (∀ (i : Instr) (rest : List Byte), decode (encode i ++ rest) = some (i, rest)) ∧
  (∀ bytes : List Byte, bytes.length < 4 → decode bytes = none)

/-! ### Arithmetic -/

/-- R18, R19: on finite operands each of `+ - * /` is the exact result rounded once to binary64, to nearest, ties to
even (a divisor of 0 apart). Every operation on a NaN operand, the square root among them, gives a NaN. A comparison of
finite values is that of their numbers; one with a NaN operand is false. The other clauses are the model's reading
(log 15, PRESUMED: IEEE 754): that a result beyond the largest finite value by half a unit in its last place or more is
an infinity, what the operations give on infinities and on a divisor of 0, the sign of a zero result, and where the
infinities stand in the order. -/
def Obligations.ArithmeticAndComparisonsFollowTheirRules : Prop :=
  ∀ a b : F64,
    (Fp.isFinite a = true → Fp.isFinite b = true →
      Fp.RoundsTo (Fp.toRat a + Fp.toRat b) (Fp.add a b) ∧
      Fp.RoundsTo (Fp.toRat a - Fp.toRat b) (Fp.sub a b) ∧
      Fp.RoundsTo (Fp.toRat a * Fp.toRat b) (Fp.mul a b) ∧
      (Fp.toRat b ≠ 0 → Fp.RoundsTo (Fp.toRat a / Fp.toRat b) (Fp.div a b))) ∧
    (Fp.isNaN a = true ∨ Fp.isNaN b = true →
      Fp.isNaN (Fp.add a b) = true ∧ Fp.isNaN (Fp.sub a b) = true ∧ Fp.isNaN (Fp.mul a b) = true ∧
      Fp.isNaN (Fp.div a b) = true) ∧
    (Fp.isNaN a = true → Fp.isNaN (Fp.sqrt a) = true) ∧
    (Fp.isFinite a = true → Fp.isFinite b = true →
      (Fp.lt a b = true ↔ Fp.toRat a < Fp.toRat b) ∧ (Fp.le a b = true ↔ Fp.toRat a ≤ Fp.toRat b) ∧
      (Fp.eq a b = true ↔ Fp.toRat a = Fp.toRat b)) ∧
    (Fp.isNaN a = true ∨ Fp.isNaN b = true →
      Fp.lt a b = false ∧ Fp.le a b = false ∧ Fp.eq a b = false) ∧
    (Fp.isFinite a = true → ∀ s u, Fp.InfinityRules a s u) ∧
    (Fp.isFinite a = true → Fp.isFinite b = true → Fp.ZeroRules a b) ∧
    (Fp.isNaN a = false → ∀ s, Fp.InfinityOrder a s)

/-- R20: the square root of a positive finite value is finite, and no value is nearer to the exact root: `c` is
nearer to it than `r` exactly when the root lies beyond their midpoint on `c`'s side. Of a zero it is that zero, of the
positive infinity that infinity, of anything else below zero a NaN (log 15, PRESUMED: IEEE 754). -/
def Obligations.SquareRootIsCorrectlyRounded : Prop :=
  (∀ a : F64, (Fp.isFinite a = true → Fp.toRat a = 0 → Fp.sqrt a = a) ∧
    (Fp.lt a 0#64 = true → Fp.isNaN (Fp.sqrt a) = true)) ∧
  Fp.sqrt (Fp.inf false) = Fp.inf false ∧
  ∀ a c : F64, Fp.isFinite a = true → 0 < Fp.toRat a → Fp.isFinite c = true → 0 ≤ Fp.toRat c →
    Fp.isFinite (Fp.sqrt a) = true ∧ 0 < Fp.toRat (Fp.sqrt a) ∧
    (Fp.toRat (Fp.sqrt a) < Fp.toRat c → Fp.toRat a ≤ ((Fp.toRat (Fp.sqrt a) + Fp.toRat c) / 2) ^ 2) ∧
    (Fp.toRat c < Fp.toRat (Fp.sqrt a) → ((Fp.toRat (Fp.sqrt a) + Fp.toRat c) / 2) ^ 2 ≤ Fp.toRat a)

/-- R20: `widen32` of a finite binary32 value and `f64` of an integer below 2^53 are exact; a NaN stays a NaN, an
infinity and a zero keep their sign; `ceil`, `floor` and `trunc` of a finite value are the integers the rule names. -/
def Obligations.ConversionsAreExact : Prop :=
  (∀ x : F32, (∀ n m e, Fp.unpack32 x = .fin n m e →
      Fp.isFinite (Fp.widen32 x) = true ∧ Fp.toRat (Fp.widen32 x) = Fp.toRat32 x) ∧
    (Fp.unpack32 x = .nan → Fp.isNaN (Fp.widen32 x) = true) ∧
    (∀ n, Fp.unpack32 x = .inf n → Fp.widen32 x = Fp.inf n)) ∧
  (Fp.widen32 0x00000000#32 = 0x0000000000000000#64 ∧ Fp.widen32 0x80000000#32 = 0x8000000000000000#64) ∧
  (∀ n : Nat, n < 2 ^ 53 → Fp.isFinite (Fp.ofNat n) = true ∧ Fp.toRat (Fp.ofNat n) = n) ∧
  (∀ a : F64, Fp.isFinite a = true →
    Fp.ceil a = ⌈Fp.toRat a⌉ ∧ Fp.floor a = ⌊Fp.toRat a⌋ ∧
    Fp.trunc a = (if Fp.toRat a < 0 then ⌈Fp.toRat a⌉ else ⌊Fp.toRat a⌋))

/-- R21: the properties the parameter functions have. SIN is odd bit for bit and within [-1, 1] on finite values;
POW(+0, 0.4) is +0 and POW(x, 0.4) finite and positive for a finite x > 0; ATAN2 of operands not both zero and
neither a NaN is within [-PI64, PI64], and a NaN operand gives a NaN. -/
def Obligations.ElementaryFunctionsHaveTheirProperties : Prop :=
  (∀ x : F64, Fp.isFinite x = true →
    SIN (Fp.neg x) = Fp.neg (SIN x) ∧ Fp.le Fp.minusOne (SIN x) = true ∧ Fp.le (SIN x) Fp.one = true) ∧
  POW 0#64 Fp.c0_4 = 0#64 ∧
  (∀ x : F64, Fp.isFinite x = true → Fp.lt 0#64 x = true →
    Fp.isFinite (POW x Fp.c0_4) = true ∧ Fp.lt 0#64 (POW x Fp.c0_4) = true) ∧
  (∀ y x : F64, Fp.isNaN y = false → Fp.isNaN x = false → ¬ (Fp.eq y 0#64 = true ∧ Fp.eq x 0#64 = true) →
    Fp.le Fp.minusPi64 (ATAN2 y x) = true ∧ Fp.le (ATAN2 y x) Fp.pi64 = true) ∧
  (∀ y x : F64, Fp.isNaN y = true ∨ Fp.isNaN x = true → Fp.isNaN (ATAN2 y x) = true)

/-! ### The register map and the bus -/

/-- R27, R72: what a read of each register word returns, and each 64-bit register as its HI word joined to its
LO word, at the offsets of the map; CMD reads 0. -/
def Obligations.RegisterMapReadsItsRegisters : Prop :=
  ∀ s : State,
    (s.memRead 0x000 = 0x464D3257#32 ∧ s.memRead 0x004 = 0x00000007#32 ∧
      s.memRead 0x008 = BitVec.ofNat 32 s.params.lMax ∧ s.memRead 0x00C = BitVec.ofNat 32 s.params.fifoDepth ∧
      s.memRead 0x010 = 0#32 ∧ s.memRead 0x01C = BitVec.ofNat 32 s.fifo.length) ∧
    (s.memRead 0x014 = s.statusWord ∧ s.memRead 0x018 = s.errCode.word ∧
      s.memRead 0x048 = s.cfg.decim ∧ s.memRead 0x04C = s.cfg.targetRate ∧
      s.memRead 0x050 = s.latched.filterLen ∧ s.memRead 0x054 = s.latched.resampleFactor ∧
      s.memRead 0x060 = s.operands.inI ∧ s.memRead 0x064 = s.operands.inQ ∧
      s.memRead 0x098 = s.results.audioLast ∧ s.memRead 0x09C = s.latched.decimActive) ∧
    (s.memRead 0x024 ++ s.memRead 0x020 = s.cfg.cutoff ∧ s.memRead 0x02C ++ s.memRead 0x028 = s.cfg.twidth ∧
      s.memRead 0x034 ++ s.memRead 0x030 = s.cfg.ripple ∧ s.memRead 0x03C ++ s.memRead 0x038 = s.cfg.gain ∧
      s.memRead 0x044 ++ s.memRead 0x040 = s.cfg.fs ∧ s.memRead 0x05C ++ s.memRead 0x058 = s.latched.beta ∧
      s.memRead 0x06C ++ s.memRead 0x068 = s.operands.dinI ∧
      s.memRead 0x074 ++ s.memRead 0x070 = s.operands.dinQ ∧
      s.memRead 0x07C ++ s.memRead 0x078 = s.operands.scalarIn) ∧
    (s.memRead 0x084 ++ s.memRead 0x080 = s.results.firOutI ∧
      s.memRead 0x08C ++ s.memRead 0x088 = s.results.firOutQ ∧
      s.memRead 0x094 ++ s.memRead 0x090 = s.results.angle ∧
      s.memRead 0x0A4 ++ s.memRead 0x0A0 = s.counters.nIn ∧
      s.memRead 0x0AC ++ s.memRead 0x0A8 = s.counters.nFirOut ∧
      s.memRead 0x0B4 ++ s.memRead 0x0B0 = s.counters.nDemod ∧
      s.memRead 0x0BC ++ s.memRead 0x0B8 = s.counters.nRsIn ∧
      s.memRead 0x0C4 ++ s.memRead 0x0C0 = s.counters.nAudio)

/-- R28, R29, R30, R31: ID, VERSION, LMAX and FIFO_DEPTH read their constants at all times, and writes to them are
ignored. -/
def Obligations.IdentityRegistersAreConstant : Prop :=
  ∀ (s : State) (v : Word),
    s.memRead 0x000 = 0x464D3257#32 ∧ s.memRead 0x004 = 0x00000007#32 ∧
    s.memRead 0x008 = BitVec.ofNat 32 s.params.lMax ∧ s.memRead 0x00C = BitVec.ofNat 32 s.params.fifoDepth ∧
    s.memWrite 0x000 v = s ∧ s.memWrite 0x004 v = s ∧ s.memWrite 0x008 v = s ∧ s.memWrite 0x00C v = s

/-- R33, R38, R40: the bits of STATUS. FIFO_FULL reads 1 exactly when the FIFO holds its depth of entries, and 0
after reset; the reserved bits read 0. -/
def Obligations.StatusBitsReadTheirFields : Prop :=
  ∀ s : State,
    (s.memRead 0x014).getLsbD 0 = s.status.busy ∧ (s.memRead 0x014).getLsbD 1 = s.status.designed ∧
    (s.memRead 0x014).getLsbD 2 = s.status.firValid ∧ (s.memRead 0x014).getLsbD 3 = s.status.audioValid ∧
    ((s.memRead 0x014).getLsbD 4 = true ↔ s.fifo.length = s.params.fifoDepth) ∧
    (s.memRead 0x014).getLsbD 8 = s.status.err ∧ (s.memRead 0x014).getLsbD 9 = s.status.nonfinite ∧
    (State.reset.memRead 0x014).getLsbD 4 = false ∧
    ∀ b : Nat, (5 ≤ b ∧ b ≤ 7) ∨ 10 ≤ b → (s.memRead 0x014).getLsbD b = false

/-- R42: FIFO_LEVEL reads the number of samples in the FIFO, at most the depth, and 0 after reset; writes are
ignored. -/
def Obligations.FifoLevelCountsTheFifo : Prop :=
  ∀ (s : State) (v : Word), s.Inv →
    (s.memRead 0x01C).toNat = s.fifo.length ∧ (s.memRead 0x01C).toNat ≤ s.params.fifoDepth ∧
    s.memWrite 0x01C v = s ∧ State.reset.memRead 0x01C = 0#32

/-- R61: the coefficient window reads COEF below FILTER_LEN and 0 from there on, and ignores writes. -/
def Obligations.CoefficientWindowReadsTheTaps : Prop :=
  ∀ (s : State) (i : Nat) (v : Word), s.coef.length = s.params.lMax → ∀ h : i < s.coef.length,
    s.memRead (0x1000 + 8 * i) =
      (if i < s.latched.filterLen.toNat then (s.coef[i]).extractLsb' 0 32 else 0#32) ∧
    s.memRead (0x1004 + 8 * i) =
      (if i < s.latched.filterLen.toNat then (s.coef[i]).extractLsb' 32 32 else 0#32) ∧
    s.memWrite (0x1000 + 8 * i) v = s ∧ s.memWrite (0x1004 + 8 * i) v = s

/-- R78, R79: unmapped offsets read 0; writes to them, to RO registers and to the coefficient window change nothing
whatever BUSY is; CMD reads 0. -/
def Obligations.UnmappedAndReadOnlyOffsetsIgnoreWrites : Prop :=
  ∀ (s : State) (off : Nat) (v : Word), off % 4 = 0 → off ≤ 0xFFFF →
    ((0x0C8 ≤ off ∧ off ≤ 0x0FFC) ∨ 0x1000 + 8 * s.params.lMax ≤ off → s.memRead off = 0#32) ∧
    s.memRead 0x010 = 0#32 ∧
    (off ∉ writableOffsets → s.memWrite off v = s)

/-- R80: a write to an RW, WO or W1C register. While BUSY it only reports WRITE_WHILE_BUSY; else a write to CMD
makes the command pending, a write to STATUS clears what its bits 8 and 9 say (R39), and any other stores the word,
which then reads back, every other offset reading as before and nothing but the host's registers changing. A write
anywhere else is ignored whatever BUSY is. -/
def Obligations.WritesFollowTheBusyRule : Prop :=
  ∀ (s : State) (off : Nat) (v : Word),
    (off ∉ writableOffsets → s.memWrite off v = s) ∧
    (off ∈ writableOffsets → s.status.busy = true → s.memWrite off v =
      { s with
        errCode := if s.status.err then s.errCode else .writeWhileBusy
        status := { s.status with err := true } }) ∧
    (s.status.busy = false → off = 0x010 → s.memWrite off v =
      { s with pending := v, status := { s.status with busy := true } }) ∧
    (s.status.busy = false → off = 0x014 → s.memWrite off v =
      { s with
        errCode := if v.getLsbD 8 then .noError else s.errCode
        status := { s.status with
          err := if v.getLsbD 8 then false else s.status.err
          nonfinite := if v.getLsbD 9 then false else s.status.nonfinite } }) ∧
    (off ∈ writableOffsets → s.status.busy = false → off ≠ 0x010 → off ≠ 0x014 →
      (s.memWrite off v).memRead off = v ∧
      (∀ other : Nat, other % 4 = 0 → other ≠ off → (s.memWrite off v).memRead other = s.memRead other) ∧
      (s.memWrite off v).withHostRegisters s = s)

/-- R72, R174: with BUSY = 0 the two halves of a 64-bit RW register can be written in either order, and the
register then holds HI joined to LO. Stated for SIN, DIN_I and the five configuration registers at their offsets. -/
def Obligations.HalvesCanBeWrittenInEitherOrder : Prop :=
  ∀ (s : State) (lo hi : Word), s.status.busy = false →
    ∀ off ∈ [0x020, 0x028, 0x030, 0x038, 0x040, 0x068, 0x070, 0x078],
      (s.memWrite off lo).memWrite (off + 4) hi = (s.memWrite (off + 4) hi).memWrite off lo ∧
      ((s.memWrite off lo).memWrite (off + 4) hi).memRead off = lo ∧
      ((s.memWrite off lo).memWrite (off + 4) hi).memRead (off + 4) = hi

/-- R70, R75, R76, R77: a host access that is a 32-bit access at a multiple of 4 in the window is one step, a read
changing nothing but what the host has seen; any other access to the window is refused. -/
def Obligations.AlignedWordAccessesAreTheOnlyOnes : Prop :=
  ∀ (s : State) (w : Width) (off : Nat) (v : Word) (rest : List Turn), off ≤ 0xFFFF →
    (s.agenda = .hostRead w (s.params.base + off) :: rest →
      step s = if w = .word ∧ off % 4 = 0
        then .next { s.turnTaken with hostReads := s.hostReads ++ [s.memRead off] }
        else .refused .notAlignedWord) ∧
    (s.agenda = .hostWrite w (s.params.base + off) v :: rest →
      step s = if w = .word ∧ off % 4 = 0 then .next (s.turnTaken.memWrite off v)
        else .refused .notAlignedWord)

/-! ### Steps of the agents -/

/-- R138: with a command pending, the core engine's turn is that command's meaning (the agenda is log 1's). -/
def Obligations.CoreTurnRunsThePendingCommand : Prop :=
  ∀ (s : State) (i : Instr), s.CoreMoves → s.status.busy = true → decodeWord s.pending = some i →
    step s = exec i s.turnTaken

/-- R26, R138: the placed command is the one the next step runs (log 13). -/
def Obligations.PlacedCommandRunsNext : Prop :=
  ∀ (s : State) (i : Instr),
    step (s.withFetchWord 32 (encodeWord i).toNat) =
      exec i { s with pending := encodeWord i, status := { s.status with busy := true } }

/-- R93, R94, R150: a word that is no command raises ILLEGAL_CMD and changes nothing but ERR, ERR_CODE and BUSY. -/
def Obligations.IllegalWordRaisesIllegalCmd : Prop :=
  ∀ s : State, s.CoreMoves → s.status.busy = true →
    s.pending.extractLsb' 8 24 ≠ 0#24 ∨ 7 ≤ (s.pending.extractLsb' 0 8).toNat →
    step s = .next { s.turnTaken with
      errCode := if s.status.err then s.errCode else .illegalCmd
      status := { s.status with err := true, busy := false } }

/-- R138, R169: with no command pending the core engine waits (its turn is a step that changes nothing, log 11). -/
def Obligations.IdleEngineWaits : Prop :=
  ∀ s : State, s.CoreMoves → s.status.busy = false → step s = .next s.turnTaken

/-- R133, R138: a command that would append to a full FIFO has no effect at all, BUSY staying 1 (a held engine's turn
is a step that changes nothing, log 11); one turn of the sink lifts the hold. -/
def Obligations.FullFifoHoldsTheCommand : Prop :=
  ∀ (s : State) (i : Instr), s.Inv → s.HeldBy i →
    (s.CoreMoves → s.status.busy = true → decodeWord s.pending = some i → step s = .next s.turnTaken) ∧
    (∀ rest, s.agenda = .sink :: rest → ∃ t, step s = .next t ∧ ¬ t.HeldBy i)

/-- R134: a turn of the sink takes the oldest sample and receives it; with the FIFO empty it changes nothing
(log 17). -/
def Obligations.SinkTakesTheOldestSample : Prop :=
  ∀ (s : State) (rest : List Turn), s.agenda = .sink :: rest →
    (∀ q more, s.fifo = q :: more →
      step s = .next { s.turnTaken with fifo := more, audioOut := s.audioOut ++ [q] }) ∧
    (s.fifo = [] → step s = .next s.turnTaken)

/-- R165, R166: reset, between any two steps, leaves every register word at its reset value, the memories at their
sizes, WR and PREV at zero, the FIFO empty and no command pending; the sink receives nothing by it. -/
def Obligations.ResetLeavesTheResetValues : Prop :=
  ∀ (s : State) (rest : List Turn), s.params.wf = true → s.agenda = .reset :: rest →
    ∃ t, step s = .next t ∧
      (t.cfg.cutoff = 0x40F1170000000000#64 ∧ t.cfg.twidth = 0x40B3880000000000#64 ∧
        t.cfg.ripple = 0x404E000000000000#64 ∧ t.cfg.gain = 0x4000000000000000#64 ∧
        t.cfg.fs = 0x41424F8000000000#64 ∧ t.cfg.decim = 5#32 ∧ t.cfg.targetRate = 48000#32) ∧
      (t.operands.inI = 0#32 ∧ t.operands.inQ = 0#32 ∧ t.operands.dinI = 0#64 ∧ t.operands.dinQ = 0#64 ∧
        t.operands.scalarIn = 0#64) ∧
      (t.memRead 0x014 = 0x00000000#32 ∧ t.memRead 0x018 = 0#32 ∧ t.memRead 0x01C = 0#32) ∧
      (t.latched.filterLen = 0#32 ∧ t.latched.resampleFactor = 0#32 ∧ t.latched.decimActive = 0#32 ∧
        t.latched.beta = 0#64) ∧
      (t.results.firOutI = 0#64 ∧ t.results.firOutQ = 0#64 ∧ t.results.angle = 0#64 ∧
        t.results.audioLast = 0#32) ∧
      (t.counters.nIn = 0#64 ∧ t.counters.nFirOut = 0#64 ∧ t.counters.nDemod = 0#64 ∧
        t.counters.nRsIn = 0#64 ∧ t.counters.nAudio = 0#64) ∧
      (t.coef.length = t.params.lMax ∧ t.ring.length = t.params.lMax ∧ t.wr = 0 ∧ t.prev = (0#64, 0#64) ∧
        t.fifo = [] ∧ t.status.busy = false) ∧
      (t.params = s.params ∧ t.audioOut = s.audioOut ∧ t.hostReads = s.hostReads ∧ t.agenda = rest)

/-- R155, R166: the state after reset meets the invariant, no output has been produced, and the output counter
reads 0. -/
def Obligations.ResetMeetsTheInvariant : Prop :=
  State.reset.Inv ∧ State.reset.CountsAgree ∧ State.reset.counters.nFirOut = 0#64

/-! ### Errors -/

/-- R147: the number ERR_CODE shows for each error. -/
def Obligations.ErrorCodesHaveTheirNumbers : Prop :=
  ErrCode.word .noError = 0#32 ∧ ErrCode.word .cfgNonfinite = 1#32 ∧ ErrCode.word .cfgNonpositive = 2#32 ∧
  ErrCode.word .cfgDecimZero = 3#32 ∧ ErrCode.word .cfgTargetZero = 4#32 ∧ ErrCode.word .lenNonfinite = 5#32 ∧
  ErrCode.word .lenNonpositive = 6#32 ∧ ErrCode.word .lenExceedsCapacity = 7#32 ∧
  ErrCode.word .besselOverflow = 8#32 ∧ ErrCode.word .coefNonfinite = 9#32 ∧
  ErrCode.word .ratioNotInteger = 10#32 ∧ ErrCode.word .ratioRange = 11#32 ∧ ErrCode.word .illegalCmd = 16#32 ∧
  ErrCode.word .notDesigned = 17#32 ∧ ErrCode.word .writeWhileBusy = 18#32

/-- R39, R152, R153: the first error wins. No command clears ERR or NONFINITE, and while ERR is 1 no command
changes ERR_CODE; with ERR 0, ERR_CODE changes only together with ERR. -/
def Obligations.FirstErrorWins : Prop :=
  ∀ (i : Instr) (s t : State), exec i s = .next t →
    (s.status.err = true → t.status.err = true ∧ t.errCode = s.errCode) ∧
    (s.status.nonfinite = true → t.status.nonfinite = true) ∧
    (t.status.err = false → t.errCode = s.errCode)

/-- R117, R132, R141, R150: with DESIGNED = 0, FIR_STEP, RESAMPLE_STEP and PUSH_IQ raise NOT_DESIGNED and change
nothing but ERR, ERR_CODE and BUSY. -/
def Obligations.StreamCommandsNeedADesign : Prop :=
  ∀ (s : State) (i : Instr), i = .firStep ∨ i = .resampleStep ∨ i = .pushIq → s.status.designed = false →
    exec i s = .next { s with
      errCode := if s.status.err then s.errCode else .notDesigned
      status := { s.status with err := true, busy := false } }

/-! ### Control commands -/

/-- R139: NOP completes with no effect; its word is 0x00000000. -/
def Obligations.NopChangesOnlyBusy : Prop :=
  decodeWord 0x00000000#32 = some .nop ∧
  ∀ s : State, exec .nop s = .next { s with status := { s.status with busy := false } }

/-- R140, R63: START completes in every state: it restarts the stream, RING holds some `L_MAX` entries (a draw by
R63, log 14), and nothing else changes but the model's own count of draws; its word is 0x00000002. -/
def Obligations.StartRestartsTheStream : Prop :=
  decodeWord 0x00000002#32 = some .start ∧
  ∀ s : State, ∃ (ring : List (F32 × F32)) (n : Nat), ring.length = s.params.lMax ∧
    exec .start s = .next { s with
      ring := ring
      wr := 0
      prev := (0#64, 0#64)
      counters := { nIn := 0#64, nFirOut := 0#64, nDemod := 0#64, nRsIn := 0#64, nAudio := 0#64 }
      status := { s.status with firValid := false, audioValid := false, busy := false }
      draws := n }

/-! ### DESIGN -/

/-- R108, R109: DESIGN completes in every state: with the writes of `commit_success` when its computation succeeds
(RING then holds some `L_MAX` entries, a draw by R63, log 14), with those of `commit_failure` and the report when it
raises; nothing else changes but the model's own count of draws. -/
def Obligations.DesignCommitsOrFails : Prop :=
  ∀ s : State,
    (∀ d, designOf s.params.lMax s.cfg = .ok d →
      d.taps.length = d.len ∧ ∃ (ring : List (F32 × F32)) (n : Nat), ring.length = s.params.lMax ∧
      exec .design s = .next { s with
        coef := d.taps ++ s.coef.drop d.len
        latched :=
          { filterLen := BitVec.ofNat 32 d.len, resampleFactor := BitVec.ofNat 32 d.factor,
            decimActive := s.cfg.decim, beta := d.beta }
        ring := ring
        wr := 0
        prev := (0#64, 0#64)
        counters := { nIn := 0#64, nFirOut := 0#64, nDemod := 0#64, nRsIn := 0#64, nAudio := 0#64 }
        status :=
          { s.status with designed := true, firValid := false, audioValid := false, busy := false }
        draws := n }) ∧
    (∀ c, designOf s.params.lMax s.cfg = .error c →
      exec .design s = .next { s with
        latched := { filterLen := 0#32, resampleFactor := 0#32, decimActive := 0#32, beta := 0#64 }
        errCode := if s.status.err then s.errCode else c
        status := { s.status with designed := false, err := true, busy := false } })

/-- R99, R106, R151: DESIGN reports the first raise its pseudocode reaches: the fields, the length, the ratio,
I0(beta), the taps, in that order; and it succeeds when none raises. Of the taps the first that raises decides, in
ascending order: with its window's error, or with COEF_NONFINITE when its value is a NaN or an infinity; when every
tap fits, the taps are their values. -/
def Obligations.DesignRaisesInTheOrderOfItsPseudocode : Prop :=
  (∀ (fc fs g beta i0b : F64) (len : Nat), len ≤ 7679 →
    ((∀ n, n < len → TapFits fc fs g beta i0b len n) →
      ∃ h, coefficients fc fs g beta i0b len = .ok h ∧ h.length = len ∧
        ∀ n v, n < len → windowOfTap beta i0b len n = .ok v → h[n]? = some (valueOfTap fc fs g len n v)) ∧
    (∀ m e, m < len → (∀ n, n < m → TapFits fc fs g beta i0b len n) →
      windowOfTap beta i0b len m = .error e → coefficients fc fs g beta i0b len = .error e) ∧
    (∀ m v, m < len → (∀ n, n < m → TapFits fc fs g beta i0b len n) → windowOfTap beta i0b len m = .ok v →
      Fp.isFinite (valueOfTap fc fs g len m v) = false →
      coefficients fc fs g beta i0b len = .error .coefNonfinite)) ∧
  ∀ (lMax : Nat) (c : ConfigRegs) (e : ErrCode) (len factor : Nat) (i0b : F64) (h : List F64),
    (checkFields c = .error e → designOf lMax c = .error e) ∧
    (checkFields c = .ok () → filterLength lMax c.ripple c.twidth c.fs = .error e →
      designOf lMax c = .error e) ∧
    (checkFields c = .ok () → filterLength lMax c.ripple c.twidth c.fs = .ok len →
      resampleFactorOf c.fs c.decim c.targetRate = .error e → designOf lMax c = .error e) ∧
    (checkFields c = .ok () → filterLength lMax c.ripple c.twidth c.fs = .ok len →
      resampleFactorOf c.fs c.decim c.targetRate = .ok factor →
      besselI0 (kaiserBeta c.ripple) = .error e → designOf lMax c = .error e) ∧
    (checkFields c = .ok () → filterLength lMax c.ripple c.twidth c.fs = .ok len →
      resampleFactorOf c.fs c.decim c.targetRate = .ok factor →
      besselI0 (kaiserBeta c.ripple) = .ok i0b →
      coefficients c.cutoff c.fs c.gain (kaiserBeta c.ripple) i0b len = .error e →
      designOf lMax c = .error e) ∧
    (checkFields c = .ok () → filterLength lMax c.ripple c.twidth c.fs = .ok len →
      resampleFactorOf c.fs c.decim c.targetRate = .ok factor →
      besselI0 (kaiserBeta c.ripple) = .ok i0b →
      coefficients c.cutoff c.fs c.gain (kaiserBeta c.ripple) i0b len = .ok h →
      designOf lMax c =
        .ok { taps := h, len := len, factor := factor, beta := kaiserBeta c.ripple, decim := c.decim })

/-- R100: the field checks, in their order: any NaN or infinity first, then any field not above 0, then DECIM = 0,
then TARGET_RATE = 0; a finite positive field, a subnormal included, passes. -/
def Obligations.FieldChecksComeInOrder : Prop :=
  ∀ (c : ConfigRegs),
    let fields := [c.cutoff, c.twidth, c.ripple, c.gain, c.fs]
    ((∃ v ∈ fields, Fp.isNaN v = true ∨ v = Fp.inf false ∨ v = Fp.inf true) →
      checkFields c = .error .cfgNonfinite) ∧
    ((∀ v ∈ fields, Fp.isFinite v = true) → (∃ v ∈ fields, ¬ 0 < Fp.toRat v) →
      checkFields c = .error .cfgNonpositive) ∧
    ((∀ v ∈ fields, Fp.isFinite v = true ∧ 0 < Fp.toRat v) → c.decim = 0#32 →
      checkFields c = .error .cfgDecimZero) ∧
    ((∀ v ∈ fields, Fp.isFinite v = true ∧ 0 < Fp.toRat v) → c.decim ≠ 0#32 → c.targetRate = 0#32 →
      checkFields c = .error .cfgTargetZero) ∧
    ((∀ v ∈ fields, Fp.isFinite v = true ∧ 0 < Fp.toRat v) → c.decim ≠ 0#32 → c.targetRate ≠ 0#32 →
      checkFields c = .ok ())

/-- R101: the three branches of the Kaiser beta for a finite positive ripple, exactly +0.0 at 21 dB; and, which the
spec marks as its own inference from R21, the result is finite and not negative. -/
def Obligations.KaiserBetaFollowsItsBranches : Prop :=
  ∀ rdb : F64, Fp.isFinite rdb = true → 0 < Fp.toRat rdb →
    (Fp.toRat rdb < 21 → kaiserBeta rdb = 0#64) ∧
    (Fp.toRat rdb = 21 → kaiserBeta rdb = 0#64) ∧
    (21 ≤ Fp.toRat rdb → Fp.toRat rdb ≤ 50 → kaiserBeta rdb =
      Fp.add (Fp.mul Fp.c0_5842 (POW (Fp.sub rdb Fp.twentyOne) Fp.c0_4))
        (Fp.mul Fp.c0_07886 (Fp.sub rdb Fp.twentyOne))) ∧
    (50 < Fp.toRat rdb → kaiserBeta rdb = Fp.mul Fp.c0_1102 (Fp.sub rdb Fp.c8_7)) ∧
    Fp.isFinite (kaiserBeta rdb) = true ∧ 0 ≤ Fp.toRat (kaiserBeta rdb)

/-- R102: the filter length. With `q` the quotient: LEN_NONFINITE when it is no finite value, LEN_NONPOSITIVE when
`ceil(q) + 1 ≤ 0`, else the least odd number from `ceil(q) + 1` on, or LEN_EXCEEDS_CAPACITY when that is above
`L_MAX`. -/
def Obligations.FilterLengthIsForcedOdd : Prop :=
  ∀ (lMax : Nat) (rdb tw fs q : F64),
    q = Fp.div (Fp.sub rdb Fp.eight)
      (Fp.mul (Fp.mul Fp.c2_285 (Fp.mul Fp.two Fp.pi64)) (Fp.div tw fs)) →
    (Fp.isFinite q = false → filterLength lMax rdb tw fs = .error .lenNonfinite) ∧
    (Fp.isFinite q = true → ⌈Fp.toRat q⌉ + 1 ≤ 0 → filterLength lMax rdb tw fs = .error .lenNonpositive) ∧
    (Fp.isFinite q = true → 0 < ⌈Fp.toRat q⌉ + 1 →
      ∃ len : Nat, len % 2 = 1 ∧ ⌈Fp.toRat q⌉ + 1 ≤ len ∧ (len : Int) ≤ ⌈Fp.toRat q⌉ + 2 ∧
        filterLength lMax rdb tw fs =
          if lMax < len then .error .lenExceedsCapacity else .ok len)

/-- R103: `I0` of a finite `x ≥ 0` is the recurrence. After some number `k` of rounds whose terms neither overflow nor
end the series and whose sums do not overflow, round `k + 1` ends it: with BESSEL_OVERFLOW at an infinite term; else
with the sum so far, the last term not added, when that term is below 1e-10 of the sum; else with BESSEL_OVERFLOW at
an infinite sum. The model's budget is never used up, so `I0` is never the free value that stands for an unfinished
series (log 6); and `I0(+0.0)` is 1.0. -/
def Obligations.BesselSeriesFollowsItsRecurrence : Prop :=
  (∀ x y : F64, Fp.isFinite x = true → 0 ≤ Fp.toRat x → y = Fp.div x Fp.two →
    (∃ r, seriesLoop y seriesBudget Fp.one Fp.one 1 = some r ∧ besselI0 x = r) ∧
    ∃ k, (∀ j, j < k → besselTerm y (j + 1) ≠ Fp.inf false ∧ ¬ besselStops y j ∧
        besselSum y (j + 1) ≠ Fp.inf false) ∧
      ((besselTerm y (k + 1) = Fp.inf false ∧ besselI0 x = .error .besselOverflow) ∨
        (besselTerm y (k + 1) ≠ Fp.inf false ∧ besselStops y k ∧ besselI0 x = .ok (besselSum y k)) ∨
        (besselTerm y (k + 1) ≠ Fp.inf false ∧ ¬ besselStops y k ∧ besselSum y (k + 1) = Fp.inf false ∧
          besselI0 x = .error .besselOverflow))) ∧
  besselI0 0#64 = .ok Fp.one

/-- R107: the resample factor: RATIO_NOT_INTEGER when the quotient is no integer, RATIO_RANGE when it is outside
1..4294967295, else exactly the quotient. -/
def Obligations.ResampleFactorIsTheExactRatio : Prop :=
  ∀ (fs ratio : F64) (d tr : Word), Fp.isFinite fs = true → 0 < Fp.toRat fs → d ≠ 0#32 → tr ≠ 0#32 →
    ratio = Fp.div (Fp.div fs (Fp.ofNat d.toNat)) (Fp.ofNat tr.toNat) →
    ((¬ ∃ n : Int, Fp.toRat ratio = n) → resampleFactorOf fs d tr = .error .ratioNotInteger) ∧
    (∀ n : Int, Fp.toRat ratio = n → n < 1 ∨ 4294967295 < n → resampleFactorOf fs d tr = .error .ratioRange) ∧
    (∀ n : Nat, Fp.toRat ratio = n → 1 ≤ n → n ≤ 4294967295 → resampleFactorOf fs d tr = .ok n)

/-- R110: by the spec's own inference, after a successful DESIGN, FILTER_LEN is odd and between 1 and `L_MAX`, the
centre tap is GAIN bit for bit, and the taps are symmetric: as numbers always, and bit for bit where the tap's angle
is finite. R21 leaves SIN free at an infinity (log 5), so where the angle overflows the two taps are zeros that may
differ in sign, unless SIN happens to be odd there. -/
def Obligations.SuccessfulDesignIsOddSymmetricAndCentred : Prop :=
  ∀ (s : State) (d : DesignResult), s.params.wf = true → s.coef.length = s.params.lMax →
    designOf s.params.lMax s.cfg = .ok d →
    ∃ t, exec .design s = .next t ∧ t.status.designed = true ∧
      t.latched.filterLen.toNat % 2 = 1 ∧ 1 ≤ t.latched.filterLen.toNat ∧
      t.latched.filterLen.toNat ≤ t.params.lMax ∧
      t.coef.getD ((t.latched.filterLen.toNat - 1) / 2) 0#64 = s.cfg.gain ∧
      ∀ i, i < t.latched.filterLen.toNat →
        Fp.eq (t.coef.getD i 0#64) (t.coef.getD (t.latched.filterLen.toNat - 1 - i) 0#64) = true ∧
        (Fp.isFinite (Fp.mul (angularCutoff s.cfg.cutoff s.cfg.fs)
            (Fp.sub (Fp.ofNat i) (tapCentre t.latched.filterLen.toNat))) = true ∨
          SIN (Fp.inf true) = Fp.neg (SIN (Fp.inf false)) →
          t.coef.getD i 0#64 = t.coef.getD (t.latched.filterLen.toNat - 1 - i) 0#64)

/-- R104, R105, R106, R111: what a tap of a successful DESIGN is. With `w = (2 PI64) (fc / fs)`, `alpha = (L - 1) / 2`
and `t = n - alpha`, tap `n` is `(sinc * window) * gain`: the sinc is 1.0 at `t = 0` and `SIN(w t) / (w t)` elsewhere;
the window is 1.0 for a one-tap filter and else `I0(beta SQRT(1 - u u)) / I0(beta)` with `u = t / alpha`. By the
spec's own inference the window is `1.0 / I0(beta)` at the two edges of a filter of three taps or more, and 1.0
everywhere (the window is rectangular) with a ripple below 21 dB. -/
def Obligations.TapsAreSincTimesWindowTimesGain : Prop :=
  ∀ (lMax : Nat) (c : ConfigRegs) (d : DesignResult), lMax ≤ 7679 → designOf lMax c = .ok d →
    let beta := kaiserBeta c.ripple
    let w := Fp.mul (Fp.mul Fp.two Fp.pi64) (Fp.div c.cutoff c.fs)
    let alpha := Fp.div (Fp.ofNat (d.len - 1)) Fp.two
    ∃ i0b, besselI0 beta = .ok i0b ∧ ∀ n, n < d.len →
      let t := Fp.sub (Fp.ofNat n) alpha
      let u := Fp.div t alpha
      ∃ sincT window : F64,
        d.taps[n]? = some (Fp.mul (Fp.mul sincT window) c.gain) ∧
        (Fp.eq t 0#64 = true → sincT = Fp.one) ∧
        (Fp.eq t 0#64 = false → sincT = Fp.div (SIN (Fp.mul w t)) (Fp.mul w t)) ∧
        (d.len = 1 → window = Fp.one) ∧
        (d.len ≠ 1 → ∃ v, besselI0 (Fp.mul beta (Fp.sqrt (Fp.sub Fp.one (Fp.mul u u)))) = .ok v ∧
          window = Fp.div v i0b) ∧
        (3 ≤ d.len → n = 0 ∨ n = d.len - 1 → window = Fp.div Fp.one i0b) ∧
        (Fp.toRat c.ripple < 21 → window = Fp.one)

/-- R113: with a ripple of exactly 8 dB and a transition-width quotient that is finite and not zero, a DESIGN whose
fields and ratio pass gives the one-tap filter whose tap is GAIN. -/
def Obligations.EightDecibelsGivesAPureGain : Prop :=
  ∀ (lMax factor : Nat) (c : ConfigRegs), 1 ≤ lMax → checkFields c = .ok () → c.ripple = Fp.eight →
    Fp.isFinite (Fp.div c.twidth c.fs) = true → Fp.toRat (Fp.div c.twidth c.fs) ≠ 0 →
    resampleFactorOf c.fs c.decim c.targetRate = .ok factor →
    designOf lMax c =
      .ok { taps := [c.gain], len := 1, factor := factor, beta := 0#64, decim := c.decim }

/-! ### FIR_STEP -/

/-- R116: FIR_STEP completes on a designed machine. The sample overwrites the slot at WR, WR and N_IN advance; when
`k ≥ L - 1` and `k mod D == 0` the two accumulators of R116's loop are the output (some NaN for a NaN, R19), else
FIR_VALID is 0; nothing else changes but the model's own count of draws. -/
def Obligations.FirStepFollowsItsRule : Prop :=
  ∀ s : State, s.FilterReady →
    let len := s.latched.filterLen.toNat
    let ring := s.ring.set s.wr (s.operands.inI, s.operands.inQ)
    (s.EmitsFir → ∃ (ai aq : F64) (n : Nat),
      Fp.SameOrNaN ai (accumulated s.coef ring (·.1) s.wr len len) ∧
      Fp.SameOrNaN aq (accumulated s.coef ring (·.2) s.wr len len) ∧
      exec .firStep s = .next { s with
        ring := ring
        wr := (s.wr + 1) % len
        counters := { s.counters with nIn := s.counters.nIn + 1, nFirOut := s.counters.nFirOut + 1 }
        results := { s.results with firOutI := ai, firOutQ := aq }
        status := { s.status with firValid := true, busy := false }
        draws := n }) ∧
    (¬ s.EmitsFir → exec .firStep s = .next { s with
      ring := ring
      wr := (s.wr + 1) % len
      counters := { s.counters with nIn := s.counters.nIn + 1 }
      status := { s.status with firValid := false, busy := false } })

/-- R118: while N_IN does not wrap, the number of outputs produced since START is R118's `count(N_IN)`, whichever
step the machine takes. -/
def Obligations.OutputCountFollowsTheFormula : Prop :=
  ∀ s t : State, s.Inv → s.CountsAgree → s.counters.nIn.toNat + 1 < 2 ^ 64 → step s = .next t → t.CountsAgree

/-- R118, R122: a machine whose outputs agree with its samples has produced none for fewer than `L` samples; with the
reference filter's latches it has produced none for 1740 samples and one for 1745; and while N_IN does not wrap, the
sample with index `k` adds an output exactly when `k ≥ L - 1` and `k` is a multiple of `D`. -/
def Obligations.OutputCountOfTheReferenceFilter : Prop :=
  ∀ s : State, s.status.designed = true → s.CountsAgree →
    (s.counters.nIn.toNat < s.latched.filterLen.toNat → s.counters.nFirOut = 0#64) ∧
    (s.latched.filterLen = 1741#32 → s.latched.decimActive = 5#32 →
      (s.counters.nIn = 1740#64 → s.counters.nFirOut = 0#64) ∧
      (s.counters.nIn = 1745#64 → s.counters.nFirOut = 1#64)) ∧
    (∀ t : State, s.counters.nIn.toNat + 1 < 2 ^ 64 → exec .firStep s = .next t →
      t.counters.nFirOut.toNat = s.counters.nFirOut.toNat +
        (if s.latched.filterLen.toNat ≤ s.counters.nIn.toNat + 1 ∧
            s.counters.nIn.toNat % s.latched.decimActive.toNat = 0 then 1 else 0))

/-- R120: the lanes are independent: two machines that differ only in the quadrature parts of the input and of the
ring produce the same in-phase output, and the other way round. -/
def Obligations.FilterLanesAreIndependent : Prop :=
  ∀ s u t v : State, s.FilterReady → u.FilterReady → u.coef = s.coef → u.latched = s.latched → u.wr = s.wr →
    u.counters = s.counters → u.draws = s.draws → u.results = s.results →
    exec .firStep s = .next t → exec .firStep u = .next v →
    (u.ring.map (·.1) = s.ring.map (·.1) → u.operands.inI = s.operands.inI →
      v.results.firOutI = t.results.firOutI) ∧
    (u.ring.map (·.2) = s.ring.map (·.2) → u.operands.inQ = s.operands.inQ →
      v.results.firOutQ = t.results.firOutQ)

/-- R121: inputs of ±0.0 give outputs of +0.0 in both lanes. The input and the ring slots the dot product reads hold
zeros, but for the slot the input overwrites; that one and those R63 leaves unused may hold anything. -/
def Obligations.ZeroInputGivesZeroOutput : Prop :=
  ∀ s : State, s.FilterReady → s.EmitsFir →
    let zero := fun x : F32 × F32 => (x.1 = 0#32 ∨ x.1 = 0x80000000#32) ∧ (x.2 = 0#32 ∨ x.2 = 0x80000000#32)
    zero (s.operands.inI, s.operands.inQ) →
    (∀ (j : Nat) (x : F32 × F32), j < s.latched.filterLen.toNat → j ≠ s.wr →
      s.ring[j]? = some x → zero x) →
    ∃ t, exec .firStep s = .next t ∧ t.results.firOutI = 0#64 ∧ t.results.firOutQ = 0#64

/-! ### DEMOD_STEP -/

/-- R124: DEMOD_STEP completes in every state. On the first step since START, and on a product zero in both parts,
the angle is some value of (-PI64, PI64]; else it is the four-quadrant arctangent of the product, -PI64 replaced by
PI64 (some NaN for a NaN, R19). PREV takes the sample, N_DEMOD counts it; nothing else changes but the model's own
count of draws. -/
def Obligations.DemodStepFollowsItsRule : Prop :=
  ∀ s : State,
    let ci := s.operands.dinI
    let cq := s.operands.dinQ
    let re := Fp.add (Fp.mul ci s.prev.1) (Fp.mul cq s.prev.2)
    let im := Fp.sub (Fp.mul cq s.prev.1) (Fp.mul ci s.prev.2)
    ∃ (a : F64) (n : Nat),
      exec .demodStep s = .next { s with
        prev := (ci, cq)
        results := { s.results with angle := a }
        counters := { s.counters with nDemod := s.counters.nDemod + 1 }
        status := { s.status with busy := false }
        draws := n } ∧
      ((s.counters.nDemod = 0#64 ∨ (Fp.eq re 0#64 = true ∧ Fp.eq im 0#64 = true)) →
        Fp.lt Fp.minusPi64 a = true ∧ Fp.le a Fp.pi64 = true) ∧
      (s.counters.nDemod ≠ 0#64 → ¬ (Fp.eq re 0#64 = true ∧ Fp.eq im 0#64 = true) →
        Fp.SameOrNaN a (if Fp.eq (ATAN2 im re) Fp.minusPi64 then Fp.pi64 else ATAN2 im re))

/-- R126: by the spec's own inference from R124 and R21, every angle a command writes is a NaN or lies in
(-PI64, PI64]. -/
def Obligations.AnglesLieInTheHalfOpenRange : Prop :=
  ∀ (i : Instr) (s t : State), exec i s = .next t → t.results.angle ≠ s.results.angle →
    Fp.isNaN t.results.angle = true ∨
      (Fp.lt Fp.minusPi64 t.results.angle = true ∧ Fp.le t.results.angle Fp.pi64 = true)

/-! ### RESAMPLE_STEP -/

/-- R130: the quantizer on a value that is no NaN: clipped to [-1, 1], scaled by 32767, truncated toward zero; within
-32767..32767, 32767 from 1.0 on and -32767 up to -1.0. -/
def Obligations.QuantizerClipsScalesAndTruncates : Prop :=
  ∀ (n : Nat) (a : F64), Fp.isNaN a = false →
    (-32767 ≤ (quantize n a).toInt ∧ (quantize n a).toInt ≤ 32767) ∧
    (Fp.le Fp.one a = true → (quantize n a).toInt = 32767) ∧
    (Fp.le a Fp.minusOne = true → (quantize n a).toInt = -32767) ∧
    (Fp.le Fp.minusOne a = true → Fp.le a Fp.one = true →
      (quantize n a).toInt = Fp.trunc (Fp.mul a Fp.c32767))

/-- R131: RESAMPLE_STEP completes on a designed machine it is not held on. The sample with index `m` is quantized
and emitted exactly when `m mod R = 0`, a NaN as some sample with NONFINITE set (R130); every other sample is
consumed and dropped; nothing else changes but the model's own count of draws. -/
def Obligations.ResampleStepFollowsItsRule : Prop :=
  ∀ s : State, s.status.designed = true → s.latched.resampleFactor ≠ 0#32 → ¬ s.HeldBy .resampleStep →
    (s.counters.nRsIn.toNat % s.latched.resampleFactor.toNat = 0 →
      ∃ (q : BitVec 16) (n : Nat),
      (Fp.isNaN s.operands.scalarIn = false → ∀ d, q = quantize d s.operands.scalarIn) ∧
      exec .resampleStep s = .next { s with
        fifo := s.fifo ++ [q]
        results := { s.results with audioLast := q.signExtend 32 }
        counters := { s.counters with nRsIn := s.counters.nRsIn + 1, nAudio := s.counters.nAudio + 1 }
        status := { s.status with
          audioValid := true, busy := false
          nonfinite := if Fp.isNaN s.operands.scalarIn then true else s.status.nonfinite }
        draws := n }) ∧
    (s.counters.nRsIn.toNat % s.latched.resampleFactor.toNat ≠ 0 →
      exec .resampleStep s = .next { s with
        counters := { s.counters with nRsIn := s.counters.nRsIn + 1 }
        status := { s.status with audioValid := false, busy := false } })

/-- R129, R135: the sink receives the samples in emission order, none lost or repeated. What a step emits is
AUDIO_LAST, if N_AUDIO rose in it; over any number of steps without a reset, and while N_AUDIO does not wrap, what the
sink has received followed by what the FIFO holds grows by exactly the emissions of those steps, in their order; and a
step that emits is a turn of the core engine with RESAMPLE_STEP or PUSH_IQ pending. While N_RS_IN does not wrap,
N_AUDIO stays N_RS_IN divided by RESAMPLE_FACTOR, rounded up, whichever step the machine takes; and the sample emitted
as number `k` since START (`k` = N_AUDIO before the step) is the one with index `k * RESAMPLE_FACTOR` (R129). -/
def Obligations.AudioReachesTheSinkInOrder : Prop :=
  (∀ (k : Nat) (s t : State), .reset ∉ s.agenda → s.counters.nAudio.toNat + k < 2 ^ 64 →
    Sys2Proof.core.run k s = .next t →
    t.audioOut ++ t.fifo = s.audioOut ++ s.fifo ++ emissions k s ∧ (emissions k s).length ≤ k) ∧
  (∀ s t : State, step s = .next t → emitted s t ≠ [] →
    s.CoreMoves ∧ s.status.busy = true ∧
      (decodeWord s.pending = some .resampleStep ∨ decodeWord s.pending = some .pushIq)) ∧
  (∀ s t : State, s.EmissionsAgree → step s = .next t →
    (s.counters.nRsIn.toNat + 1 < 2 ^ 64 → t.EmissionsAgree) ∧
    (emitted s t ≠ [] →
      s.counters.nRsIn.toNat = s.counters.nAudio.toNat * s.latched.resampleFactor.toNat))

/-! ### PUSH_IQ -/

/-- R141, R142: PUSH_IQ completes on a designed machine it is not held on, and, by the spec's own inference, leaves
what FIR_STEP followed, if it produced an output, by DEMOD_STEP of FIR_OUT and RESAMPLE_STEP of ANGLE leaves, but for
DIN_I, DIN_Q and SIN, which keep their values; without an output it clears AUDIO_VALID. -/
def Obligations.PushIqIsTheChainOfTheUnits : Prop :=
  ∀ s : State, s.Inv → s.status.designed = true → ¬ s.HeldBy .pushIq →
    ∃ a, exec .firStep s = .next a ∧
      (¬ s.EmitsFir → exec .pushIq s = .next { a with status := { a.status with audioValid := false } }) ∧
      (s.EmitsFir → ∃ b c,
        exec .demodStep { a with
          operands := { a.operands with dinI := a.results.firOutI, dinQ := a.results.firOutQ } } = .next b ∧
        exec .resampleStep { b with operands := { b.operands with scalarIn := b.results.angle } } = .next c ∧
        exec .pushIq s = .next { c with operands := s.operands })

/-! ### The whole machine -/

/-- R92, R138: every command clears BUSY when it completes; only a held one leaves it, and then changes nothing. -/
def Obligations.EveryCommandClearsBusyUnlessHeld : Prop :=
  ∀ (i : Instr) (s t : State), exec i s = .next t → t.status.busy = false ∨ (s.HeldBy i ∧ t = s)

/-- R43, R51, R98, R174: no command writes a configuration or operand register, nor anything of the other agents. -/
def Obligations.CommandsKeepTheHostRegisters : Prop :=
  ∀ (i : Instr) (s t : State), exec i s = .next t →
    t.cfg = s.cfg ∧ t.operands = s.operands ∧ t.params = s.params ∧ t.pending = s.pending ∧
    t.agenda = s.agenda ∧ t.hostReads = s.hostReads ∧ t.audioOut = s.audioOut

/-- R34: BUSY is set only by an accepted write to CMD. -/
def Obligations.OnlyAWriteToCmdSetsBusy : Prop :=
  ∀ s t : State, step s = .next t → s.status.busy = false → t.status.busy = true →
    ∃ v rest, s.agenda = .hostWrite .word (s.params.base + 0x010) v :: rest ∧ t.pending = v

/-- R35, R46 to R49, R62, R98: DESIGNED, the latched registers and COEF change only by a DESIGN command or by reset. -/
def Obligations.OnlyDesignAndResetChangeTheFilter : Prop :=
  ∀ s t : State, step s = .next t →
    (t.status.designed = s.status.designed ∧ t.latched = s.latched ∧ t.coef = s.coef) ∨
    (∃ rest, s.agenda = .reset :: rest) ∨
    (s.CoreMoves ∧ s.status.busy = true ∧ decodeWord s.pending = some .design)

/-- R173: while BUSY = 0 no step but a reset changes a result register, a counter or a latched register. -/
def Obligations.ResultsKeepWhileIdle : Prop :=
  ∀ s t : State, step s = .next t → s.status.busy = false → (∀ rest, s.agenda ≠ .reset :: rest) →
    t.results = s.results ∧ t.counters = s.counters ∧ t.latched = s.latched ∧ t.coef = s.coef

/-- R133, R138: a pending command completes once the sink has had one turn and the engine the next, held or not. -/
def Obligations.PendingCommandCompletesAfterASinkTurn : Prop :=
  ∀ s : State, s.Inv → s.status.busy = true → s.agenda = [.sink] →
    ∃ t, Sys2Proof.core.run 2 s = .next t ∧ t.status.busy = false

/-- R88, R155: every step keeps the invariant. -/
def Obligations.EveryStepKeepsTheInvariant : Prop :=
  ∀ s t : State, s.Inv → step s = .next t → t.Inv

/-- R155: from a state that meets the invariant no step faults, and none is refused but a host access that is no
aligned word of the window: one outside the 64 KiB window, or one in it that is not 32 bits wide at a multiple of 4 (the
two refusals are log 9's). -/
def Obligations.InvariantStatesNeverFault : Prop :=
  ∀ s : State, s.Inv →
    (∃ t, step s = .next t) ∨
    (∃ w addr rest, (s.agenda = .hostRead w addr :: rest ∨ ∃ v, s.agenda = .hostWrite w addr v :: rest) ∧
      ((¬ (s.params.base ≤ addr ∧ addr ≤ s.params.base + 0xFFFF) ∧ step s = .refused .outsideWindow) ∨
        ((s.params.base ≤ addr ∧ addr ≤ s.params.base + 0xFFFF) ∧
          ¬ (w = .word ∧ (addr - s.params.base) % 4 = 0) ∧ step s = .refused .notAlignedWord)))

/-- R63: no command reads a ring entry that no sample has been written to since START. Of two machines that differ in
such entries alone, each command that takes a step on one takes it on the other with the same effect, and they still
differ in such entries alone. For that WR must stand at the number of samples consumed since START while the ring fills
for the first time, which every step keeps while N_IN does not wrap. -/
def Obligations.UnwrittenRingEntriesAreNeverRead : Prop :=
  (∀ (i : Instr) (s u t : State), s.CursorFollows → s.counters.nIn.toNat + 1 < 2 ^ 64 → s.SameButUnwritten u →
    exec i s = .next t → ∃ v, exec i u = .next v ∧ t.SameButUnwritten v) ∧
  (∀ s t : State, s.CursorFollows → s.counters.nIn.toNat + 1 < 2 ^ 64 → step s = .next t → t.CursorFollows)

/-- R182: the sink's count. While N_AUDIO does not wrap, the samples received and waiting stay those received before
the stream and those N_AUDIO counts; a START or a successful DESIGN with the FIFO empty, and a reset, begin the count
anew; so at the end of a run the sink has received as many samples of the stream as N_AUDIO counts. -/
def Obligations.AudioCountFollowsTheSamples : Prop :=
  ∀ (n : Nat) (s : State),
    (∀ t, step s = .next t → (∀ rest, s.agenda ≠ .reset :: rest) → ¬ s.RestartsStream →
      s.counters.nAudio.toNat + 1 < 2 ^ 64 → s.AudioCountAgrees n → t.AudioCountAgrees n) ∧
    (∀ t, step s = .next t → (s.RestartsStream ∧ s.fifo = []) ∨ (∃ rest, s.agenda = .reset :: rest) →
      t.AudioCountAgrees s.audioOut.length) ∧
    (s.RunOver → s.AudioCountAgrees n → s.audioOut.length = n + s.counters.nAudio.toNat)
end

