-- ==== Sys2Proof/Laws/Rounding.lean ====
section
/-! SUPPORT. Rounding: the value of a magnitude code, and what `roundMag` does to an exact number. -/

namespace Sys2Proof.Fp

/-- The number the magnitude code `n` (bits 62:0) stands for; also at the code of infinity, where it is 2^1024. -/
def magVal (n : Nat) : ℚ :=
  if n / 2 ^ 52 = 0 then (n : ℚ) * 2 ^ (-1074 : Int)
  else ((2 ^ 52 + n % 2 ^ 52 : Nat) : ℚ) * 2 ^ (((n / 2 ^ 52 : Nat) : Int) - 1075)

theorem magVal_code (k w : Nat) (hw : w ≤ 2 ^ 53) (hk : k = 0 ∨ 2 ^ 52 ≤ w) :
    magVal (k * 2 ^ 52 + w) = (w : ℚ) * 2 ^ ((k : Int) - 1074) := by
  have h2 : (2 : ℚ) ≠ 0 := by norm_num
  rcases Nat.lt_or_ge w (2 ^ 52) with h | h
  · have hk0 : k = 0 := by omega
    subst hk0
    have : (0 * 2 ^ 52 + w) / 2 ^ 52 = 0 := by omega
    simp only [magVal, this, if_true]
    norm_num
  · rcases Nat.lt_or_ge w (2 ^ 53) with h' | h'
    · have hd : (k * 2 ^ 52 + w) / 2 ^ 52 = k + 1 := by omega
      have hm : 2 ^ 52 + (k * 2 ^ 52 + w) % 2 ^ 52 = w := by omega
      rw [magVal, hd, hm, if_neg (by omega)]
      congr 2
      push_cast; ring
    · have hw' : w = 2 ^ 53 := by omega
      have hd : (k * 2 ^ 52 + w) / 2 ^ 52 = k + 2 := by omega
      have hm : 2 ^ 52 + (k * 2 ^ 52 + w) % 2 ^ 52 = 2 ^ 52 := by omega
      rw [magVal, hd, hm, if_neg (by omega), hw']
      have : (((k + 2 : Nat) : Int) - 1075) = ((k : Int) - 1074) + 1 := by push_cast; ring
      rw [this, zpow_add₀ h2]
      push_cast; ring

theorem magVal_lt_succ (n : Nat) : magVal n < magVal (n + 1) := by
  have h2 : (0 : ℚ) < 2 := by norm_num
  obtain hn | hn := Nat.eq_zero_or_pos (n / 2 ^ 52)
  · have h1 := magVal_code 0 n (by omega) (.inl rfl)
    have h3 := magVal_code 0 (n + 1) (by omega) (.inl rfl)
    simp only [Nat.zero_mul, Nat.zero_add] at h1 h3
    rw [h1, h3]
    exact mul_lt_mul_of_pos_right (by push_cast; linarith) (zpow_pos h2 _)
  · obtain ⟨k, hk⟩ : ∃ k, n / 2 ^ 52 = k + 1 := ⟨n / 2 ^ 52 - 1, by omega⟩
    obtain ⟨w, hw⟩ : ∃ w, n = k * 2 ^ 52 + w := ⟨n - k * 2 ^ 52, by omega⟩
    have hw1 : 2 ^ 52 ≤ w := by omega
    have hw2 : w < 2 ^ 53 := by omega
    rw [hw, show k * 2 ^ 52 + w + 1 = k * 2 ^ 52 + (w + 1) by ring,
      magVal_code k w (by omega) (.inr hw1), magVal_code k (w + 1) (by omega) (.inr (by omega))]
    exact mul_lt_mul_of_pos_right (by push_cast; linarith) (zpow_pos h2 _)

theorem magVal_strictMono : StrictMono magVal := strictMono_nat_of_lt_succ magVal_lt_succ

theorem magVal_zero : magVal 0 = 0 := by simp [magVal]

theorem magVal_nonneg (n : Nat) : 0 ≤ magVal n := by
  rw [← magVal_zero]; exact magVal_strictMono.monotone (Nat.zero_le n)

theorem magVal_infMag : magVal infMag = 2 ^ 1024 := by
  have := magVal_code 2046 (2 ^ 52) (by norm_num) (.inr le_rfl)
  rw [show 2046 * 2 ^ 52 + 2 ^ 52 = infMag by norm_num [infMag]] at this
  rw [this, show ((2046 : Nat) : Int) - 1074 = ((972 : Nat) : Int) by norm_num, zpow_natCast, Nat.cast_pow,
    Nat.cast_ofNat, ← pow_add]

/-- What `roundHalfEven` answers: the floor or the next integer, whichever is nearer, the even one in a tie. -/
theorem roundHalfEven_spec (n d : Nat) :
    (roundHalfEven n d = n / d ∧ 2 * (n % d) ≤ d ∧ (2 * (n % d) = d → n / d % 2 = 0)) ∨
    (roundHalfEven n d = n / d + 1 ∧ d ≤ 2 * (n % d) ∧ (2 * (n % d) = d → (n / d + 1) % 2 = 0)) := by
  unfold roundHalfEven
  dsimp only
  split
  · right; refine ⟨rfl, by omega, by omega⟩
  · left; refine ⟨rfl, by omega, by omega⟩

/-- The floor of `m * 2^e` in units of `2^q`. -/
def floorAt (m : Nat) (e q : Int) : Nat :=
  if q ≤ e then m * 2 ^ (e - q).toNat else m / 2 ^ (q - e).toNat

theorem two_zpow_pos (z : Int) : (0 : ℚ) < 2 ^ z := zpow_pos (by norm_num) z

theorem zpow_shift (e q : Int) (h : q ≤ e) : (2 : ℚ) ^ e = 2 ^ (e - q).toNat * 2 ^ q := by
  rw [← zpow_natCast, ← zpow_add₀ (by norm_num : (2 : ℚ) ≠ 0)]
  congr 1; omega

theorem lastPlace_ge (m : Nat) (e : Int) : -1074 ≤ lastPlace m e := le_max_right _ _

theorem lastPlace_ge' (m : Nat) (e : Int) : e + (Nat.log2 m : Int) - 52 ≤ lastPlace m e := le_max_left _ _

theorem floorAt_lt (m : Nat) (e : Int) : floorAt m e (lastPlace m e) < 2 ^ 53 := by
  have hq := lastPlace_ge' m e
  have hl : m < 2 ^ (Nat.log2 m + 1) := Nat.lt_log2_self
  unfold floorAt
  split
  · rename_i h
    calc m * 2 ^ (e - lastPlace m e).toNat
        < 2 ^ (Nat.log2 m + 1) * 2 ^ (e - lastPlace m e).toNat :=
          Nat.mul_lt_mul_of_pos_right hl (by positivity)
      _ = 2 ^ (Nat.log2 m + 1 + (e - lastPlace m e).toNat) := (pow_add ..).symm
      _ ≤ 2 ^ 53 := Nat.pow_le_pow_right (by norm_num) (by omega)
  · rename_i h
    rw [Nat.div_lt_iff_lt_mul (by positivity), ← pow_add]
    exact hl.trans_le (Nat.pow_le_pow_right (by norm_num) (by omega))

theorem le_floorAt (m : Nat) (e : Int) (hm : m ≠ 0) (hq : lastPlace m e ≠ -1074) :
    2 ^ 52 ≤ floorAt m e (lastPlace m e) := by
  have hq' : lastPlace m e = e + (Nat.log2 m : Int) - 52 := by
    unfold lastPlace at *; omega
  have hl : 2 ^ Nat.log2 m ≤ m := Nat.log2_self_le hm
  unfold floorAt
  split
  · rename_i h
    calc 2 ^ 52 = 2 ^ Nat.log2 m * 2 ^ (e - lastPlace m e).toNat := by
          rw [← pow_add]; congr 1; omega
      _ ≤ _ := Nat.mul_le_mul_right _ hl
  · rename_i h
    rw [Nat.le_div_iff_mul_le (by positivity), ← pow_add]
    exact (Nat.pow_le_pow_right (by norm_num) (by omega)).trans hl

/-- Where the rounding of an exact number `x = m * 2^e` lands: between the codes `f` and `f + 1` of one
binade's grid (`k`), at the nearer one, at the even one in a tie. -/
structure Landing (x : ℚ) (k f w : Nat) : Prop where
  floor_lt : f < 2 ^ 53
  normal : k = 0 ∨ 2 ^ 52 ≤ f
  lower : (f : ℚ) * 2 ^ ((k : Int) - 1074) ≤ x
  upper : x < ((f : ℚ) + 1) * 2 ^ ((k : Int) - 1074)
  near : (w = f ∧ 2 * (x - f * 2 ^ ((k : Int) - 1074)) ≤ 2 ^ ((k : Int) - 1074) ∧
      (2 * (x - f * 2 ^ ((k : Int) - 1074)) = 2 ^ ((k : Int) - 1074) → f % 2 = 0)) ∨
    (w = f + 1 ∧ 2 ^ ((k : Int) - 1074) ≤ 2 * (x - f * 2 ^ ((k : Int) - 1074)) ∧
      (2 * (x - f * 2 ^ ((k : Int) - 1074)) = 2 ^ ((k : Int) - 1074) → (f + 1) % 2 = 0))

/-- `roundMag` in full: the code of the landing point, or that of infinity. -/
theorem roundMag_landing (m : Nat) (e : Int) (hm : m ≠ 0) :
    ∃ k f w : Nat, lastPlace m e = (k : Int) - 1074 ∧ Landing ((m : ℚ) * 2 ^ e) k f w ∧
      roundMag m e = min (k * 2 ^ 52 + w) infMag := by
  obtain ⟨k, hk⟩ : ∃ k : Nat, lastPlace m e = (k : Int) - 1074 :=
    ⟨(lastPlace m e + 1074).toNat, by have := lastPlace_ge m e; omega⟩
  refine ⟨k, floorAt m e (lastPlace m e), scaled m e (lastPlace m e), hk, ⟨floorAt_lt m e, ?_, ?_, ?_, ?_⟩, ?_⟩
  · rcases Nat.eq_zero_or_pos k with h | h
    · exact .inl h
    · exact .inr (le_floorAt m e hm (by omega))
  all_goals rw [hk]
  all_goals try unfold floorAt
  · split
    · rename_i h
      rw [zpow_shift e _ h]; push_cast; apply le_of_eq; ring
    · rename_i h
      rw [zpow_shift ((k : Int) - 1074) e (by omega), ← mul_assoc]
      apply mul_le_mul_of_nonneg_right _ (two_zpow_pos e).le
      exact_mod_cast Nat.div_mul_le_self _ _
  · split
    · rename_i h
      rw [zpow_shift e _ h]; push_cast
      have := two_zpow_pos ((k : Int) - 1074)
      nlinarith
    · rename_i h
      rw [zpow_shift ((k : Int) - 1074) e (by omega), ← mul_assoc]
      apply mul_lt_mul_of_pos_right _ (two_zpow_pos e)
      exact_mod_cast (Nat.lt_mul_of_div_lt (Nat.lt_succ_self _) (by positivity) :
        m < (m / 2 ^ ((k : Int) - 1074 - e).toNat + 1) * 2 ^ ((k : Int) - 1074 - e).toNat)
  · unfold scaled
    split
    · rename_i h
      left
      have : (m : ℚ) * 2 ^ e - ((m * 2 ^ (e - ((k : Int) - 1074)).toNat : Nat) : ℚ) * 2 ^ ((k : Int) - 1074) = 0 := by
        rw [zpow_shift e _ h]; push_cast; ring
      rw [this]
      have hp := two_zpow_pos ((k : Int) - 1074)
      exact ⟨rfl, by linarith, fun h => by linarith⟩
    · rename_i h
      set d := 2 ^ ((k : Int) - 1074 - e).toNat with hd
      have hu : (2 : ℚ) ^ ((k : Int) - 1074) = (d : ℚ) * 2 ^ e := by
        rw [zpow_shift ((k : Int) - 1074) e (by omega), hd]; push_cast; rfl
      have hx : (m : ℚ) * 2 ^ e - ((m / d : Nat) : ℚ) * 2 ^ ((k : Int) - 1074) = ((m % d : Nat) : ℚ) * 2 ^ e := by
        have : (m : ℚ) = (d : ℚ) * ((m / d : Nat) : ℚ) + ((m % d : Nat) : ℚ) := by
          exact_mod_cast (Nat.div_add_mod m d).symm
        rw [hu]; nth_rw 1 [this]; ring
      rw [hx, hu]
      have hp := two_zpow_pos e
      have key (a b : ℚ) : 2 * (a * 2 ^ e) ≤ b * 2 ^ e ↔ 2 * a ≤ b := by
        rw [← mul_assoc]; exact mul_le_mul_iff_left₀ hp
      have key' (a b : ℚ) : b * 2 ^ e ≤ 2 * (a * 2 ^ e) ↔ b ≤ 2 * a := by
        rw [← mul_assoc]; exact mul_le_mul_iff_left₀ hp
      have key'' (a b : ℚ) : 2 * (a * 2 ^ e) = b * 2 ^ e ↔ 2 * a = b := by
        rw [← mul_assoc]; exact mul_left_inj' hp.ne'
      rw [key, key', key'']
      exact_mod_cast roundHalfEven_spec m d
  · rw [roundMag, if_neg hm]
    simp only [hk]
    congr 3
    omega

/-- `r` is the code nearest to `x ≥ 0` among ALL codes (the grid goes on above infinity's), the even one in a
tie: `a` is the code just below `x`. -/
def NearestCode (x : ℚ) (r : Nat) : Prop :=
  ∃ a, magVal a ≤ x ∧ x < magVal (a + 1) ∧
    ((r = a ∧ 2 * x ≤ magVal a + magVal (a + 1) ∧ (2 * x = magVal a + magVal (a + 1) → a % 2 = 0)) ∨
      (r = a + 1 ∧ magVal a + magVal (a + 1) ≤ 2 * x ∧
        (2 * x = magVal a + magVal (a + 1) → (a + 1) % 2 = 0)))

theorem Landing.nearestCode {x : ℚ} {k f w : Nat} (h : Landing x k f w) : NearestCode x (k * 2 ^ 52 + w) := by
  have hf := h.floor_lt
  have h1 := magVal_code k f (by omega) h.normal
  have h2 := magVal_code k (f + 1) (by omega) (h.normal.imp_right (by omega))
  rw [← Nat.add_assoc, Nat.cast_add, Nat.cast_one] at h2
  refine ⟨k * 2 ^ 52 + f, h1 ▸ h.lower, h2 ▸ h.upper, ?_⟩
  rw [h1, h2]
  rcases h.near with ⟨hw, hle, htie⟩ | ⟨hw, hle, htie⟩
  · refine .inl ⟨by omega, by linarith, fun he => ?_⟩
    have := htie (by linarith)
    omega
  · refine .inr ⟨by omega, by linarith, fun he => ?_⟩
    have := htie (by linarith)
    omega

theorem roundMag_nearest (m : Nat) (e : Int) :
    ∃ r, NearestCode ((m : ℚ) * 2 ^ e) r ∧ roundMag m e = min r infMag := by
  rcases Nat.eq_zero_or_pos m with h | h
  · subst h
    refine ⟨0, ⟨0, ?_, ?_, .inl ⟨rfl, ?_, fun _ => rfl⟩⟩, by simp [roundMag]⟩ <;>
      simp only [magVal_zero, Nat.cast_zero, zero_mul, mul_zero, zero_add, le_refl]
    · rw [← magVal_zero]; exact magVal_lt_succ 0
    · exact magVal_nonneg 1
  · obtain ⟨k, f, w, -, hl, hr⟩ := roundMag_landing m e (by omega)
    exact ⟨_, hl.nearestCode, hr⟩

theorem nearestCode_mono {x y : ℚ} {r t : Nat} (hxy : x ≤ y) (hx : NearestCode x r) (hy : NearestCode y t) :
    r ≤ t := by
  obtain ⟨a, ha1, ha2, ha⟩ := hx
  obtain ⟨b, hb1, hb2, hb⟩ := hy
  have hab : a ≤ b := by
    by_contra hlt
    have : magVal (b + 1) ≤ magVal a := magVal_strictMono.monotone (by omega)
    linarith
  rcases Nat.lt_or_ge a b with hlt | hge
  · omega
  · have hab' : a = b := by omega
    subst hab'
    rcases ha with ⟨rfl, -, -⟩ | ⟨rfl, h1, h2⟩ <;> rcases hb with ⟨rfl, h3, h4⟩ | ⟨rfl, -, -⟩
    · omega
    · omega
    · exfalso
      have he : x = y := by linarith
      subst he
      have h5 : 2 * x = magVal t + magVal (t + 1) := by linarith
      have := h2 h5
      have := h4 h5
      omega
    · omega

theorem nearestCode_unique {x : ℚ} {r t : Nat} (hx : NearestCode x r) (hy : NearestCode x t) : r = t :=
  Nat.le_antisymm (nearestCode_mono le_rfl hx hy) (nearestCode_mono le_rfl hy hx)

theorem nearestCode_magVal (n : Nat) : NearestCode (magVal n) n :=
  ⟨n, le_rfl, magVal_lt_succ n, .inl ⟨rfl, by linarith [magVal_lt_succ n], fun h => by
    have := magVal_lt_succ n
    linarith⟩⟩

theorem roundMag_mono {m n : Nat} {e g : Int} (h : (m : ℚ) * 2 ^ e ≤ (n : ℚ) * 2 ^ g) :
    roundMag m e ≤ roundMag n g := by
  obtain ⟨r, hr, hr'⟩ := roundMag_nearest m e
  obtain ⟨t, ht, ht'⟩ := roundMag_nearest n g
  have := nearestCode_mono h hr ht
  omega

/-- A representable number rounds to itself. -/
theorem roundMag_exact {m n : Nat} {e : Int} (hn : n ≤ infMag) (h : (m : ℚ) * 2 ^ e = magVal n) :
    roundMag m e = n := by
  obtain ⟨r, hr, hr'⟩ := roundMag_nearest m e
  rw [h] at hr
  have := nearestCode_unique hr (nearestCode_magVal n)
  omega

theorem roundMag_le_infMag (m : Nat) (e : Int) : roundMag m e ≤ infMag := by
  obtain ⟨r, -, hr⟩ := roundMag_nearest m e
  omega

/-- The nearest code is at least as near as any other; a different one equally near makes it even. -/
theorem NearestCode.closest {x : ℚ} {r : Nat} (h : NearestCode x r) (c : Nat) :
    |magVal r - x| ≤ |magVal c - x| ∧ (|magVal r - x| = |magVal c - x| → magVal c ≠ magVal r → r % 2 = 0) := by
  obtain ⟨a, ha1, ha2, ha⟩ := h
  have hcases : magVal c ≤ magVal a ∨ magVal (a + 1) ≤ magVal c := by
    rcases Nat.lt_or_ge a c with h | h
    · exact .inr (magVal_strictMono.monotone h)
    · exact .inl (magVal_strictMono.monotone h)
  rcases ha with ⟨rfl, h1, h2⟩ | ⟨rfl, h1, h2⟩ <;> rcases hcases with hc | hc
  · rw [abs_of_nonpos (by linarith : magVal r - x ≤ 0), abs_of_nonpos (by linarith : magVal c - x ≤ 0)]
    exact ⟨by linarith, fun he hne => absurd (by linarith) hne⟩
  · rw [abs_of_nonpos (by linarith : magVal r - x ≤ 0), abs_of_nonneg (by linarith : 0 ≤ magVal c - x)]
    exact ⟨by linarith, fun he _ => h2 (by linarith)⟩
  · rw [abs_of_nonneg (by linarith : 0 ≤ magVal (a + 1) - x), abs_of_nonpos (by linarith : magVal c - x ≤ 0)]
    exact ⟨by linarith, fun he _ => h2 (by linarith)⟩
  · rw [abs_of_nonneg (by linarith : 0 ≤ magVal (a + 1) - x), abs_of_nonneg (by linarith : 0 ≤ magVal c - x)]
    exact ⟨by linarith, fun he hne => absurd (by linarith) hne⟩

/-- Rounding the sticky form of a number rounds the number: `x` lies at `m` or strictly between `m` and `m + 1`
in units of `2^(e+1)`, the sticky bit says which, and `m` has 54 bits or more. -/
theorem roundMag_sticky {x : ℚ} {m : Nat} {e : Int} {inexact : Bool} (hm : 2 ^ 54 ≤ m)
    (hlo : (m : ℚ) * 2 ^ (e + 1) ≤ x) (hhi : x < ((m : ℚ) + 1) * 2 ^ (e + 1))
    (hex : inexact = false ↔ x = (m : ℚ) * 2 ^ (e + 1)) :
    ∃ r, NearestCode x r ∧ roundMag (sticky m inexact) e = min r infMag := by
  have hpos : sticky m inexact ≠ 0 := by unfold sticky; omega
  obtain ⟨k, f, w, hk, hl, hr⟩ := roundMag_landing (sticky m inexact) e hpos
  refine ⟨_, ?_, hr⟩
  apply Landing.nearestCode
  have hlog : 54 ≤ Nat.log2 (sticky m inexact) := by
    rw [Nat.le_log2 hpos]; unfold sticky; omega
  have hge := lastPlace_ge' (sticky m inexact) e
  obtain ⟨j, hj⟩ : ∃ j : Nat, (k : Int) - 1074 = (e + 1) + ((j + 1 : Nat) : Int) :=
    ⟨((k : Int) - 1074 - e - 2).toNat, by omega⟩
  set v : ℚ := 2 ^ (e + 1) with hv
  have hvpos : 0 < v := two_zpow_pos _
  have hu : (2 : ℚ) ^ ((k : Int) - 1074) = (2 * 2 ^ j : ℕ) * v := by
    rw [hj, zpow_add₀ (by norm_num : (2 : ℚ) ≠ 0), zpow_natCast, pow_succ, hv]; push_cast; ring
  have he : (2 : ℚ) ^ e = v / 2 := by
    rw [hv, zpow_add₀ (by norm_num : (2 : ℚ) ≠ 0)]; ring
  obtain ⟨hfl, hn, hlower, hupper, hnear⟩ := hl
  rw [hu] at hlower hupper hnear
  rw [he] at hlower hupper hnear
  set V := 2 ^ j with hV
  set s := sticky m inexact with hs
  -- an integer grid point `g` in units of `v` against `x`
  have lt_grid (g : ℕ) : x < (g : ℚ) * v ↔ s < 2 * g := by
    constructor
    · intro h
      have h1 : (m : ℚ) * v < (g : ℚ) * v := lt_of_le_of_lt hlo h
      have h2 : m < g := by exact_mod_cast lt_of_mul_lt_mul_right h1 hvpos.le
      rw [hs, sticky]; split <;> omega
    · intro h
      have h2 : m + 1 ≤ g := by rw [hs, sticky] at h; split at h <;> omega
      refine lt_of_lt_of_le hhi (mul_le_mul_of_nonneg_right ?_ hvpos.le)
      exact_mod_cast h2
  have eq_grid (g : ℕ) : x = (g : ℚ) * v ↔ s = 2 * g := by
    constructor
    · intro h
      have h1 : (m : ℚ) ≤ g := le_of_mul_le_mul_right (h ▸ hlo) hvpos
      have h2 : (g : ℚ) < m + 1 := lt_of_mul_lt_mul_right (h ▸ hhi) hvpos.le
      have h3 : m = g := by
        have a : m ≤ g := by exact_mod_cast h1
        have b : g < m + 1 := by exact_mod_cast h2
        omega
      have h4 : inexact = false := hex.2 (by rw [h, h3])
      rw [hs, sticky, h4, h3]; simp
    · intro h
      have h4 : inexact = false := by
        rw [hs, sticky] at h
        cases inexact
        · rfl
        · simp at h; omega
      have h3 : m = g := by rw [hs, sticky, h4] at h; simp at h; omega
      rw [← h3]; exact hex.1 h4
  have cast_lt (a b : ℕ) : (a : ℚ) * (v / 2) < (b : ℚ) * v ↔ a < 2 * b := by
    rw [show (a : ℚ) * (v / 2) = (a / 2) * v by ring, mul_lt_mul_iff_left₀ hvpos, div_lt_iff₀ (by norm_num)]
    constructor
    · intro h
      have : (a : ℚ) < ((2 * b : ℕ) : ℚ) := by push_cast; linarith
      exact_mod_cast this
    · intro h
      have : (a : ℚ) < ((2 * b : ℕ) : ℚ) := by exact_mod_cast h
      push_cast at this; linarith
  have cast_eq (a b : ℕ) : (a : ℚ) * (v / 2) = (b : ℚ) * v ↔ a = 2 * b := by
    rw [show (a : ℚ) * (v / 2) = (a / 2) * v by ring, mul_left_inj' hvpos.ne', div_eq_iff (by norm_num)]
    constructor
    · intro h
      have : (a : ℚ) = ((2 * b : ℕ) : ℚ) := by push_cast; linarith
      exact_mod_cast this
    · intro h
      have : (a : ℚ) = ((2 * b : ℕ) : ℚ) := by exact_mod_cast h
      push_cast at this; linarith
  have transferLt (g : ℕ) : x < (g : ℚ) * v ↔ (s : ℚ) * (v / 2) < (g : ℚ) * v := by rw [lt_grid, cast_lt]
  have transferEq (g : ℕ) : x = (g : ℚ) * v ↔ (s : ℚ) * (v / 2) = (g : ℚ) * v := by rw [eq_grid, cast_eq]
  have g1 : (f : ℚ) * ((2 * V : ℕ) * v) = ((f * (2 * V) : ℕ) : ℚ) * v := by push_cast; ring
  have g2 : ((f : ℚ) + 1) * ((2 * V : ℕ) * v) = (((f + 1) * (2 * V) : ℕ) : ℚ) * v := by push_cast; ring
  have mid : ((f * (2 * V) + V : ℕ) : ℚ) * v = (f : ℚ) * ((2 * V : ℕ) * v) + (2 * V : ℕ) * v / 2 := by
    push_cast; ring
  have midLe (z : ℚ) : 2 * (z - f * ((2 * V : ℕ) * v)) ≤ (2 * V : ℕ) * v ↔ ¬ ((f * (2 * V) + V : ℕ) : ℚ) * v < z := by
    rw [mid, not_lt]; constructor <;> intro h <;> linarith
  have midGe (z : ℚ) : (2 * V : ℕ) * v ≤ 2 * (z - f * ((2 * V : ℕ) * v)) ↔ ¬ z < ((f * (2 * V) + V : ℕ) : ℚ) * v := by
    rw [mid, not_lt]; constructor <;> intro h <;> linarith
  have midEq (z : ℚ) : 2 * (z - f * ((2 * V : ℕ) * v)) = (2 * V : ℕ) * v ↔ z = ((f * (2 * V) + V : ℕ) : ℚ) * v := by
    rw [mid]; constructor <;> intro h <;> linarith
  have transferGt (g : ℕ) : (g : ℚ) * v < x ↔ (g : ℚ) * v < (s : ℚ) * (v / 2) := by
    constructor <;> intro h <;> by_contra hc
    · rcases lt_or_eq_of_le (not_lt.1 hc) with h1 | h1
      · exact absurd ((transferLt g).2 h1) (by linarith)
      · exact absurd ((transferEq g).2 h1) (by linarith)
    · rcases lt_or_eq_of_le (not_lt.1 hc) with h1 | h1
      · exact absurd ((transferLt g).1 h1) (by linarith)
      · exact absurd ((transferEq g).1 h1) (by linarith)
  refine ⟨hfl, hn, ?_, ?_, ?_⟩
  · rw [hu, g1, ← not_lt, transferLt, not_lt, ← g1]; exact hlower
  · rw [hu, g2, transferLt, ← g2]; exact hupper
  · rw [hu, midLe, midGe, midEq, transferLt, transferGt, transferEq, ← midLe, ← midGe, ← midEq]
    exact hnear

end Sys2Proof.Fp
end

