-- ==== Sys2Proof/Laws/Float64.lean ====
section
/-! SUPPORT. Binary64 patterns: sign and magnitude, the three classes, the exact value, comparisons, and what the
rounded operations answer on finite operands. -/

namespace Sys2Proof.Fp

theorem mag_lt (b : F64) : mag b < 2 ^ 63 := Nat.mod_lt _ (by norm_num)

theorem toNat_eq (b : F64) : b.toNat = (if sign b then 2 ^ 63 else 0) + mag b := by
  have hb : b.toNat < 2 ^ 64 := b.isLt
  simp only [sign, mag, BitVec.msb_eq_decide]
  split <;> rename_i h <;> simp only [decide_eq_true_eq] at h <;> omega

@[simp] theorem mag_pack (neg : Bool) (n : Nat) (h : n < 2 ^ 63) : mag (pack neg n) = n := by
  simp only [mag, pack, BitVec.toNat_ofNat]; split <;> omega

@[simp] theorem sign_pack (neg : Bool) (n : Nat) (h : n < 2 ^ 63) : sign (pack neg n) = neg := by
  simp only [sign, pack, BitVec.msb_eq_decide, BitVec.toNat_ofNat]
  cases neg <;> simp <;> omega

@[simp] theorem pack_sign_mag (b : F64) : pack (sign b) (mag b) = b := by
  apply BitVec.eq_of_toNat_eq
  have := toNat_eq b
  have hb : b.toNat < 2 ^ 64 := b.isLt
  simp only [pack, BitVec.toNat_ofNat]
  omega

/-- A pattern is its sign and its magnitude. -/
theorem ext_sign_mag {a b : F64} (hs : sign a = sign b) (hm : mag a = mag b) : a = b := by
  rw [← pack_sign_mag a, ← pack_sign_mag b, hs, hm]

@[simp] theorem mag_neg (a : F64) : mag (neg a) = mag a := by
  simp only [mag, neg, BitVec.toNat_xor, Nat.xor_mod_two_pow]
  simp

@[simp] theorem sign_neg (a : F64) : sign (neg a) = !sign a := by
  simp only [sign, neg, BitVec.msb_xor]
  cases a.msb <;> rfl

@[simp] theorem neg_neg (a : F64) : neg (neg a) = a := ext_sign_mag (by simp) (by simp)

@[simp] theorem neg_pack (s : Bool) (n : Nat) (h : n < 2 ^ 63) : neg (pack s n) = pack (!s) n :=
  ext_sign_mag (by rw [sign_neg, sign_pack s n h, sign_pack (!s) n h])
    (by rw [mag_neg, mag_pack s n h, mag_pack (!s) n h])

theorem infMag_lt : infMag < 2 ^ 63 := by norm_num [infMag]

@[simp] theorem isFinite_neg (a : F64) : isFinite (neg a) = isFinite a := by simp [isFinite]
@[simp] theorem isNaN_neg (a : F64) : isNaN (neg a) = isNaN a := by simp [isNaN]
@[simp] theorem isInf_neg (a : F64) : isInf (neg a) = isInf a := by simp [isInf]

/-! ### The classes -/

theorem infMag_eq : infMag = 2047 * 2 ^ 52 := rfl

theorem isFinite_iff {a : F64} : isFinite a = true ↔ mag a < infMag := decide_eq_true_iff
theorem isInf_iff {a : F64} : isInf a = true ↔ mag a = infMag := decide_eq_true_iff
theorem isNaN_iff {a : F64} : isNaN a = true ↔ infMag < mag a := decide_eq_true_iff

theorem finite_not_nan {a : F64} (h : isFinite a = true) : isNaN a = false := by
  simp only [isFinite, isNaN, decide_eq_true_eq, decide_eq_false_iff_not] at *; omega

theorem class_cases (a : F64) :
    (isFinite a = true ∧ isInf a = false ∧ isNaN a = false) ∨
    (isFinite a = false ∧ isInf a = true ∧ isNaN a = false ∧ a = inf (sign a)) ∨
    (isFinite a = false ∧ isInf a = false ∧ isNaN a = true) := by
  simp only [isFinite, isInf, isNaN, decide_eq_true_eq, decide_eq_false_iff_not]
  rcases Nat.lt_trichotomy (mag a) infMag with h | h | h
  · exact .inl ⟨h, by omega, by omega⟩
  · refine .inr (.inl ⟨by omega, h, by omega, ?_⟩)
    rw [inf, ← h, pack_sign_mag]
  · exact .inr (.inr ⟨by omega, by omega, h⟩)

/-- What `unpack` answers on a finite pattern. -/
theorem unpack_finite {a : F64} (h : isFinite a = true) :
    ∃ m e, unpack a = .fin (sign a) m e ∧ (m : ℚ) * 2 ^ e = magVal (mag a) ∧ m < 2 ^ 53 ∧
      (m = 0 ↔ mag a = 0) := by
  rw [isFinite_iff, infMag_eq] at h
  unfold unpack magVal
  dsimp only
  rw [if_neg (by omega : ¬ mag a / 2 ^ 52 = 2047)]
  split <;> rename_i h0
  · refine ⟨mag a % 2 ^ 52, -1074, rfl, ?_, by omega, by omega⟩
    rw [show mag a % 2 ^ 52 = mag a by omega]
  · exact ⟨2 ^ 52 + mag a % 2 ^ 52, _, rfl, rfl, by omega, by omega⟩

theorem unpack_inf {a : F64} (h : isInf a = true) : unpack a = .inf (sign a) := by
  rw [isInf_iff, infMag_eq] at h
  unfold unpack
  dsimp only
  rw [if_pos (by omega), if_pos (by omega)]

theorem unpack_nan {a : F64} (h : isNaN a = true) : unpack a = .nan := by
  have hlt := mag_lt a
  rw [isNaN_iff, infMag_eq] at h
  unfold unpack
  dsimp only
  rw [if_pos (by omega), if_neg (by omega)]

/-- The number a sign and a magnitude code stand for. -/
def signedVal (s : Bool) (n : Nat) : ℚ := if s then -magVal n else magVal n

theorem signed_mul (s : Bool) (m : Nat) (x : ℚ) :
    ((signed s m : Int) : ℚ) * x = if s then -((m : ℚ) * x) else (m : ℚ) * x := by
  cases s <;> simp [signed]

theorem toRat_eq {a : F64} (h : isFinite a = true) : toRat a = signedVal (sign a) (mag a) := by
  obtain ⟨m, e, hu, hv, -, -⟩ := unpack_finite h
  rw [toRat, hu, signedVal, ← hv]
  exact signed_mul _ _ _

theorem abs_signedVal (s : Bool) (n : Nat) : |signedVal s n| = magVal n := by
  cases s <;> simp [signedVal, abs_of_nonneg (magVal_nonneg n)]

theorem toRat_neg {a : F64} (h : isFinite a = true) : toRat (neg a) = -toRat a := by
  rw [toRat_eq h, toRat_eq (by simpa using h), sign_neg, mag_neg]
  cases sign a <;> simp [signedVal]

theorem toRat_pack {s : Bool} {n : Nat} (h : n < infMag) : toRat (pack s n) = signedVal s n := by
  have h' := infMag_lt
  rw [toRat_eq (by simp [isFinite, mag_pack s n (by omega), h]), sign_pack s n (by omega), mag_pack s n (by omega)]

theorem unpack_toRat {a : F64} {s : Bool} {m : Nat} {e : Int} (h : unpack a = .fin s m e) :
    isFinite a = true ∧ s = sign a ∧ toRat a = (if s then -1 else 1) * ((m : ℚ) * 2 ^ e) ∧
      (m : ℚ) * 2 ^ e = magVal (mag a) ∧ m < 2 ^ 53 ∧ (m = 0 ↔ mag a = 0) := by
  rcases class_cases a with ⟨hf, -, -⟩ | ⟨-, hi, -⟩ | ⟨-, -, hn⟩
  · obtain ⟨m', e', hu, hv, hlt, hz⟩ := unpack_finite hf
    rw [hu] at h
    injection h with h1 h2 h3
    subst h1 h2 h3
    refine ⟨hf, rfl, ?_, hv, hlt, hz⟩
    rw [toRat_eq hf, hv, signedVal]
    split <;> ring
  · rw [unpack_inf hi] at h; cases h
  · rw [unpack_nan hn] at h; cases h

/-! ### Rounding -/

@[simp] theorem sign_round (s : Bool) (m : Nat) (e : Int) : sign (round s m e) = s :=
  sign_pack _ _ (by have := roundMag_le_infMag m e; have := infMag_lt; omega)

@[simp] theorem mag_round (s : Bool) (m : Nat) (e : Int) : mag (round s m e) = roundMag m e :=
  mag_pack _ _ (by have := roundMag_le_infMag m e; have := infMag_lt; omega)

@[simp] theorem isNaN_round (s : Bool) (m : Nat) (e : Int) : isNaN (round s m e) = false := by
  have := roundMag_le_infMag m e
  simp [isNaN]; omega

theorem magVal_threshold : magVal (infMag - 1) + magVal infMag = 2 * (2 ^ 1024 - 2 ^ 970) := by
  have h := magVal_code 2045 (2 ^ 53 - 1) (by norm_num) (.inr (by norm_num))
  rw [show 2045 * 2 ^ 52 + (2 ^ 53 - 1) = infMag - 1 by norm_num [infMag],
    show ((2045 : Nat) : Int) - 1074 = ((971 : Nat) : Int) by norm_num, zpow_natCast,
    Nat.cast_sub (by norm_num), Nat.cast_pow, Nat.cast_ofNat, Nat.cast_one, sub_mul, ← pow_add, one_mul,
    show (2 : ℚ) ^ 971 = 2 * 2 ^ 970 by rw [← pow_succ']] at h
  rw [h, magVal_infMag, show 53 + 971 = 1024 from rfl]
  generalize (2 : ℚ) ^ 1024 = a, (2 : ℚ) ^ 970 = b
  ring

/-- The rounded code is a finite one exactly below the overflow threshold. -/
theorem nearestCode_finite_iff {x : ℚ} {n : Nat} (hn : NearestCode x n) :
    x < 2 ^ 1024 - 2 ^ 970 ↔ n < infMag := by
  have hT := magVal_threshold
  generalize (2 : ℚ) ^ 1024 - 2 ^ 970 = T at *
  have hstep := magVal_lt_succ (infMag - 1)
  have hodd : (infMag - 1) % 2 = 1 := by norm_num [infMag]
  have hsucc : infMag - 1 + 1 = infMag := by norm_num [infMag]
  rw [hsucc] at hstep
  obtain ⟨a, h1, h2, h3⟩ := hn
  constructor
  · intro hx
    by_contra hc
    rcases Nat.lt_or_ge a infMag with ha | ha
    · have ha' : a = infMag - 1 := by rcases h3 with ⟨h, -⟩ | ⟨h, -⟩ <;> omega
      rcases h3 with ⟨h, -⟩ | ⟨-, h, -⟩
      · omega
      · rw [ha', hsucc] at h
        linarith
    · have := magVal_strictMono.monotone ha
      linarith
  · intro hx
    by_contra hc
    rw [not_lt] at hc
    rcases Nat.lt_or_ge a (infMag - 1) with ha | ha
    · have := magVal_strictMono.monotone (show a + 1 ≤ infMag - 1 by omega)
      linarith
    · have ha' : a = infMag - 1 := by rcases h3 with ⟨h, -⟩ | ⟨h, -⟩ <;> omega
      rcases h3 with ⟨-, h, htie⟩ | ⟨h, -⟩
      · rw [ha', hsucc] at h htie
        have := htie (by linarith)
        omega
      · omega

/-- Of two numbers of one magnitude, the one as near to `x` as `x`'s own magnitude says is on `x`'s side. -/
theorem same_side {M x c : ℚ} (hM : 0 < M) (hx : x ≠ 0) (hc : |c| = M) (h : |c - x| = abs (M - abs x)) :
    c = if x < 0 then -M else M := by
  rcases lt_or_gt_of_ne hx with hlt | hgt
  · rw [if_pos hlt]
    rw [abs_of_neg hlt] at h
    rcases (abs_eq hM.le).1 hc with rfl | rfl
    · exfalso
      rw [abs_of_pos (by linarith)] at h
      rcases abs_cases (c - -x) with ⟨h3, -⟩ | ⟨h3, -⟩ <;> rw [h3] at h <;> linarith
    · rfl
  · rw [if_neg (by linarith)]
    rw [abs_of_pos hgt] at h
    rcases (abs_eq hM.le).1 hc with rfl | rfl
    · rfl
    · exfalso
      rw [abs_of_neg (by linarith)] at h
      rcases abs_cases (M - x) with ⟨h3, -⟩ | ⟨h3, -⟩ <;> rw [h3] at h <;> linarith

/-- A pattern whose magnitude is the nearest code to `|x|`, with `x`'s sign, is `x` rounded. -/
theorem roundsTo_of_nearestCode {x : ℚ} {r : F64} {n : Nat} (hn : NearestCode |x| n)
    (hm : mag r = min n infMag) (hs : x ≠ 0 → sign r = decide (x < 0)) : RoundsTo x r := by
  have hthreshold := nearestCode_finite_iff hn
  unfold RoundsTo
  split <;> rename_i hx
  · have hlt := hthreshold.1 hx
    have hmr : mag r = n := by omega
    have hfr : isFinite r = true := by simp [isFinite, hmr, hlt]
    have hrx : |toRat r - x| = abs (magVal n - abs x) := by
      rw [toRat_eq hfr, hmr]
      by_cases h0 : x = 0
      · subst h0
        rw [abs_zero, sub_zero, sub_zero, abs_signedVal, abs_of_nonneg (magVal_nonneg n)]
      · rw [hs h0]
        rcases lt_or_gt_of_ne h0 with h | h
        · rw [abs_of_neg h, decide_eq_true h, signedVal, if_pos rfl, ← abs_neg]
          congr 1; ring
        · rw [abs_of_pos h, decide_eq_false (by linarith), signedVal, if_neg (by simp)]
    refine ⟨hfr, fun c hc => ?_⟩
    have hcn := hn.closest (mag c)
    have htri : abs (magVal (mag c) - abs x) ≤ |toRat c - x| := by
      rw [← abs_signedVal (sign c) (mag c), ← toRat_eq hc]
      exact abs_abs_sub_abs_le_abs_sub _ _
    refine ⟨by rw [hrx]; exact hcn.1.trans htri, fun he hne => ?_⟩
    have hpar : n % 2 = 0 → r.getLsbD 0 = false := by
      intro hp
      have := toNat_eq r
      rw [hmr] at this
      rw [BitVec.getLsbD, Nat.testBit_zero, this]
      simp only [decide_eq_false_iff_not]
      split <;> omega
    rw [hrx] at he
    have h1 : abs (magVal n - abs x) = abs (magVal (mag c) - abs x) := le_antisymm hcn.1 (htri.trans he.symm.le)
    by_cases hv : magVal (mag c) = magVal n
    · -- the other sign's copy of the same magnitude is equally near only to 0
      apply hpar
      have h2 : |toRat c - x| = abs (magVal (mag c) - abs x) := by linarith
      by_cases hz : n = 0
      · omega
      · exfalso
        have hnpos : 0 < magVal n := by rw [← magVal_zero]; exact magVal_strictMono (by omega)
        have h0 : x ≠ 0 := by
          rintro rfl
          exact hz (nearestCode_unique hn (by rw [abs_zero, ← magVal_zero]; exact nearestCode_magVal 0))
        apply hne
        rw [same_side (c := toRat c) hnpos h0 (by rw [toRat_eq hc, abs_signedVal, hv]) (by rw [h2, hv]), toRat_eq hfr, hmr, hs h0,
          signedVal]
        simp only [decide_eq_true_eq]
    · exact hpar (hcn.2 h1 hv)
  · have hge : ¬ n < infMag := fun h => hx (hthreshold.2 h)
    have hx0 : x ≠ 0 := by
      rintro rfl
      have hz := nearestCode_unique hn (by rw [abs_zero, ← magVal_zero]; exact nearestCode_magVal 0)
      exact hge (by rw [hz, infMag_eq]; norm_num)
    have hp : pack (sign r) (mag r) = r := pack_sign_mag r
    rw [← hp, hs hx0, show mag r = infMag by omega, inf]

theorem round_roundsTo {s : Bool} {m : Nat} {e : Int} {x : ℚ} (hx : |x| = (m : ℚ) * 2 ^ e)
    (hs : x ≠ 0 → s = decide (x < 0)) : RoundsTo x (round s m e) := by
  obtain ⟨n, hn, hr⟩ := roundMag_nearest m e
  rw [← hx] at hn
  exact roundsTo_of_nearestCode hn (by rw [mag_round, hr]) (by rw [sign_round]; exact hs)

end Sys2Proof.Fp
end

