-- ==== Sys2Proof/Laws/Arith.lean ====
section
/-! SUPPORT. One spec lemma for each arithmetic operation on finite operands: its sign, and its magnitude as the
code nearest to the exact result. -/

namespace Sys2Proof.Fp

theorem not_nan_or {a : F64} (h : isFinite a = true) : isNaN a = false ∧ isInf a = false := by
  rcases class_cases a with ⟨-, h1, h2⟩ | ⟨h1, -⟩ | ⟨h1, -⟩
  · exact ⟨h2, h1⟩
  · rw [h] at h1; cases h1
  · rw [h] at h1; cases h1

/-! ### Infinities -/

theorem unpack_infinity (s : Bool) : unpack (inf s) = .inf s := by cases s <;> decide +kernel

theorem add_inf_finite {x a : F64} {s n : Bool} {m : Nat} {e : Int} (hx : unpack x = .inf s)
    (ha : unpack a = .fin n m e) : add x a = inf s ∧ add a x = inf s := by
  constructor <;> simp only [add, hx, ha]

theorem add_inf_inf {x y : F64} {s u : Bool} (hx : unpack x = .inf s) (hy : unpack y = .inf u) :
    add x y = if s = u then inf s else nan := by simp only [add, hx, hy]

theorem mul_inf_finite {x a : F64} {s n : Bool} {m : Nat} {e : Int} (hx : unpack x = .inf s)
    (ha : unpack a = .fin n m e) :
    mul x a = (if m = 0 then nan else inf (s != n)) ∧ mul a x = (if m = 0 then nan else inf (n != s)) := by
  constructor <;> simp only [mul, hx, ha]

theorem mul_inf_inf {x y : F64} {s u : Bool} (hx : unpack x = .inf s) (hy : unpack y = .inf u) :
    mul x y = inf (s != u) := by simp only [mul, hx, hy]

theorem div_inf_finite {x a : F64} {s n : Bool} {m : Nat} {e : Int} (hx : unpack x = .inf s)
    (ha : unpack a = .fin n m e) : div x a = inf (s != n) ∧ div a x = pack (n != s) 0 := by
  constructor <;> simp only [div, hx, ha]

theorem div_inf_inf {x y : F64} {s u : Bool} (hx : unpack x = .inf s) (hy : unpack y = .inf u) :
    div x y = nan := by simp only [div, hx, hy]

/-! ### Multiplication -/

theorem mul_spec {a b : F64} (ha : isFinite a = true) (hb : isFinite b = true) :
    sign (mul a b) = (sign a != sign b) ∧
      ∃ n, NearestCode (magVal (mag a) * magVal (mag b)) n ∧ mag (mul a b) = min n infMag := by
  obtain ⟨m, e, hu, hv, -⟩ := unpack_finite ha
  obtain ⟨m', e', hu', hv', -⟩ := unpack_finite hb
  have hmul : mul a b = round (sign a != sign b) (m * m') (e + e') := by simp only [mul, hu, hu']
  obtain ⟨n, hn, hr⟩ := roundMag_nearest (m * m') (e + e')
  refine ⟨by rw [hmul, sign_round], n, ?_, by rw [hmul, mag_round, hr]⟩
  have : ((m * m' : Nat) : ℚ) * 2 ^ (e + e') = magVal (mag a) * magVal (mag b) := by
    rw [← hv, ← hv', zpow_add₀ (by norm_num : (2 : ℚ) ≠ 0)]; push_cast; ring
  rwa [this] at hn

theorem mul_comm (a b : F64) : mul a b = mul b a := by
  have hs : ∀ p q : Bool, (p != q) = (q != p) := by decide
  unfold mul
  cases unpack a <;> cases unpack b <;> simp only [hs, Nat.mul_comm, Int.add_comm]

theorem two_zpow_sub (z : Int) (k : Nat) : (2 : ℚ) ^ (z - k) = 2 ^ z / 2 ^ k := by
  rw [zpow_sub₀ (by norm_num : (2 : ℚ) ≠ 0), zpow_natCast]

/-! ### Division -/

theorem div_spec {a b : F64} (ha : isFinite a = true) (hb : isFinite b = true) (h0 : mag b ≠ 0) :
    sign (div a b) = (sign a != sign b) ∧
      ∃ n, NearestCode (magVal (mag a) / magVal (mag b)) n ∧ mag (div a b) = min n infMag := by
  obtain ⟨m, e, hu, hv, -, hz⟩ := unpack_finite ha
  obtain ⟨d, g, hu', hv', hd53, hz'⟩ := unpack_finite hb
  have hd0 : d ≠ 0 := fun h => h0 (hz'.1 h)
  set s := sign a != sign b with hs
  have hdiv : div a b = roundQuot s m d (e - g) := by simp only [div, hu, hu', hd0, if_false, hs]
  rw [hdiv, roundQuot, sign_round, mag_round]
  refine ⟨rfl, ?_⟩
  have hx : magVal (mag a) / magVal (mag b) = (m : ℚ) / d * 2 ^ (e - g) := by
    rw [← hv, ← hv', zpow_sub₀ (by norm_num : (2 : ℚ) ≠ 0)]
    have h1 : (d : ℚ) ≠ 0 := by exact_mod_cast hd0
    have h2 : (2 : ℚ) ^ g ≠ 0 := (two_zpow_pos g).ne'
    field_simp
  rw [hx]
  by_cases hm : m = 0
  · subst hm
    refine ⟨0, ?_, by simp [sticky, roundMag]⟩
    have : ((0 : Nat) : ℚ) / d * 2 ^ (e - g) = magVal 0 := by rw [magVal_zero]; simp
    rw [this]; exact nearestCode_magVal 0
  · set n := m * 2 ^ 110 with hn
    have hdpos : 0 < d := Nat.pos_of_ne_zero hd0
    have hdq : (0 : ℚ) < d := by exact_mod_cast hdpos
    have hp := two_zpow_pos (e - g - 110)
    have hx' : (m : ℚ) / d * 2 ^ (e - g) = (n : ℚ) / d * 2 ^ (e - g - 111 + 1) := by
      rw [show e - g - 111 + 1 = e - g - ((110 : Nat) : Int) by norm_num; ring, two_zpow_sub, hn, Nat.cast_mul,
        Nat.cast_pow, Nat.cast_ofNat]
      have h110 : (2 : ℚ) ^ 110 ≠ 0 := by positivity
      generalize (2 : ℚ) ^ 110 = P at *
      field_simp
    rw [hx']
    rw [show e - g - 110 = e - g - 111 + 1 by ring] at hp
    apply roundMag_sticky
    · rw [Nat.le_div_iff_mul_le hdpos, hn]
      calc 2 ^ 54 * d ≤ 2 ^ 54 * 2 ^ 53 := Nat.mul_le_mul_left _ hd53.le
        _ ≤ 1 * 2 ^ 110 := by norm_num
        _ ≤ m * 2 ^ 110 := Nat.mul_le_mul_right _ (by omega)
    · apply mul_le_mul_of_nonneg_right _ hp.le
      exact Nat.cast_div_le
    · apply mul_lt_mul_of_pos_right _ hp
      rw [div_lt_iff₀ hdq]
      exact_mod_cast (Nat.lt_mul_of_div_lt (Nat.lt_succ_self _) hdpos : n < (n / d + 1) * d)
    · rw [mul_left_inj' hp.ne', div_eq_iff hdq.ne', decide_eq_false_iff_not, not_not]
      constructor
      · intro h
        exact_mod_cast (Nat.div_mul_cancel (Nat.dvd_of_mod_eq_zero h)).symm
      · intro h
        have h' : n = n / d * d := by exact_mod_cast h
        have := Nat.div_add_mod n d
        have h3 : d * (n / d) = n / d * d := Nat.mul_comm _ _
        omega

/-! ### Addition -/

theorem signed_toRat (s : Bool) (m : Nat) (e : Int) :
    ((signed s m : Int) : ℚ) * 2 ^ e = (if s then -1 else 1) * ((m : ℚ) * 2 ^ e) := by
  cases s <;> simp [signed]

theorem add_spec {a b : F64} (ha : isFinite a = true) (hb : isFinite b = true) :
    (toRat a + toRat b = 0 → add a b = pack (sign a && sign b) 0) ∧
      (toRat a + toRat b ≠ 0 → sign (add a b) = decide (toRat a + toRat b < 0)) ∧
      ∃ n, NearestCode |toRat a + toRat b| n ∧ mag (add a b) = min n infMag := by
  obtain ⟨m, e, hu, hv, -⟩ := unpack_finite ha
  obtain ⟨m', e', hu', hv', -⟩ := unpack_finite hb
  obtain ⟨-, -, ht, -⟩ := unpack_toRat hu
  obtain ⟨-, -, ht', -⟩ := unpack_toRat hu'
  set g := min e e' with hg
  set v := signed (sign a) (m * 2 ^ (e - g).toNat) + signed (sign b) (m' * 2 ^ (e' - g).toNat) with hvdef
  have hadd : add a b = if v = 0 then pack (sign a && sign b) 0 else round (decide (v < 0)) v.natAbs g := by
    simp only [add, hu, hu', addFin, ← hg, ← hvdef]
  have hp := two_zpow_pos g
  have hval : (v : ℚ) * 2 ^ g = toRat a + toRat b := by
    rw [hvdef, Int.cast_add, add_mul, signed_toRat, signed_toRat, ht, ht', zpow_shift e g (min_le_left ..),
      zpow_shift e' g (min_le_right ..)]
    push_cast; ring
  have hzero : toRat a + toRat b = 0 ↔ v = 0 := by
    rw [← hval, mul_eq_zero, or_iff_left hp.ne', Int.cast_eq_zero]
  have hneg : toRat a + toRat b < 0 ↔ v < 0 := by
    rw [← hval, mul_neg_iff]
    constructor
    · rintro (⟨-, h⟩ | ⟨h, -⟩)
      · linarith
      · exact_mod_cast h
    · intro h; exact .inr ⟨by exact_mod_cast h, hp⟩
  rw [hadd]
  by_cases h0 : v = 0
  · rw [if_pos h0, hzero.2 h0]
    refine ⟨fun _ => rfl, fun h => absurd rfl h, 0, ?_, ?_⟩
    · rw [abs_zero, ← magVal_zero]; exact nearestCode_magVal 0
    · rw [mag_pack _ _ (by norm_num)]; simp
  · rw [if_neg h0]
    refine ⟨fun h => absurd (hzero.1 h) h0, fun _ => ?_, ?_⟩
    · rw [sign_round]; exact decide_eq_decide.2 hneg.symm
    · obtain ⟨n, hn, hr⟩ := roundMag_nearest v.natAbs g
      refine ⟨n, ?_, by rw [mag_round, hr]⟩
      have : |toRat a + toRat b| = ((v.natAbs : Nat) : ℚ) * 2 ^ g := by
        rw [← hval, abs_mul, abs_of_pos hp, Nat.cast_natAbs, Int.cast_abs]
      rwa [this]

/-! ### Square root -/

/-- `isqrt` is the integer square root. -/
theorem isqrt_spec (fuel n : Nat) (h : n < 4 ^ fuel) :
    isqrt fuel n * isqrt fuel n ≤ n ∧ n < (isqrt fuel n + 1) * (isqrt fuel n + 1) := by
  induction fuel generalizing n with
  | zero => simp only [pow_zero] at h; simp [isqrt]; omega
  | succ f ih =>
    have h4 : n / 4 < 4 ^ f := by rw [pow_succ] at h; omega
    obtain ⟨h1, h2⟩ := ih (n / 4) h4
    simp only [isqrt]
    set r := isqrt f (n / 4)
    have e1 : 2 * r * (2 * r) = 4 * (r * r) := by ring
    have e2 : (2 * r + 2) * (2 * r + 2) = 4 * ((r + 1) * (r + 1)) := by ring
    split
    · rename_i h3
      exact ⟨h3, by rw [show 2 * r + 1 + 1 = 2 * r + 2 by ring, e2]; omega⟩
    · rename_i h3
      exact ⟨by rw [e1]; omega, by omega⟩

/-- The square root of a positive finite value is positive and finite, and no value is nearer to the exact root:
the exact root lies at or below every midpoint towards a larger value, and at or above every midpoint towards a
smaller one. -/
theorem sqrt_spec {a : F64} (ha : isFinite a = true) (hs : sign a = false) (h0 : mag a ≠ 0) :
    sign (sqrt a) = false ∧ isFinite (sqrt a) = true ∧ ∀ c : Nat,
      (mag (sqrt a) < c → magVal (mag a) ≤ ((magVal (mag (sqrt a)) + magVal c) / 2) ^ 2) ∧
        (c < mag (sqrt a) → ((magVal (mag (sqrt a)) + magVal c) / 2) ^ 2 ≤ magVal (mag a)) := by
  obtain ⟨m, e, hu, hv, hm53, hz⟩ := unpack_finite ha
  have hm0 : m ≠ 0 := fun h => h0 (hz.1 h)
  have hsq : sqrt a = roundSqrt m e := by simp [sqrt, hu, hm0, hs]
  set m' := if e % 2 = 0 then m else 2 * m with hm'
  set n := m' * 2 ^ 120 with hn
  set r := isqrt 90 n with hr
  have hm'lt : m' < 2 ^ 54 := by rw [hm']; split <;> omega
  have hm'pos : 1 ≤ m' := by rw [hm']; split <;> omega
  obtain ⟨h1, h2⟩ := isqrt_spec 90 n (by
    calc n < 2 ^ 54 * 2 ^ 120 := Nat.mul_lt_mul_of_pos_right hm'lt (by norm_num)
      _ ≤ 4 ^ 90 := by norm_num)
  rw [← hr] at h1 h2
  set v : ℚ := 2 ^ (e / 2 - 61 + 1) with hvd
  have hvpos : 0 < v := two_zpow_pos _
  have hval : magVal (mag a) = (n : ℚ) * (v * v) := by
    have h2' : (2 : ℚ) ≠ 0 := by norm_num
    rw [← hv, hvd, ← zpow_add₀ h2', hn, hm']
    rcases Int.emod_two_eq_zero_or_one e with h | h
    · rw [if_pos h, show e / 2 - 61 + 1 + (e / 2 - 61 + 1) = e - ((120 : Nat) : Int) by omega, two_zpow_sub,
        Nat.cast_mul, Nat.cast_pow, Nat.cast_ofNat]
      have h120 : (2 : ℚ) ^ 120 ≠ 0 := by positivity
      generalize (2 : ℚ) ^ 120 = P at *
      field_simp
    · rw [if_neg (by omega), show e / 2 - 61 + 1 + (e / 2 - 61 + 1) = e - 1 - ((120 : Nat) : Int) by omega,
        two_zpow_sub, zpow_sub₀ h2', Nat.cast_mul, Nat.cast_mul, Nat.cast_pow, Nat.cast_ofNat]
      have h120 : (2 : ℚ) ^ 120 ≠ 0 := by positivity
      generalize (2 : ℚ) ^ 120 = P at *
      field_simp
  have hrr : ((r : ℚ) * v) ^ 2 ≤ magVal (mag a) := by
    rw [hval, mul_pow, pow_two, pow_two]
    apply mul_le_mul_of_nonneg_right _ (by positivity)
    exact_mod_cast h1
  have hrr' : magVal (mag a) < (((r : ℚ) + 1) * v) ^ 2 := by
    rw [hval, mul_pow, pow_two, pow_two]
    apply mul_lt_mul_of_pos_right _ (by positivity)
    exact_mod_cast h2
  have hr54 : 2 ^ 54 ≤ r := by
    by_contra hc
    have : (r + 1) * (r + 1) ≤ 2 ^ 54 * 2 ^ 54 := Nat.mul_le_mul (by omega) (by omega)
    have h3 : 1 * 2 ^ 120 ≤ n := Nat.mul_le_mul_right _ hm'pos
    norm_num at this h3
    omega
  -- every rational strictly inside the unit, and its lower end when the root is exact, rounds to the answer
  have hround : ∀ x : ℚ, (r : ℚ) * v ≤ x → x < ((r : ℚ) + 1) * v → (decide (r * r ≠ n) = false ↔ x = (r : ℚ) * v) →
      ∃ t, NearestCode x t ∧ mag (sqrt a) = min t infMag := by
    intro x hx1 hx2 hx3
    obtain ⟨t, ht, ht'⟩ := roundMag_sticky hr54 hx1 hx2 hx3
    exact ⟨t, ht, by rw [hsq, roundSqrt, mag_round]; exact ht'⟩
  have hbig : ((r : ℚ) + 1) * v < 2 ^ 1024 - 2 ^ 970 := by
    have hrlt : r + 1 ≤ 2 ^ 88 := by
      by_contra hc
      have : 2 ^ 88 * 2 ^ 88 ≤ r * r := Nat.mul_le_mul (by omega) (by omega)
      have h3 : n < 2 ^ 54 * 2 ^ 120 := Nat.mul_lt_mul_of_pos_right hm'lt (by norm_num)
      norm_num at this h3
      omega
    have he : e ≤ 971 := by
      have hlt : magVal (mag a) < 2 ^ 1024 := by
        rw [← magVal_infMag]; exact magVal_strictMono (isFinite_iff.1 ha)
      by_contra hc
      simp only [unpack] at hu
      have hmlt := isFinite_iff.1 ha
      rw [infMag_eq] at hmlt
      split at hu
      · omega
      · split at hu
        · injection hu with _ _ h3; omega
        · injection hu with _ _ h3; omega
    have hv' : v ≤ 2 ^ (425 : Int) := zpow_le_zpow_right₀ (by norm_num) (by omega)
    calc ((r : ℚ) + 1) * v ≤ 2 ^ 88 * 2 ^ (425 : Int) := by
          apply mul_le_mul _ hv' hvpos.le (by positivity)
          exact_mod_cast hrlt
      _ = 2 ^ (513 : Nat) := by
          rw [show (425 : Int) = ((425 : Nat) : Int) by norm_num, zpow_natCast, ← pow_add]
      _ ≤ 2 ^ 970 := pow_le_pow_right₀ (by norm_num) (by norm_num)
      _ < 2 ^ 1024 - 2 ^ 970 := by
          rw [show (2 : ℚ) ^ 1024 = 2 ^ 970 * 2 ^ 54 by rw [← pow_add]]
          have : (0 : ℚ) < 2 ^ 970 := by positivity
          generalize (2 : ℚ) ^ 970 = P at *
          linarith
  have hfin : ∀ x : ℚ, (r : ℚ) * v ≤ x → x < ((r : ℚ) + 1) * v →
      (decide (r * r ≠ n) = false ↔ x = (r : ℚ) * v) → NearestCode x (mag (sqrt a)) ∧ mag (sqrt a) < infMag := by
    intro x hx1 hx2 hx3
    obtain ⟨t, ht, hmt⟩ := hround x hx1 hx2 hx3
    have := (nearestCode_finite_iff ht).1 (hx2.trans hbig)
    rw [hmt, Nat.min_eq_left this.le]
    exact ⟨ht, this⟩
  refine ⟨by rw [hsq, roundSqrt, sign_round], ?_, fun c => ?_⟩
  · rw [isFinite_iff]
    by_cases hex : r * r = n
    · exact (hfin ((r : ℚ) * v) le_rfl (mul_lt_mul_of_pos_right (by linarith) hvpos) (by simp [hex])).2
    · refine (hfin (((r : ℚ) + 1 / 2) * v) (mul_le_mul_of_nonneg_right (by linarith) hvpos.le)
        (mul_lt_mul_of_pos_right (by linarith) hvpos) ?_).2
      simp only [hex, ne_eq, not_false_eq_true, decide_true, Bool.true_eq_false, false_iff]
      intro h
      have := mul_right_cancel₀ hvpos.ne' h
      linarith
  · set q := magVal (mag (sqrt a)) with hq
    have hq0 : 0 ≤ q := magVal_nonneg _
    have hc0 := magVal_nonneg c
    have hrv : 0 ≤ (r : ℚ) * v := by positivity
    by_cases hex : r * r = n
    · have hxeq : magVal (mag a) = ((r : ℚ) * v) ^ 2 := by
        rw [hval, mul_pow, pow_two, pow_two, ← hex]; push_cast; rfl
      have hnc := (hfin ((r : ℚ) * v) le_rfl (mul_lt_mul_of_pos_right (by linarith) hvpos) (by simp [hex])).1
      have hcl := (hnc.closest c).1
      rw [hxeq]
      constructor <;> intro hlt <;> have hm := magVal_strictMono hlt
      · apply pow_le_pow_left₀ hrv
        by_contra hcon
        rw [not_le] at hcon
        rw [abs_of_nonpos (by linarith : magVal (mag (sqrt a)) - (r : ℚ) * v ≤ 0)] at hcl
        rcases abs_cases (magVal c - (r : ℚ) * v) with ⟨h3, -⟩ | ⟨h3, -⟩ <;> rw [h3] at hcl <;> linarith
      · apply pow_le_pow_left₀ (by linarith)
        by_contra hcon
        rw [not_le] at hcon
        rw [abs_of_nonneg (by linarith : 0 ≤ magVal (mag (sqrt a)) - (r : ℚ) * v)] at hcl
        rcases abs_cases (magVal c - (r : ℚ) * v) with ⟨h3, -⟩ | ⟨h3, -⟩ <;> rw [h3] at hcl <;> linarith
    · have hne : ∀ x : ℚ, (r : ℚ) * v < x → (decide (r * r ≠ n) = false ↔ x = (r : ℚ) * v) := by
        intro x hx
        simp only [hex, ne_eq, not_false_eq_true, decide_true, Bool.true_eq_false, false_iff]
        exact hx.ne'
      constructor <;> intro hlt <;> have hm := magVal_strictMono hlt <;> by_contra hcon <;> rw [not_le] at hcon
      · have hmid : (q + magVal c) / 2 < ((r : ℚ) + 1) * v :=
          lt_of_pow_lt_pow_left₀ 2 (by positivity) (hcon.trans hrr')
        obtain ⟨x, hx1, hx2⟩ := exists_between (max_lt hmid (mul_lt_mul_of_pos_right
          (by linarith : (r : ℚ) < r + 1) hvpos))
        have hxm := lt_of_le_of_lt (le_max_left _ _) hx1
        have hxr := lt_of_le_of_lt (le_max_right _ _) hx1
        have hcl := ((hfin x hxr.le hx2 (hne x hxr)).1.closest c).1
        rw [abs_of_nonpos (by linarith : magVal (mag (sqrt a)) - x ≤ 0)] at hcl
        rcases abs_cases (magVal c - x) with ⟨h3, -⟩ | ⟨h3, -⟩ <;> rw [h3] at hcl <;> linarith
      · have hmid : (r : ℚ) * v < (q + magVal c) / 2 :=
          lt_of_pow_lt_pow_left₀ 2 (by linarith) (hrr.trans_lt hcon)
        obtain ⟨x, hx1, hx2⟩ := exists_between (lt_min hmid (mul_lt_mul_of_pos_right
          (by linarith : (r : ℚ) < r + 1) hvpos))
        have hxm := lt_of_lt_of_le hx2 (min_le_left _ _)
        have hxr := lt_of_lt_of_le hx2 (min_le_right _ _)
        have hcl := ((hfin x hx1.le hxr (hne x hx1)).1.closest c).1
        rw [abs_of_nonneg (by linarith : 0 ≤ magVal (mag (sqrt a)) - x)] at hcl
        rcases abs_cases (magVal c - x) with ⟨h3, -⟩ | ⟨h3, -⟩ <;> rw [h3] at hcl <;> linarith

end Sys2Proof.Fp
end

