-- ==== Sys2Proof/Laws/Compare.lean ====
section
/-! SUPPORT. Comparisons of finite values are comparisons of the numbers they stand for; a change of sign passes
through the operations. -/

namespace Sys2Proof.Fp

theorem magVal_lt_iff {a b : Nat} : magVal a < magVal b ↔ a < b := magVal_strictMono.lt_iff_lt

theorem magVal_eq_zero {n : Nat} : magVal n = 0 ↔ n = 0 := by
  rw [← magVal_zero]; exact magVal_strictMono.injective.eq_iff

theorem signedVal_lt_iff (s u : Bool) (m n : Nat) :
    signedVal s m < signedVal u n ↔ signed s m < signed u n := by
  have hm := magVal_nonneg m
  have hn := magVal_nonneg n
  have h1 := @magVal_lt_iff m n
  have h2 := @magVal_lt_iff n m
  have h3 := @magVal_eq_zero m
  have h4 := @magVal_eq_zero n
  cases s <;> cases u <;> simp only [signedVal, signed, if_true, if_false, Bool.false_eq_true]
  · rw [h1]; omega
  · constructor
    · intro h; linarith
    · intro h; omega
  · constructor
    · intro h
      have : m ≠ 0 ∨ n ≠ 0 := by
        by_contra hc
        push Not at hc
        rw [h3.2 hc.1, h4.2 hc.2] at h
        simp at h
      omega
    · intro h
      rcases Nat.eq_zero_or_pos m with h0 | h0
      · have : magVal n ≠ 0 := fun h' => by have := h4.1 h'; omega
        have := lt_of_le_of_ne hn this.symm
        linarith
      · have : magVal m ≠ 0 := fun h' => by have := h3.1 h'; omega
        have := lt_of_le_of_ne hm this.symm
        linarith
  · rw [neg_lt_neg_iff, h2]; omega

theorem toRat_lt_iff {a b : F64} (ha : isFinite a = true) (hb : isFinite b = true) :
    toRat a < toRat b ↔ key a < key b := by
  rw [toRat_eq ha, toRat_eq hb]; exact signedVal_lt_iff _ _ _ _

/-- `a < b` of two finite values (R18). -/
theorem lt_iff {a b : F64} (ha : isFinite a = true) (hb : isFinite b = true) :
    lt a b = true ↔ toRat a < toRat b := by
  rw [toRat_lt_iff ha hb]
  simp [lt, (not_nan_or ha).1, (not_nan_or hb).1]

/-- `a ≤ b` of two finite values (R18). -/
theorem le_iff {a b : F64} (ha : isFinite a = true) (hb : isFinite b = true) :
    le a b = true ↔ toRat a ≤ toRat b := by
  rw [← not_lt, toRat_lt_iff hb ha]
  simp [le, (not_nan_or ha).1, (not_nan_or hb).1]

/-- `a == b` of two finite values (R18): the numbers are equal. -/
theorem eq_iff {a b : F64} (ha : isFinite a = true) (hb : isFinite b = true) :
    eq a b = true ↔ toRat a = toRat b := by
  have h1 := toRat_lt_iff ha hb
  have h2 := toRat_lt_iff hb ha
  simp only [eq, (not_nan_or ha).1, (not_nan_or hb).1, Bool.not_false, Bool.true_and, decide_eq_true_eq]
  constructor
  · intro h
    exact le_antisymm (not_lt.1 fun hc => by have := h2.1 hc; omega) (not_lt.1 fun hc => by have := h1.1 hc; omega)
  · intro h
    rw [h] at h1 h2
    have h1' := mt h1.2 (lt_irrefl _)
    have h2' := mt h2.2 (lt_irrefl _)
    omega

/-! ### Signs -/

theorem unpack_neg (a : F64) : unpack (neg a) = match unpack a with
    | .nan => .nan
    | .inf s => .inf (!s)
    | .fin s m e => .fin (!s) m e := by
  unfold unpack
  simp only [mag_neg, sign_neg]
  split
  · split <;> rfl
  · split <;> rfl

theorem neg_round (s : Bool) (m : Nat) (e : Int) : neg (round s m e) = round (!s) m e :=
  neg_pack _ _ (lt_of_le_of_lt (roundMag_le_infMag m e) infMag_lt)

theorem neg_inf (s : Bool) : neg (inf s) = inf (!s) := neg_pack _ _ infMag_lt

/-- A product that is no NaN changes its sign with its second factor. -/
theorem mul_neg_right {a b : F64} (h : isNaN (mul a b) = false) : mul a (neg b) = neg (mul a b) := by
  have hb : ∀ p q : Bool, (p != !q) = !(p != q) := by decide
  have hnan : isNaN nan = true := by decide +kernel
  unfold mul at h ⊢
  rw [unpack_neg]
  cases ha : unpack a <;> cases hb' : unpack b <;> simp only [ha, hb'] at h ⊢
  all_goals first
    | (rw [hnan] at h; cases h)
    | (split at h
       · rw [hnan] at h; cases h
       · rename_i h0; simp only [if_neg h0, hb, neg_inf])
    | simp only [hb, neg_inf, neg_round]

/-- A quotient of two numbers with both signs changed is the same. -/
theorem div_neg_neg (a b : F64) : div (neg a) (neg b) = div a b := by
  have hb : ∀ p q : Bool, ((!p) != !q) = (p != q) := by decide
  unfold div
  rw [unpack_neg, unpack_neg]
  cases unpack a <;> cases unpack b <;> simp only [hb]

end Sys2Proof.Fp
end

