-- ==== Sys2Proof/Laws/State.lean ====
section
/-! SUPPORT. What each update of State does to each field: one lemma per field and update, true by definition. -/

namespace Sys2Proof.Machine

/-! ### State.report -/

@[simp] theorem State.report_params (s : State) (c : ErrCode) : (s.report c).params = s.params := rfl
@[simp] theorem State.report_cfg (s : State) (c : ErrCode) : (s.report c).cfg = s.cfg := rfl
@[simp] theorem State.report_operands (s : State) (c : ErrCode) : (s.report c).operands = s.operands := rfl
@[simp] theorem State.report_status (s : State) (c : ErrCode) :
    (s.report c).status = { s.status with err := true } := rfl
@[simp] theorem State.report_errCode (s : State) (c : ErrCode) :
    (s.report c).errCode = if s.status.err then s.errCode else c := rfl
@[simp] theorem State.report_latched (s : State) (c : ErrCode) : (s.report c).latched = s.latched := rfl
@[simp] theorem State.report_results (s : State) (c : ErrCode) : (s.report c).results = s.results := rfl
@[simp] theorem State.report_counters (s : State) (c : ErrCode) : (s.report c).counters = s.counters := rfl
@[simp] theorem State.report_coef (s : State) (c : ErrCode) : (s.report c).coef = s.coef := rfl
@[simp] theorem State.report_ring (s : State) (c : ErrCode) : (s.report c).ring = s.ring := rfl
@[simp] theorem State.report_wr (s : State) (c : ErrCode) : (s.report c).wr = s.wr := rfl
@[simp] theorem State.report_prev (s : State) (c : ErrCode) : (s.report c).prev = s.prev := rfl
@[simp] theorem State.report_fifo (s : State) (c : ErrCode) : (s.report c).fifo = s.fifo := rfl
@[simp] theorem State.report_pending (s : State) (c : ErrCode) : (s.report c).pending = s.pending := rfl
@[simp] theorem State.report_draws (s : State) (c : ErrCode) : (s.report c).draws = s.draws := rfl
@[simp] theorem State.report_agenda (s : State) (c : ErrCode) : (s.report c).agenda = s.agenda := rfl
@[simp] theorem State.report_hostReads (s : State) (c : ErrCode) : (s.report c).hostReads = s.hostReads := rfl
@[simp] theorem State.report_audioOut (s : State) (c : ErrCode) : (s.report c).audioOut = s.audioOut := rfl

/-! ### State.complete -/

@[simp] theorem State.complete_params (s : State) : (s.complete).params = s.params := rfl
@[simp] theorem State.complete_cfg (s : State) : (s.complete).cfg = s.cfg := rfl
@[simp] theorem State.complete_operands (s : State) : (s.complete).operands = s.operands := rfl
@[simp] theorem State.complete_status (s : State) : (s.complete).status = { s.status with busy := false } := rfl
@[simp] theorem State.complete_errCode (s : State) : (s.complete).errCode = s.errCode := rfl
@[simp] theorem State.complete_latched (s : State) : (s.complete).latched = s.latched := rfl
@[simp] theorem State.complete_results (s : State) : (s.complete).results = s.results := rfl
@[simp] theorem State.complete_counters (s : State) : (s.complete).counters = s.counters := rfl
@[simp] theorem State.complete_coef (s : State) : (s.complete).coef = s.coef := rfl
@[simp] theorem State.complete_ring (s : State) : (s.complete).ring = s.ring := rfl
@[simp] theorem State.complete_wr (s : State) : (s.complete).wr = s.wr := rfl
@[simp] theorem State.complete_prev (s : State) : (s.complete).prev = s.prev := rfl
@[simp] theorem State.complete_fifo (s : State) : (s.complete).fifo = s.fifo := rfl
@[simp] theorem State.complete_pending (s : State) : (s.complete).pending = s.pending := rfl
@[simp] theorem State.complete_draws (s : State) : (s.complete).draws = s.draws := rfl
@[simp] theorem State.complete_agenda (s : State) : (s.complete).agenda = s.agenda := rfl
@[simp] theorem State.complete_hostReads (s : State) : (s.complete).hostReads = s.hostReads := rfl
@[simp] theorem State.complete_audioOut (s : State) : (s.complete).audioOut = s.audioOut := rfl

/-! ### State.raise -/

@[simp] theorem State.raise_params (s : State) (c : ErrCode) : (s.raise c).params = s.params := rfl
@[simp] theorem State.raise_cfg (s : State) (c : ErrCode) : (s.raise c).cfg = s.cfg := rfl
@[simp] theorem State.raise_operands (s : State) (c : ErrCode) : (s.raise c).operands = s.operands := rfl
@[simp] theorem State.raise_status (s : State) (c : ErrCode) :
    (s.raise c).status = { s.status with err := true, busy := false } := rfl
@[simp] theorem State.raise_errCode (s : State) (c : ErrCode) :
    (s.raise c).errCode = if s.status.err then s.errCode else c := rfl
@[simp] theorem State.raise_latched (s : State) (c : ErrCode) : (s.raise c).latched = s.latched := rfl
@[simp] theorem State.raise_results (s : State) (c : ErrCode) : (s.raise c).results = s.results := rfl
@[simp] theorem State.raise_counters (s : State) (c : ErrCode) : (s.raise c).counters = s.counters := rfl
@[simp] theorem State.raise_coef (s : State) (c : ErrCode) : (s.raise c).coef = s.coef := rfl
@[simp] theorem State.raise_ring (s : State) (c : ErrCode) : (s.raise c).ring = s.ring := rfl
@[simp] theorem State.raise_wr (s : State) (c : ErrCode) : (s.raise c).wr = s.wr := rfl
@[simp] theorem State.raise_prev (s : State) (c : ErrCode) : (s.raise c).prev = s.prev := rfl
@[simp] theorem State.raise_fifo (s : State) (c : ErrCode) : (s.raise c).fifo = s.fifo := rfl
@[simp] theorem State.raise_pending (s : State) (c : ErrCode) : (s.raise c).pending = s.pending := rfl
@[simp] theorem State.raise_draws (s : State) (c : ErrCode) : (s.raise c).draws = s.draws := rfl
@[simp] theorem State.raise_agenda (s : State) (c : ErrCode) : (s.raise c).agenda = s.agenda := rfl
@[simp] theorem State.raise_hostReads (s : State) (c : ErrCode) : (s.raise c).hostReads = s.hostReads := rfl
@[simp] theorem State.raise_audioOut (s : State) (c : ErrCode) : (s.raise c).audioOut = s.audioOut := rfl

/-! ### State.startStream -/

@[simp] theorem State.startStream_params (s : State) : (s.startStream).params = s.params := rfl
@[simp] theorem State.startStream_cfg (s : State) : (s.startStream).cfg = s.cfg := rfl
@[simp] theorem State.startStream_operands (s : State) : (s.startStream).operands = s.operands := rfl
@[simp] theorem State.startStream_status (s : State) :
    (s.startStream).status = { s.status with firValid := false, audioValid := false } := rfl
@[simp] theorem State.startStream_errCode (s : State) : (s.startStream).errCode = s.errCode := rfl
@[simp] theorem State.startStream_latched (s : State) : (s.startStream).latched = s.latched := rfl
@[simp] theorem State.startStream_results (s : State) : (s.startStream).results = s.results := rfl
@[simp] theorem State.startStream_counters (s : State) :
    (s.startStream).counters = { nIn := 0#64, nFirOut := 0#64, nDemod := 0#64, nRsIn := 0#64, nAudio := 0#64 } := rfl
@[simp] theorem State.startStream_coef (s : State) : (s.startStream).coef = s.coef := rfl
@[simp] theorem State.startStream_ring (s : State) :
    (s.startStream).ring = drawRing s.params.lMax s.draws := rfl
@[simp] theorem State.startStream_wr (s : State) : (s.startStream).wr = 0 := rfl
@[simp] theorem State.startStream_prev (s : State) : (s.startStream).prev = (0#64, 0#64) := rfl
@[simp] theorem State.startStream_fifo (s : State) : (s.startStream).fifo = s.fifo := rfl
@[simp] theorem State.startStream_pending (s : State) : (s.startStream).pending = s.pending := rfl
@[simp] theorem State.startStream_draws (s : State) : (s.startStream).draws = s.draws + 2 * s.params.lMax := rfl
@[simp] theorem State.startStream_agenda (s : State) : (s.startStream).agenda = s.agenda := rfl
@[simp] theorem State.startStream_hostReads (s : State) : (s.startStream).hostReads = s.hostReads := rfl
@[simp] theorem State.startStream_audioOut (s : State) : (s.startStream).audioOut = s.audioOut := rfl

/-! ### State.storeSample -/

@[simp] theorem State.storeSample_params (s : State) (x y : F32) : (s.storeSample x y).params = s.params := rfl
@[simp] theorem State.storeSample_cfg (s : State) (x y : F32) : (s.storeSample x y).cfg = s.cfg := rfl
@[simp] theorem State.storeSample_operands (s : State) (x y : F32) :
    (s.storeSample x y).operands = s.operands := rfl
@[simp] theorem State.storeSample_status (s : State) (x y : F32) : (s.storeSample x y).status = s.status := rfl
@[simp] theorem State.storeSample_errCode (s : State) (x y : F32) :
    (s.storeSample x y).errCode = s.errCode := rfl
@[simp] theorem State.storeSample_latched (s : State) (x y : F32) :
    (s.storeSample x y).latched = s.latched := rfl
@[simp] theorem State.storeSample_results (s : State) (x y : F32) :
    (s.storeSample x y).results = s.results := rfl
@[simp] theorem State.storeSample_counters (s : State) (x y : F32) :
    (s.storeSample x y).counters = { s.counters with nIn := s.counters.nIn + 1 } := rfl
@[simp] theorem State.storeSample_coef (s : State) (x y : F32) : (s.storeSample x y).coef = s.coef := rfl
@[simp] theorem State.storeSample_ring (s : State) (x y : F32) :
    (s.storeSample x y).ring = s.ring.set s.wr (x, y) := rfl
@[simp] theorem State.storeSample_wr (s : State) (x y : F32) :
    (s.storeSample x y).wr = (s.wr + 1) % s.latched.filterLen.toNat := rfl
@[simp] theorem State.storeSample_prev (s : State) (x y : F32) : (s.storeSample x y).prev = s.prev := rfl
@[simp] theorem State.storeSample_fifo (s : State) (x y : F32) : (s.storeSample x y).fifo = s.fifo := rfl
@[simp] theorem State.storeSample_pending (s : State) (x y : F32) :
    (s.storeSample x y).pending = s.pending := rfl
@[simp] theorem State.storeSample_draws (s : State) (x y : F32) : (s.storeSample x y).draws = s.draws := rfl
@[simp] theorem State.storeSample_agenda (s : State) (x y : F32) : (s.storeSample x y).agenda = s.agenda := rfl
@[simp] theorem State.storeSample_hostReads (s : State) (x y : F32) :
    (s.storeSample x y).hostReads = s.hostReads := rfl
@[simp] theorem State.storeSample_audioOut (s : State) (x y : F32) :
    (s.storeSample x y).audioOut = s.audioOut := rfl

/-! ### State.emitAudio -/

@[simp] theorem State.emitAudio_params (s : State) (q : BitVec 16) : (s.emitAudio q).params = s.params := rfl
@[simp] theorem State.emitAudio_cfg (s : State) (q : BitVec 16) : (s.emitAudio q).cfg = s.cfg := rfl
@[simp] theorem State.emitAudio_operands (s : State) (q : BitVec 16) :
    (s.emitAudio q).operands = s.operands := rfl
@[simp] theorem State.emitAudio_status (s : State) (q : BitVec 16) :
    (s.emitAudio q).status = { s.status with audioValid := true } := rfl
@[simp] theorem State.emitAudio_errCode (s : State) (q : BitVec 16) : (s.emitAudio q).errCode = s.errCode := rfl
@[simp] theorem State.emitAudio_latched (s : State) (q : BitVec 16) : (s.emitAudio q).latched = s.latched := rfl
@[simp] theorem State.emitAudio_results (s : State) (q : BitVec 16) :
    (s.emitAudio q).results = { s.results with audioLast := q.signExtend 32 } := rfl
@[simp] theorem State.emitAudio_counters (s : State) (q : BitVec 16) :
    (s.emitAudio q).counters = { s.counters with nAudio := s.counters.nAudio + 1 } := rfl
@[simp] theorem State.emitAudio_coef (s : State) (q : BitVec 16) : (s.emitAudio q).coef = s.coef := rfl
@[simp] theorem State.emitAudio_ring (s : State) (q : BitVec 16) : (s.emitAudio q).ring = s.ring := rfl
@[simp] theorem State.emitAudio_wr (s : State) (q : BitVec 16) : (s.emitAudio q).wr = s.wr := rfl
@[simp] theorem State.emitAudio_prev (s : State) (q : BitVec 16) : (s.emitAudio q).prev = s.prev := rfl
@[simp] theorem State.emitAudio_fifo (s : State) (q : BitVec 16) : (s.emitAudio q).fifo = s.fifo ++ [q] := rfl
@[simp] theorem State.emitAudio_pending (s : State) (q : BitVec 16) : (s.emitAudio q).pending = s.pending := rfl
@[simp] theorem State.emitAudio_draws (s : State) (q : BitVec 16) : (s.emitAudio q).draws = s.draws := rfl
@[simp] theorem State.emitAudio_agenda (s : State) (q : BitVec 16) : (s.emitAudio q).agenda = s.agenda := rfl
@[simp] theorem State.emitAudio_hostReads (s : State) (q : BitVec 16) :
    (s.emitAudio q).hostReads = s.hostReads := rfl
@[simp] theorem State.emitAudio_audioOut (s : State) (q : BitVec 16) :
    (s.emitAudio q).audioOut = s.audioOut := rfl

/-! ### State.advanceDraws -/

@[simp] theorem State.advanceDraws_params (s : State) (n : Nat) : (s.advanceDraws n).params = s.params := rfl
@[simp] theorem State.advanceDraws_cfg (s : State) (n : Nat) : (s.advanceDraws n).cfg = s.cfg := rfl
@[simp] theorem State.advanceDraws_operands (s : State) (n : Nat) :
    (s.advanceDraws n).operands = s.operands := rfl
@[simp] theorem State.advanceDraws_status (s : State) (n : Nat) : (s.advanceDraws n).status = s.status := rfl
@[simp] theorem State.advanceDraws_errCode (s : State) (n : Nat) : (s.advanceDraws n).errCode = s.errCode := rfl
@[simp] theorem State.advanceDraws_latched (s : State) (n : Nat) : (s.advanceDraws n).latched = s.latched := rfl
@[simp] theorem State.advanceDraws_results (s : State) (n : Nat) : (s.advanceDraws n).results = s.results := rfl
@[simp] theorem State.advanceDraws_counters (s : State) (n : Nat) :
    (s.advanceDraws n).counters = s.counters := rfl
@[simp] theorem State.advanceDraws_coef (s : State) (n : Nat) : (s.advanceDraws n).coef = s.coef := rfl
@[simp] theorem State.advanceDraws_ring (s : State) (n : Nat) : (s.advanceDraws n).ring = s.ring := rfl
@[simp] theorem State.advanceDraws_wr (s : State) (n : Nat) : (s.advanceDraws n).wr = s.wr := rfl
@[simp] theorem State.advanceDraws_prev (s : State) (n : Nat) : (s.advanceDraws n).prev = s.prev := rfl
@[simp] theorem State.advanceDraws_fifo (s : State) (n : Nat) : (s.advanceDraws n).fifo = s.fifo := rfl
@[simp] theorem State.advanceDraws_pending (s : State) (n : Nat) : (s.advanceDraws n).pending = s.pending := rfl
@[simp] theorem State.advanceDraws_draws (s : State) (n : Nat) : (s.advanceDraws n).draws = s.draws + n := rfl
@[simp] theorem State.advanceDraws_agenda (s : State) (n : Nat) : (s.advanceDraws n).agenda = s.agenda := rfl
@[simp] theorem State.advanceDraws_hostReads (s : State) (n : Nat) :
    (s.advanceDraws n).hostReads = s.hostReads := rfl
@[simp] theorem State.advanceDraws_audioOut (s : State) (n : Nat) :
    (s.advanceDraws n).audioOut = s.audioOut := rfl

/-! ### State.flagNaN -/

@[simp] theorem State.flagNaN_params (s : State) (a : F64) : (s.flagNaN a).params = s.params := rfl
@[simp] theorem State.flagNaN_cfg (s : State) (a : F64) : (s.flagNaN a).cfg = s.cfg := rfl
@[simp] theorem State.flagNaN_operands (s : State) (a : F64) : (s.flagNaN a).operands = s.operands := rfl
@[simp] theorem State.flagNaN_status (s : State) (a : F64) :
    (s.flagNaN a).status = { s.status with nonfinite := s.status.nonfinite || Fp.isNaN a } := rfl
@[simp] theorem State.flagNaN_errCode (s : State) (a : F64) : (s.flagNaN a).errCode = s.errCode := rfl
@[simp] theorem State.flagNaN_latched (s : State) (a : F64) : (s.flagNaN a).latched = s.latched := rfl
@[simp] theorem State.flagNaN_results (s : State) (a : F64) : (s.flagNaN a).results = s.results := rfl
@[simp] theorem State.flagNaN_counters (s : State) (a : F64) : (s.flagNaN a).counters = s.counters := rfl
@[simp] theorem State.flagNaN_coef (s : State) (a : F64) : (s.flagNaN a).coef = s.coef := rfl
@[simp] theorem State.flagNaN_ring (s : State) (a : F64) : (s.flagNaN a).ring = s.ring := rfl
@[simp] theorem State.flagNaN_wr (s : State) (a : F64) : (s.flagNaN a).wr = s.wr := rfl
@[simp] theorem State.flagNaN_prev (s : State) (a : F64) : (s.flagNaN a).prev = s.prev := rfl
@[simp] theorem State.flagNaN_fifo (s : State) (a : F64) : (s.flagNaN a).fifo = s.fifo := rfl
@[simp] theorem State.flagNaN_pending (s : State) (a : F64) : (s.flagNaN a).pending = s.pending := rfl
@[simp] theorem State.flagNaN_draws (s : State) (a : F64) : (s.flagNaN a).draws = s.draws := rfl
@[simp] theorem State.flagNaN_agenda (s : State) (a : F64) : (s.flagNaN a).agenda = s.agenda := rfl
@[simp] theorem State.flagNaN_hostReads (s : State) (a : F64) : (s.flagNaN a).hostReads = s.hostReads := rfl
@[simp] theorem State.flagNaN_audioOut (s : State) (a : F64) : (s.flagNaN a).audioOut = s.audioOut := rfl

/-! ### State.emitFir -/

@[simp] theorem State.emitFir_params (s : State) (a b : F64) : (s.emitFir a b).params = s.params := rfl
@[simp] theorem State.emitFir_cfg (s : State) (a b : F64) : (s.emitFir a b).cfg = s.cfg := rfl
@[simp] theorem State.emitFir_operands (s : State) (a b : F64) : (s.emitFir a b).operands = s.operands := rfl
@[simp] theorem State.emitFir_status (s : State) (a b : F64) :
    (s.emitFir a b).status = { s.status with firValid := true } := rfl
@[simp] theorem State.emitFir_errCode (s : State) (a b : F64) : (s.emitFir a b).errCode = s.errCode := rfl
@[simp] theorem State.emitFir_latched (s : State) (a b : F64) : (s.emitFir a b).latched = s.latched := rfl
@[simp] theorem State.emitFir_results (s : State) (a b : F64) :
    (s.emitFir a b).results = { s.results with firOutI := settleNaN s.draws a, firOutQ := settleNaN (s.draws + 1) b } := rfl
@[simp] theorem State.emitFir_counters (s : State) (a b : F64) :
    (s.emitFir a b).counters = { s.counters with nFirOut := s.counters.nFirOut + 1 } := rfl
@[simp] theorem State.emitFir_coef (s : State) (a b : F64) : (s.emitFir a b).coef = s.coef := rfl
@[simp] theorem State.emitFir_ring (s : State) (a b : F64) : (s.emitFir a b).ring = s.ring := rfl
@[simp] theorem State.emitFir_wr (s : State) (a b : F64) : (s.emitFir a b).wr = s.wr := rfl
@[simp] theorem State.emitFir_prev (s : State) (a b : F64) : (s.emitFir a b).prev = s.prev := rfl
@[simp] theorem State.emitFir_fifo (s : State) (a b : F64) : (s.emitFir a b).fifo = s.fifo := rfl
@[simp] theorem State.emitFir_pending (s : State) (a b : F64) : (s.emitFir a b).pending = s.pending := rfl
@[simp] theorem State.emitFir_draws (s : State) (a b : F64) : (s.emitFir a b).draws = s.draws + 2 := rfl
@[simp] theorem State.emitFir_agenda (s : State) (a b : F64) : (s.emitFir a b).agenda = s.agenda := rfl
@[simp] theorem State.emitFir_hostReads (s : State) (a b : F64) : (s.emitFir a b).hostReads = s.hostReads := rfl
@[simp] theorem State.emitFir_audioOut (s : State) (a b : F64) : (s.emitFir a b).audioOut = s.audioOut := rfl

/-! ### State.demodUnit -/

@[simp] theorem State.demodUnit_params (s : State) (a b : F64) : (s.demodUnit a b).params = s.params := rfl
@[simp] theorem State.demodUnit_cfg (s : State) (a b : F64) : (s.demodUnit a b).cfg = s.cfg := rfl
@[simp] theorem State.demodUnit_operands (s : State) (a b : F64) :
    (s.demodUnit a b).operands = s.operands := rfl
@[simp] theorem State.demodUnit_status (s : State) (a b : F64) : (s.demodUnit a b).status = s.status := rfl
@[simp] theorem State.demodUnit_errCode (s : State) (a b : F64) : (s.demodUnit a b).errCode = s.errCode := rfl
@[simp] theorem State.demodUnit_latched (s : State) (a b : F64) : (s.demodUnit a b).latched = s.latched := rfl
@[simp] theorem State.demodUnit_results (s : State) (a b : F64) :
    (s.demodUnit a b).results = { s.results with angle := s.demodAngle (a, b) } := rfl
@[simp] theorem State.demodUnit_counters (s : State) (a b : F64) :
    (s.demodUnit a b).counters = { s.counters with nDemod := s.counters.nDemod + 1 } := rfl
@[simp] theorem State.demodUnit_coef (s : State) (a b : F64) : (s.demodUnit a b).coef = s.coef := rfl
@[simp] theorem State.demodUnit_ring (s : State) (a b : F64) : (s.demodUnit a b).ring = s.ring := rfl
@[simp] theorem State.demodUnit_wr (s : State) (a b : F64) : (s.demodUnit a b).wr = s.wr := rfl
@[simp] theorem State.demodUnit_prev (s : State) (a b : F64) : (s.demodUnit a b).prev = (a, b) := rfl
@[simp] theorem State.demodUnit_fifo (s : State) (a b : F64) : (s.demodUnit a b).fifo = s.fifo := rfl
@[simp] theorem State.demodUnit_pending (s : State) (a b : F64) : (s.demodUnit a b).pending = s.pending := rfl
@[simp] theorem State.demodUnit_draws (s : State) (a b : F64) : (s.demodUnit a b).draws = s.draws + 1 := rfl
@[simp] theorem State.demodUnit_agenda (s : State) (a b : F64) : (s.demodUnit a b).agenda = s.agenda := rfl
@[simp] theorem State.demodUnit_hostReads (s : State) (a b : F64) :
    (s.demodUnit a b).hostReads = s.hostReads := rfl
@[simp] theorem State.demodUnit_audioOut (s : State) (a b : F64) :
    (s.demodUnit a b).audioOut = s.audioOut := rfl

/-! ### State.commitSuccess -/

@[simp] theorem State.commitSuccess_params (s : State) (d : DesignResult) :
    (s.commitSuccess d).params = s.params := rfl
@[simp] theorem State.commitSuccess_cfg (s : State) (d : DesignResult) : (s.commitSuccess d).cfg = s.cfg := rfl
@[simp] theorem State.commitSuccess_operands (s : State) (d : DesignResult) :
    (s.commitSuccess d).operands = s.operands := rfl
@[simp] theorem State.commitSuccess_status (s : State) (d : DesignResult) :
    (s.commitSuccess d).status = { s.status with designed := true, firValid := false, audioValid := false } := rfl
@[simp] theorem State.commitSuccess_errCode (s : State) (d : DesignResult) :
    (s.commitSuccess d).errCode = s.errCode := rfl
@[simp] theorem State.commitSuccess_latched (s : State) (d : DesignResult) :
    (s.commitSuccess d).latched = {
      filterLen := BitVec.ofNat 32 d.len, resampleFactor := BitVec.ofNat 32 d.factor,
      decimActive := d.decim, beta := d.beta } := rfl
@[simp] theorem State.commitSuccess_results (s : State) (d : DesignResult) :
    (s.commitSuccess d).results = s.results := rfl
@[simp] theorem State.commitSuccess_counters (s : State) (d : DesignResult) :
    (s.commitSuccess d).counters = { nIn := 0#64, nFirOut := 0#64, nDemod := 0#64, nRsIn := 0#64, nAudio := 0#64 } := rfl
@[simp] theorem State.commitSuccess_coef (s : State) (d : DesignResult) :
    (s.commitSuccess d).coef = d.taps ++ s.coef.drop d.taps.length := rfl
@[simp] theorem State.commitSuccess_ring (s : State) (d : DesignResult) :
    (s.commitSuccess d).ring = drawRing s.params.lMax s.draws := rfl
@[simp] theorem State.commitSuccess_wr (s : State) (d : DesignResult) : (s.commitSuccess d).wr = 0 := rfl
@[simp] theorem State.commitSuccess_prev (s : State) (d : DesignResult) :
    (s.commitSuccess d).prev = (0#64, 0#64) := rfl
@[simp] theorem State.commitSuccess_fifo (s : State) (d : DesignResult) :
    (s.commitSuccess d).fifo = s.fifo := rfl
@[simp] theorem State.commitSuccess_pending (s : State) (d : DesignResult) :
    (s.commitSuccess d).pending = s.pending := rfl
@[simp] theorem State.commitSuccess_draws (s : State) (d : DesignResult) :
    (s.commitSuccess d).draws = s.draws + 2 * s.params.lMax := rfl
@[simp] theorem State.commitSuccess_agenda (s : State) (d : DesignResult) :
    (s.commitSuccess d).agenda = s.agenda := rfl
@[simp] theorem State.commitSuccess_hostReads (s : State) (d : DesignResult) :
    (s.commitSuccess d).hostReads = s.hostReads := rfl
@[simp] theorem State.commitSuccess_audioOut (s : State) (d : DesignResult) :
    (s.commitSuccess d).audioOut = s.audioOut := rfl

/-! ### State.commitFailure -/

@[simp] theorem State.commitFailure_params (s : State) : (s.commitFailure).params = s.params := rfl
@[simp] theorem State.commitFailure_cfg (s : State) : (s.commitFailure).cfg = s.cfg := rfl
@[simp] theorem State.commitFailure_operands (s : State) : (s.commitFailure).operands = s.operands := rfl
@[simp] theorem State.commitFailure_status (s : State) :
    (s.commitFailure).status = { s.status with designed := false } := rfl
@[simp] theorem State.commitFailure_errCode (s : State) : (s.commitFailure).errCode = s.errCode := rfl
@[simp] theorem State.commitFailure_latched (s : State) :
    (s.commitFailure).latched = { filterLen := 0#32, resampleFactor := 0#32, decimActive := 0#32, beta := 0#64 } := rfl
@[simp] theorem State.commitFailure_results (s : State) : (s.commitFailure).results = s.results := rfl
@[simp] theorem State.commitFailure_counters (s : State) : (s.commitFailure).counters = s.counters := rfl
@[simp] theorem State.commitFailure_coef (s : State) : (s.commitFailure).coef = s.coef := rfl
@[simp] theorem State.commitFailure_ring (s : State) : (s.commitFailure).ring = s.ring := rfl
@[simp] theorem State.commitFailure_wr (s : State) : (s.commitFailure).wr = s.wr := rfl
@[simp] theorem State.commitFailure_prev (s : State) : (s.commitFailure).prev = s.prev := rfl
@[simp] theorem State.commitFailure_fifo (s : State) : (s.commitFailure).fifo = s.fifo := rfl
@[simp] theorem State.commitFailure_pending (s : State) : (s.commitFailure).pending = s.pending := rfl
@[simp] theorem State.commitFailure_draws (s : State) : (s.commitFailure).draws = s.draws := rfl
@[simp] theorem State.commitFailure_agenda (s : State) : (s.commitFailure).agenda = s.agenda := rfl
@[simp] theorem State.commitFailure_hostReads (s : State) : (s.commitFailure).hostReads = s.hostReads := rfl
@[simp] theorem State.commitFailure_audioOut (s : State) : (s.commitFailure).audioOut = s.audioOut := rfl

/-! ### State.issue -/

@[simp] theorem State.issue_params (s : State) (v : Word) : (s.issue v).params = s.params := rfl
@[simp] theorem State.issue_cfg (s : State) (v : Word) : (s.issue v).cfg = s.cfg := rfl
@[simp] theorem State.issue_operands (s : State) (v : Word) : (s.issue v).operands = s.operands := rfl
@[simp] theorem State.issue_status (s : State) (v : Word) :
    (s.issue v).status = { s.status with busy := true } := rfl
@[simp] theorem State.issue_errCode (s : State) (v : Word) : (s.issue v).errCode = s.errCode := rfl
@[simp] theorem State.issue_latched (s : State) (v : Word) : (s.issue v).latched = s.latched := rfl
@[simp] theorem State.issue_results (s : State) (v : Word) : (s.issue v).results = s.results := rfl
@[simp] theorem State.issue_counters (s : State) (v : Word) : (s.issue v).counters = s.counters := rfl
@[simp] theorem State.issue_coef (s : State) (v : Word) : (s.issue v).coef = s.coef := rfl
@[simp] theorem State.issue_ring (s : State) (v : Word) : (s.issue v).ring = s.ring := rfl
@[simp] theorem State.issue_wr (s : State) (v : Word) : (s.issue v).wr = s.wr := rfl
@[simp] theorem State.issue_prev (s : State) (v : Word) : (s.issue v).prev = s.prev := rfl
@[simp] theorem State.issue_fifo (s : State) (v : Word) : (s.issue v).fifo = s.fifo := rfl
@[simp] theorem State.issue_pending (s : State) (v : Word) : (s.issue v).pending = v := rfl
@[simp] theorem State.issue_draws (s : State) (v : Word) : (s.issue v).draws = s.draws := rfl
@[simp] theorem State.issue_agenda (s : State) (v : Word) : (s.issue v).agenda = s.agenda := rfl
@[simp] theorem State.issue_hostReads (s : State) (v : Word) : (s.issue v).hostReads = s.hostReads := rfl
@[simp] theorem State.issue_audioOut (s : State) (v : Word) : (s.issue v).audioOut = s.audioOut := rfl

/-! ### State.writeStatus -/

@[simp] theorem State.writeStatus_params (s : State) (v : Word) : (s.writeStatus v).params = s.params := rfl
@[simp] theorem State.writeStatus_cfg (s : State) (v : Word) : (s.writeStatus v).cfg = s.cfg := rfl
@[simp] theorem State.writeStatus_operands (s : State) (v : Word) :
    (s.writeStatus v).operands = s.operands := rfl
@[simp] theorem State.writeStatus_status (s : State) (v : Word) :
    (s.writeStatus v).status = { s.status with
      err := !v.getLsbD 8 && s.status.err, nonfinite := !v.getLsbD 9 && s.status.nonfinite } := rfl
@[simp] theorem State.writeStatus_errCode (s : State) (v : Word) :
    (s.writeStatus v).errCode = if v.getLsbD 8 then .noError else s.errCode := rfl
@[simp] theorem State.writeStatus_latched (s : State) (v : Word) : (s.writeStatus v).latched = s.latched := rfl
@[simp] theorem State.writeStatus_results (s : State) (v : Word) : (s.writeStatus v).results = s.results := rfl
@[simp] theorem State.writeStatus_counters (s : State) (v : Word) :
    (s.writeStatus v).counters = s.counters := rfl
@[simp] theorem State.writeStatus_coef (s : State) (v : Word) : (s.writeStatus v).coef = s.coef := rfl
@[simp] theorem State.writeStatus_ring (s : State) (v : Word) : (s.writeStatus v).ring = s.ring := rfl
@[simp] theorem State.writeStatus_wr (s : State) (v : Word) : (s.writeStatus v).wr = s.wr := rfl
@[simp] theorem State.writeStatus_prev (s : State) (v : Word) : (s.writeStatus v).prev = s.prev := rfl
@[simp] theorem State.writeStatus_fifo (s : State) (v : Word) : (s.writeStatus v).fifo = s.fifo := rfl
@[simp] theorem State.writeStatus_pending (s : State) (v : Word) : (s.writeStatus v).pending = s.pending := rfl
@[simp] theorem State.writeStatus_draws (s : State) (v : Word) : (s.writeStatus v).draws = s.draws := rfl
@[simp] theorem State.writeStatus_agenda (s : State) (v : Word) : (s.writeStatus v).agenda = s.agenda := rfl
@[simp] theorem State.writeStatus_hostReads (s : State) (v : Word) :
    (s.writeStatus v).hostReads = s.hostReads := rfl
@[simp] theorem State.writeStatus_audioOut (s : State) (v : Word) :
    (s.writeStatus v).audioOut = s.audioOut := rfl

/-! ### State.turnTaken -/

@[simp] theorem State.turnTaken_params (s : State) : (s.turnTaken).params = s.params := rfl
@[simp] theorem State.turnTaken_cfg (s : State) : (s.turnTaken).cfg = s.cfg := rfl
@[simp] theorem State.turnTaken_operands (s : State) : (s.turnTaken).operands = s.operands := rfl
@[simp] theorem State.turnTaken_status (s : State) : (s.turnTaken).status = s.status := rfl
@[simp] theorem State.turnTaken_errCode (s : State) : (s.turnTaken).errCode = s.errCode := rfl
@[simp] theorem State.turnTaken_latched (s : State) : (s.turnTaken).latched = s.latched := rfl
@[simp] theorem State.turnTaken_results (s : State) : (s.turnTaken).results = s.results := rfl
@[simp] theorem State.turnTaken_counters (s : State) : (s.turnTaken).counters = s.counters := rfl
@[simp] theorem State.turnTaken_coef (s : State) : (s.turnTaken).coef = s.coef := rfl
@[simp] theorem State.turnTaken_ring (s : State) : (s.turnTaken).ring = s.ring := rfl
@[simp] theorem State.turnTaken_wr (s : State) : (s.turnTaken).wr = s.wr := rfl
@[simp] theorem State.turnTaken_prev (s : State) : (s.turnTaken).prev = s.prev := rfl
@[simp] theorem State.turnTaken_fifo (s : State) : (s.turnTaken).fifo = s.fifo := rfl
@[simp] theorem State.turnTaken_pending (s : State) : (s.turnTaken).pending = s.pending := rfl
@[simp] theorem State.turnTaken_draws (s : State) : (s.turnTaken).draws = s.draws := rfl
@[simp] theorem State.turnTaken_agenda (s : State) : (s.turnTaken).agenda = s.agenda.tail := rfl
@[simp] theorem State.turnTaken_hostReads (s : State) : (s.turnTaken).hostReads = s.hostReads := rfl
@[simp] theorem State.turnTaken_audioOut (s : State) : (s.turnTaken).audioOut = s.audioOut := rfl

/-! ### State.withHostRegisters -/

@[simp] theorem State.withHostRegisters_params (s r : State) : (s.withHostRegisters r).params = s.params := rfl
@[simp] theorem State.withHostRegisters_cfg (s r : State) : (s.withHostRegisters r).cfg = r.cfg := rfl
@[simp] theorem State.withHostRegisters_operands (s r : State) :
    (s.withHostRegisters r).operands = r.operands := rfl
@[simp] theorem State.withHostRegisters_status (s r : State) : (s.withHostRegisters r).status = s.status := rfl
@[simp] theorem State.withHostRegisters_errCode (s r : State) :
    (s.withHostRegisters r).errCode = s.errCode := rfl
@[simp] theorem State.withHostRegisters_latched (s r : State) :
    (s.withHostRegisters r).latched = s.latched := rfl
@[simp] theorem State.withHostRegisters_results (s r : State) :
    (s.withHostRegisters r).results = s.results := rfl
@[simp] theorem State.withHostRegisters_counters (s r : State) :
    (s.withHostRegisters r).counters = s.counters := rfl
@[simp] theorem State.withHostRegisters_coef (s r : State) : (s.withHostRegisters r).coef = s.coef := rfl
@[simp] theorem State.withHostRegisters_ring (s r : State) : (s.withHostRegisters r).ring = s.ring := rfl
@[simp] theorem State.withHostRegisters_wr (s r : State) : (s.withHostRegisters r).wr = s.wr := rfl
@[simp] theorem State.withHostRegisters_prev (s r : State) : (s.withHostRegisters r).prev = s.prev := rfl
@[simp] theorem State.withHostRegisters_fifo (s r : State) : (s.withHostRegisters r).fifo = s.fifo := rfl
@[simp] theorem State.withHostRegisters_pending (s r : State) :
    (s.withHostRegisters r).pending = s.pending := rfl
@[simp] theorem State.withHostRegisters_draws (s r : State) : (s.withHostRegisters r).draws = s.draws := rfl
@[simp] theorem State.withHostRegisters_agenda (s r : State) : (s.withHostRegisters r).agenda = s.agenda := rfl
@[simp] theorem State.withHostRegisters_hostReads (s r : State) :
    (s.withHostRegisters r).hostReads = s.hostReads := rfl
@[simp] theorem State.withHostRegisters_audioOut (s r : State) :
    (s.withHostRegisters r).audioOut = s.audioOut := rfl

/-! ### State.withCommand -/

@[simp] theorem State.withCommand_params (s : State) (v : Word) : (s.withCommand v).params = s.params := rfl
@[simp] theorem State.withCommand_cfg (s : State) (v : Word) : (s.withCommand v).cfg = s.cfg := rfl
@[simp] theorem State.withCommand_operands (s : State) (v : Word) :
    (s.withCommand v).operands = s.operands := rfl
@[simp] theorem State.withCommand_status (s : State) (v : Word) :
    (s.withCommand v).status = { s.status with busy := true } := rfl
@[simp] theorem State.withCommand_errCode (s : State) (v : Word) : (s.withCommand v).errCode = s.errCode := rfl
@[simp] theorem State.withCommand_latched (s : State) (v : Word) : (s.withCommand v).latched = s.latched := rfl
@[simp] theorem State.withCommand_results (s : State) (v : Word) : (s.withCommand v).results = s.results := rfl
@[simp] theorem State.withCommand_counters (s : State) (v : Word) :
    (s.withCommand v).counters = s.counters := rfl
@[simp] theorem State.withCommand_coef (s : State) (v : Word) : (s.withCommand v).coef = s.coef := rfl
@[simp] theorem State.withCommand_ring (s : State) (v : Word) : (s.withCommand v).ring = s.ring := rfl
@[simp] theorem State.withCommand_wr (s : State) (v : Word) : (s.withCommand v).wr = s.wr := rfl
@[simp] theorem State.withCommand_prev (s : State) (v : Word) : (s.withCommand v).prev = s.prev := rfl
@[simp] theorem State.withCommand_fifo (s : State) (v : Word) : (s.withCommand v).fifo = s.fifo := rfl
@[simp] theorem State.withCommand_pending (s : State) (v : Word) : (s.withCommand v).pending = v := rfl
@[simp] theorem State.withCommand_draws (s : State) (v : Word) : (s.withCommand v).draws = s.draws := rfl
@[simp] theorem State.withCommand_agenda (s : State) (v : Word) :
    (s.withCommand v).agenda = .core :: s.agenda := rfl
@[simp] theorem State.withCommand_hostReads (s : State) (v : Word) :
    (s.withCommand v).hostReads = s.hostReads := rfl
@[simp] theorem State.withCommand_audioOut (s : State) (v : Word) :
    (s.withCommand v).audioOut = s.audioOut := rfl

end Sys2Proof.Machine
end

