-- ==== Sys2Proof/Laws/Ops.lean ====
section
/-! SUPPORT. What each shared operation and each meaning can do: the tests in the spec's own terms, and one
inversion lemma per meaning, which later proofs cite instead of unfolding it. -/

namespace Sys2Proof.Machine

/-! ### The tests -/

theorem State.fifoFull_iff (s : State) : s.fifoFull = true ↔ s.fifo.length = s.params.fifoDepth := by
  simp [State.fifoFull]

theorem dividesCount_iff (d : Word) (n : BitVec 64) : dividesCount d n = true ↔ n.toNat % d.toNat = 0 := by
  simp [dividesCount]

theorem State.firEmits_iff (s : State) : s.firEmits = true ↔ s.EmitsFir := by
  simp only [State.firEmits, State.EmitsFir, Bool.and_eq_true, decide_eq_true_eq, dividesCount_iff]
  exact and_congr_left fun _ => by omega

theorem State.resampleEmits_iff (s : State) :
    s.resampleEmits = true ↔ s.counters.nRsIn.toNat % s.latched.resampleFactor.toNat = 0 :=
  dividesCount_iff _ _

theorem State.resampleHeld_iff {s : State} (h : s.status.designed = true) :
    s.resampleHeld = true ↔ s.HeldBy .resampleStep := by
  simp [State.resampleHeld, State.HeldBy, h, State.fifoFull_iff, State.resampleEmits_iff]

theorem State.pushHeld_iff {s : State} (h : s.status.designed = true) :
    s.pushHeld = true ↔ s.HeldBy .pushIq := by
  simp [State.pushHeld, State.HeldBy, h, State.fifoFull_iff, State.resampleEmits_iff, State.firEmits_iff,
    State.EmitsFir, and_assoc]

theorem State.filterFault_eq_none_iff (s : State) : s.filterFault = none ↔
    s.coef.length = s.params.lMax ∧ s.ring.length = s.params.lMax ∧
      s.latched.filterLen.toNat ≤ s.params.lMax ∧ s.wr < s.latched.filterLen.toNat ∧
      s.latched.filterLen.toNat % 2 = 1 ∧ s.latched.decimActive ≠ 0#32 := by
  unfold State.filterFault
  constructor
  · intro h
    split at h
    · cases h
    · split at h
      · cases h
      · split at h
        · cases h
        · exact ⟨by omega, by omega, by omega, by omega, by omega, ‹_›⟩
  · rintro ⟨h1, h2, h3, h4, h5, h6⟩
    rw [if_neg (by omega), if_neg (by omega), if_neg h6]

theorem State.resamplerFault_eq_none_iff (s : State) :
    s.resamplerFault = none ↔ s.latched.resampleFactor ≠ 0#32 := by
  simp [State.resamplerFault]

theorem State.FilterReady.filterFault {s : State} (h : s.FilterReady) : s.filterFault = none :=
  (State.filterFault_eq_none_iff s).2
    ⟨h.2.2.1, h.2.2.2, h.2.1.lenLe, h.2.1.wrLt, h.2.1.lenOdd, h.2.1.decimPos⟩

theorem State.Inv.filterReady {s : State} (h : s.Inv) (hd : s.status.designed = true) : s.FilterReady :=
  ⟨hd, h.designed hd, h.coefLen, h.ringLen⟩

theorem State.DesignedOk.resamplerFault {s : State} (h : s.DesignedOk) : s.resamplerFault = none :=
  (State.resamplerFault_eq_none_iff s).2 h.factorPos

/-! ### The units -/

/-- The filter unit: the sample is stored; the outputs are written, or FIR_VALID is cleared. -/
theorem State.firUnit_cases (s : State) (x y : F32) :
    (s.firEmits = true ∧ s.firUnit x y = (s.storeSample x y).emitFir
      (laneSum s.taps (((s.storeSample x y).window s.wr).map (·.1)))
      (laneSum s.taps (((s.storeSample x y).window s.wr).map (·.2)))) ∨
    (s.firEmits = false ∧ s.firUnit x y =
      { s.storeSample x y with status := { s.status with firValid := false } }) := by
  unfold State.firUnit
  cases h : s.firEmits
  · exact .inr ⟨rfl, rfl⟩
  · exact .inl ⟨rfl, rfl⟩

/-- The resampler unit: the sample is counted; it is emitted, or dropped with AUDIO_VALID cleared. -/
theorem State.resampleUnit_cases (s : State) (a : F64) :
    (s.resampleEmits = true ∧ s.resampleUnit a =
      { s with
        fifo := s.fifo ++ [quantize s.draws a]
        results := { s.results with audioLast := (quantize s.draws a).signExtend 32 }
        counters := { s.counters with nRsIn := s.counters.nRsIn + 1, nAudio := s.counters.nAudio + 1 }
        status := { s.status with audioValid := true, nonfinite := s.status.nonfinite || Fp.isNaN a }
        draws := s.draws + 1 }) ∨
    (s.resampleEmits = false ∧ s.resampleUnit a =
      { s with
        counters := { s.counters with nRsIn := s.counters.nRsIn + 1 }
        status := { s.status with audioValid := false } }) := by
  unfold State.resampleUnit
  cases h : s.resampleEmits
  · exact .inr ⟨rfl, rfl⟩
  · exact .inl ⟨rfl, rfl⟩

theorem timeOrder_length (ring : List (F32 × F32)) (newest len : Nat) :
    (timeOrder ring newest len).length = len := by
  simp [timeOrder]

theorem State.taps_length {s : State} (h : s.FilterReady) : s.taps.length = s.latched.filterLen.toNat := by
  have := h.2.1.lenLe
  rw [State.taps, List.length_take, h.2.2.1]
  omega

@[simp] theorem drawRing_length (n d : Nat) : (drawRing n d).length = n := by simp [drawRing]

/-! ### The meanings -/

theorem execFirStep_cases {s t : State} (h : execFirStep s = .next t) :
    (s.status.designed = false ∧ t = s.raise .notDesigned) ∨
    (s.status.designed = true ∧ s.filterFault = none ∧
      t = (s.firUnit s.operands.inI s.operands.inQ).complete) := by
  unfold execFirStep at h
  split at h
  · cases h; exact .inl ⟨‹_›, rfl⟩
  · split at h
    · cases h
    · cases h; exact .inr ⟨Bool.eq_true_of_not_eq_false ‹¬ _›, ‹_›, rfl⟩

theorem execResampleStep_cases {s t : State} (h : execResampleStep s = .next t) :
    (s.status.designed = false ∧ t = s.raise .notDesigned) ∨
    (s.status.designed = true ∧ s.HeldBy .resampleStep ∧ t = s) ∨
    (s.status.designed = true ∧ ¬ s.HeldBy .resampleStep ∧ s.latched.resampleFactor ≠ 0#32 ∧
      t = (s.resampleUnit s.operands.scalarIn).complete) := by
  unfold execResampleStep at h
  split at h
  · cases h; exact .inl ⟨‹_›, rfl⟩
  · have hd : s.status.designed = true := Bool.eq_true_of_not_eq_false ‹¬ _›
    split at h
    · cases h
    · cases h
      right
      split
      · exact .inl ⟨hd, (State.resampleHeld_iff hd).1 ‹_›, rfl⟩
      · exact .inr ⟨hd, fun hh => ‹¬ _› ((State.resampleHeld_iff hd).2 hh),
          (State.resamplerFault_eq_none_iff s).1 ‹_›, rfl⟩

theorem execPushIq_cases {s t : State} (h : execPushIq s = .next t) :
    (s.status.designed = false ∧ t = s.raise .notDesigned) ∨
    (s.status.designed = true ∧ s.HeldBy .pushIq ∧ t = s) ∨
    (s.status.designed = true ∧ ¬ s.HeldBy .pushIq ∧ s.filterFault = none ∧ s.resamplerFault = none ∧
      t = (s.pushUnits s.operands.inI s.operands.inQ).complete) := by
  unfold execPushIq at h
  split at h
  · cases h; exact .inl ⟨‹_›, rfl⟩
  · have hd : s.status.designed = true := Bool.eq_true_of_not_eq_false ‹¬ _›
    split at h
    · cases h
    · cases h
    · cases h
      right
      split
      · exact .inl ⟨hd, (State.pushHeld_iff hd).1 ‹_›, rfl⟩
      · exact .inr ⟨hd, fun hh => ‹¬ _› ((State.pushHeld_iff hd).2 hh), ‹_›, ‹_›, rfl⟩

theorem execDesign_cases {s t : State} (h : execDesign s = .next t) :
    (∃ d, designOf s.params.lMax s.cfg = .ok d ∧ t = (s.commitSuccess d).complete) ∨
    (∃ c, designOf s.params.lMax s.cfg = .error c ∧ t = s.commitFailure.raise c) := by
  unfold execDesign State.finishDesign at h
  split at h
  · cases h; exact .inl ⟨_, ‹_›, rfl⟩
  · cases h; exact .inr ⟨_, ‹_›, rfl⟩

/-! ### DESIGN -/

/-- The loop of R106: every tap it answers is the one its body computes, in order. -/
theorem tapLoop_ok {f : Nat → Except ErrCode F64} {count n : Nat} {h : List F64}
    (hl : tapLoop f count n = .ok h) :
    h.length = count ∧ ∀ i, i < count → ∃ v, f (n + i) = .ok v ∧ h[i]? = some v := by
  induction count generalizing n h with
  | zero => cases hl; simp
  | succ count ih =>
    simp only [tapLoop] at hl
    split at hl
    · cases hl
    · split at hl
      · cases hl
      · cases hl
        obtain ⟨h1, h2⟩ := ih ‹_›
        refine ⟨by simp [h1], fun i hi => ?_⟩
        cases i with
        | zero => exact ⟨_, ‹f n = _›, rfl⟩
        | succ i =>
          obtain ⟨v, hv, hg⟩ := h2 i (by omega)
          exact ⟨v, by rw [← hv]; congr 1; omega, by simpa using hg⟩

theorem tap_ok {w alpha g beta i0b h : F64} {n : Nat} (ht : tap w alpha g beta i0b n = .ok h) :
    ∃ v, kaiserWindow (Fp.sub (Fp.ofNat n) alpha) alpha beta i0b = .ok v ∧
      h = Fp.mul (Fp.mul (sinc (Fp.sub (Fp.ofNat n) alpha) w) v) g ∧ Fp.isFinite h = true := by
  unfold tap at ht
  dsimp only at ht
  split at ht
  · cases ht
  · split at ht
    · cases ht; exact ⟨_, ‹_›, rfl, ‹_›⟩
    · cases ht

/-- The length test of R102, with the length it forces named. -/
theorem forceOdd_pos {lMax : Nat} {n : Int} (hn : 0 < n) :
    ∃ len : Nat, len % 2 = 1 ∧ n ≤ len ∧ (len : Int) ≤ n + 1 ∧
      forceOdd lMax n = if lMax < len then .error .lenExceedsCapacity else .ok len := by
  refine ⟨if n % 2 = 1 then n.toNat else n.toNat + 1, ?_, ?_, ?_, if_neg (by omega)⟩ <;>
    split <;> omega

/-- A length the filter can have: odd and at most the capacity. -/
theorem filterLength_ok {lMax : Nat} {rdb tw fs : F64} {len : Nat} (h : filterLength lMax rdb tw fs = .ok len) :
    len % 2 = 1 ∧ len ≤ lMax := by
  unfold filterLength at h
  dsimp only at h
  split at h
  · cases h
  · rcases lt_or_ge 0 (Fp.ceil (orderQuotient rdb tw fs) + 1) with hn | hn
    · obtain ⟨k, hk, -, -, he⟩ := forceOdd_pos (lMax := lMax) hn
      rw [he] at h
      split at h <;> cases h
      exact ⟨hk, by omega⟩
    · rw [forceOdd, if_pos hn] at h
      cases h

/-- What a successful DESIGN has gone through. -/
theorem designOf_ok {lMax : Nat} {c : ConfigRegs} {d : DesignResult} (h : designOf lMax c = .ok d) :
    ∃ i0b, checkFields c = .ok () ∧ filterLength lMax c.ripple c.twidth c.fs = .ok d.len ∧
      resampleFactorOf c.fs c.decim c.targetRate = .ok d.factor ∧ besselI0 (kaiserBeta c.ripple) = .ok i0b ∧
      coefficients c.cutoff c.fs c.gain (kaiserBeta c.ripple) i0b d.len = .ok d.taps ∧
      d.beta = kaiserBeta c.ripple ∧ d.decim = c.decim := by
  unfold designOf at h
  cases h1 : checkFields c with
  | error e => simp [h1, bind, Except.bind] at h
  | ok u =>
    cases h2 : filterLength lMax c.ripple c.twidth c.fs with
    | error e => simp [h1, h2, bind, Except.bind] at h
    | ok len =>
      cases h3 : resampleFactorOf c.fs c.decim c.targetRate with
      | error e => simp [h1, h2, h3, bind, Except.bind] at h
      | ok factor =>
        cases h4 : besselI0 (kaiserBeta c.ripple) with
        | error e => simp [h1, h2, h3, h4, bind, Except.bind] at h
        | ok i0b =>
          cases h5 : coefficients c.cutoff c.fs c.gain (kaiserBeta c.ripple) i0b len with
          | error e => simp [h1, h2, h3, h4, h5, bind, Except.bind] at h
          | ok taps =>
            simp only [h1, h2, h3, h4, h5, bind, Except.bind, pure, Except.pure] at h
            cases h
            exact ⟨i0b, rfl, rfl, rfl, rfl, h5, rfl, rfl⟩

theorem designOf_taps_length {lMax : Nat} {c : ConfigRegs} {d : DesignResult} (h : designOf lMax c = .ok d) :
    d.taps.length = d.len := by
  obtain ⟨i0b, -, -, -, -, h5, -⟩ := designOf_ok h
  exact (tapLoop_ok h5).1

theorem designOf_taps_finite {lMax : Nat} {c : ConfigRegs} {d : DesignResult} (h : designOf lMax c = .ok d) :
    ∀ x ∈ d.taps, Fp.isFinite x = true := by
  obtain ⟨i0b, -, -, -, -, h5, -⟩ := designOf_ok h
  obtain ⟨hlen, hall⟩ := tapLoop_ok h5
  intro x hx
  obtain ⟨i, hi, rfl⟩ := List.mem_iff_getElem.1 hx
  obtain ⟨v, hv, hg⟩ := hall i (by omega)
  obtain ⟨-, -, -, hf⟩ := tap_ok hv
  rw [List.getElem?_eq_getElem hi] at hg
  exact (Option.some.inj hg) ▸ hf

/-- `COEF` keeps its size when a design that fits is committed (R62). -/
theorem commitSuccess_coef_length {s : State} {d : DesignResult} (hs : s.coef.length = s.params.lMax)
    (h : designOf s.params.lMax s.cfg = .ok d) : (s.commitSuccess d).coef.length = s.params.lMax := by
  obtain ⟨i0b, -, h2, -⟩ := designOf_ok h
  have := (filterLength_ok h2).2
  have := designOf_taps_length h
  simp only [State.commitSuccess_coef, List.length_append, List.length_drop]
  omega

end Sys2Proof.Machine
end

