-- ==== Sys2Proof/Laws/Step.lean ====
section
/-! SUPPORT. What one step can do: by the turn that is taken, and for the core engine's turn by the command. -/

namespace Sys2Proof.Machine

/-! ### The host's accesses -/

theorem State.onAccess_next {s t : State} {w : Width} {addr : Nat} {k : Nat → State}
    (h : s.onAccess w addr k = .next t) :
    ∃ off, addr = s.params.base + off ∧ off ≤ 0xFFFF ∧ w = .word ∧ off % 4 = 0 ∧ t = k off := by
  unfold State.onAccess State.busOffset at h
  split at h
  · cases h
  · split at h
    · rename_i off ho hw
      split at ho
      · cases ho; cases h
        exact ⟨_, by omega, by omega, hw.1, hw.2, rfl⟩
      · cases ho
    · cases h

theorem State.onAccess_base (s : State) (w : Width) (off : Nat) (k : Nat → State) (h : off ≤ 0xFFFF) :
    s.onAccess w (s.params.base + off) k =
      if w = .word ∧ off % 4 = 0 then .next (k off) else .refused .notAlignedWord := by
  have : s.busOffset (s.params.base + off) = some off := by
    unfold State.busOffset
    rw [if_pos (by omega)]
    congr 1; omega
  unfold State.onAccess
  rw [this]

/-- An access answers, or is refused for one of two reasons. -/
theorem State.onAccess_total (s : State) (w : Width) (addr : Nat) (k : Nat → State) :
    (∃ off, s.onAccess w addr k = .next (k off)) ∨ s.onAccess w addr k = .refused .outsideWindow ∨
      s.onAccess w addr k = .refused .notAlignedWord := by
  unfold State.onAccess
  split
  · exact .inr (.inl rfl)
  · split
    · exact .inl ⟨_, rfl⟩
    · exact .inr (.inr rfl)

/-- A write: nothing, a report, or the word written. -/
theorem State.memWrite_cases (s : State) (off : Nat) (v : Word) :
    s.memWrite off v = s ∨ (s.status.busy = true ∧ s.memWrite off v = s.report .writeWhileBusy) ∨
    (s.status.busy = false ∧ s.memWrite off v = s.writeWord (busWordAt s.params.lMax off) v) := by
  unfold State.memWrite
  dsimp only
  split
  · split
    · exact .inr (.inl ⟨‹_›, rfl⟩)
    · exact .inr (.inr ⟨Bool.eq_false_iff.2 ‹_›, rfl⟩)
  · exact .inl rfl

/-- What an accepted write changes: CMD makes a command pending, STATUS is the W1C write, any other register
word changes the host's registers alone. -/
theorem State.writeWord_cases (s : State) (b : BusWord) (v : Word) :
    (b = .cmd ∧ s.writeWord b v = s.issue v) ∨ (b = .status ∧ s.writeWord b v = s.writeStatus v) ∨
    s.writeWord b v = s.withHostRegisters (s.writeWord b v) := by
  cases b
  case cmd => exact .inl ⟨rfl, rfl⟩
  case status => exact .inr (.inl ⟨rfl, rfl⟩)
  case lo r => cases r <;> exact .inr (.inr rfl)
  case hi r => cases r <;> exact .inr (.inr rfl)
  all_goals exact .inr (.inr rfl)

/-- A write to CMD is the only one that reaches CMD's bus word. -/
theorem busWordAt_eq_cmd {lMax off : Nat} (h : busWordAt lMax off = .cmd) : off = 0x010 := by
  unfold busWordAt at h
  split at h
  · split at h <;> cases h
  · simp only [registerMap, registerMapLow, registerMapMid, registerMapHigh, List.cons_append,
      List.nil_append, List.lookup_cons] at h
    repeat' split at h
    all_goals first | cases h; done | (rename_i hh; simpa using hh)

/-! ### The turns -/

theorem State.coreTurn_cases {s t : State} (h : s.coreTurn = .next t) :
    (s.status.busy = false ∧ t = s) ∨
    (s.status.busy = true ∧ decodeWord s.pending = none ∧ t = s.raise .illegalCmd) ∨
    (s.status.busy = true ∧ ∃ i, decodeWord s.pending = some i ∧ exec i s = .next t) := by
  unfold State.coreTurn at h
  split at h
  · split at h
    · exact .inr (.inr ⟨‹_›, _, ‹_›, h⟩)
    · cases h; exact .inr (.inl ⟨‹_›, ‹_›, rfl⟩)
  · cases h; exact .inl ⟨Bool.eq_false_iff.2 ‹_›, rfl⟩

theorem State.sinkTurn_cases (s : State) :
    (s.fifo = [] ∧ s.sinkTurn = s) ∨
    ∃ q rest, s.fifo = q :: rest ∧ s.sinkTurn = { s with fifo := rest, audioOut := s.audioOut ++ [q] } := by
  unfold State.sinkTurn
  split
  · exact .inl ⟨‹_›, rfl⟩
  · exact .inr ⟨_, _, ‹_›, rfl⟩

theorem step_coreMoves {s : State} (h : s.CoreMoves) : step s = s.turnTaken.coreTurn := by
  unfold step State.nextTurn
  rcases h with h | ⟨rest, h⟩
  · rw [h]
    have : s.turnTaken = s := by
      cases s; simp only [State.turnTaken] at *; subst h; rfl
    rw [this]
  · rw [h]; simp only [State.takeTurn, State.turnTaken, h, List.tail_cons]

theorem step_cons {s : State} {u : Turn} {rest : List Turn} (h : s.agenda = u :: rest) :
    step s = s.turnTaken.takeTurn u := by
  unfold step State.nextTurn
  rw [h]; simp only [State.turnTaken, h, List.tail_cons]

/-- Every step is a turn of one agent. -/
theorem step_cases {s t : State} (h : step s = .next t) :
    (s.CoreMoves ∧ s.turnTaken.coreTurn = .next t) ∨
    (∃ rest, s.agenda = .sink :: rest ∧ t = s.turnTaken.sinkTurn) ∨
    (∃ rest, s.agenda = .reset :: rest ∧ t = s.turnTaken.resetTurn) ∨
    (∃ off rest, s.agenda = .hostRead .word (s.params.base + off) :: rest ∧ off % 4 = 0 ∧ off ≤ 0xFFFF ∧
      t = { s.turnTaken with hostReads := s.hostReads ++ [s.memRead off] }) ∨
    (∃ off v rest, s.agenda = .hostWrite .word (s.params.base + off) v :: rest ∧ off % 4 = 0 ∧ off ≤ 0xFFFF ∧
      t = s.turnTaken.memWrite off v) := by
  cases ha : s.agenda with
  | nil =>
    have hc : s.CoreMoves := .inl ha
    exact .inl ⟨hc, step_coreMoves hc ▸ h⟩
  | cons u rest =>
    rw [step_cons ha] at h
    cases u with
    | core => exact .inl ⟨.inr ⟨rest, ha⟩, h⟩
    | sink => cases h; exact .inr (.inl ⟨rest, rfl, rfl⟩)
    | reset => cases h; exact .inr (.inr (.inl ⟨rest, rfl, rfl⟩))
    | hostRead w addr =>
      obtain ⟨off, rfl, h1, rfl, h2, rfl⟩ := State.onAccess_next h
      exact .inr (.inr (.inr (.inl ⟨off, rest, rfl, h2, h1, rfl⟩)))
    | hostWrite w addr v =>
      obtain ⟨off, rfl, h1, rfl, h2, rfl⟩ := State.onAccess_next h
      exact .inr (.inr (.inr (.inr ⟨off, v, rest, rfl, h2, h1, rfl⟩)))

/-- A run of `k + 1` steps takes one step and runs on. -/
theorem run_succ (M : Host.Core) {s t : M.State} {k : Nat} (h : M.run (k + 1) s = .next t) :
    ∃ u, M.step s = .next u ∧ M.run k u = .next t := by
  rw [Host.Core.run] at h
  cases hs : M.step s with
  | next u => rw [hs] at h; exact ⟨u, rfl, h⟩
  | fault r => rw [hs] at h; cases h
  | refused r => rw [hs] at h; cases h

/-- `run_succ` for this machine. -/
theorem core_run_succ {s t : State} {k : Nat} (h : Sys2Proof.core.run (k + 1) s = .next t) :
    ∃ u, step s = .next u ∧ Sys2Proof.core.run k u = .next t := run_succ Sys2Proof.core h

end Sys2Proof.Machine
end

