-- ==== Sys2Proof/Laws/Exec.lean ====
section
/-! SUPPORT. What a command can do, once for all commands; the frames of the units; the range of the angle. -/

namespace Sys2Proof.Machine

/-! ### The errors a DESIGN can raise -/

theorem checkFields_error {c : ConfigRegs} {e : ErrCode} (h : checkFields c = .error e) : e ≠ .noError := by
  unfold checkFields at h
  repeat' split at h
  all_goals first | (cases h; done) | (injection h with h; subst h; decide)

theorem filterLength_error {lMax : Nat} {rdb tw fs : F64} {e : ErrCode}
    (h : filterLength lMax rdb tw fs = .error e) : e ≠ .noError := by
  unfold filterLength at h
  dsimp only at h
  split at h
  · cases h; decide
  · rcases lt_or_ge 0 (Fp.ceil (orderQuotient rdb tw fs) + 1) with hn | hn
    · obtain ⟨k, -, -, -, he⟩ := forceOdd_pos (lMax := lMax) hn
      rw [he] at h
      split at h <;> cases h
      decide
    · rw [forceOdd, if_pos hn] at h
      cases h; decide

theorem resampleFactorOf_error {fs : F64} {d tr : Word} {e : ErrCode}
    (h : resampleFactorOf fs d tr = .error e) : e ≠ .noError := by
  unfold resampleFactorOf at h
  dsimp only at h
  repeat' split at h
  all_goals first | (cases h; done) | (injection h with h; subst h; decide)

theorem seriesLoop_error {y s term : F64} {budget k : Nat} {e : ErrCode}
    (h : seriesLoop y budget s term k = some (.error e)) : e = .besselOverflow := by
  induction budget generalizing s term k with
  | zero => cases h
  | succ budget ih =>
    simp only [seriesLoop] at h
    repeat' split at h
    · injection h with h; injection h with h; exact h.symm
    · injection h with h; cases h
    · injection h with h; injection h with h; exact h.symm
    · exact ih h

theorem besselI0_error {x : F64} {e : ErrCode} (h : besselI0 x = .error e) : e = .besselOverflow := by
  unfold besselI0 at h
  cases hs : seriesLoop (Fp.div x Fp.two) seriesBudget Fp.one Fp.one 1 with
  | none => rw [hs] at h; cases h
  | some r => rw [hs] at h; exact seriesLoop_error (hs.trans (congrArg some h))

theorem tap_error {w alpha g beta i0b : F64} {n : Nat} {e : ErrCode}
    (h : tap w alpha g beta i0b n = .error e) : e ≠ .noError := by
  unfold tap kaiserWindow at h
  dsimp only at h
  split at h
  · rename_i hw
    injection h with h; subst h
    split at hw
    · cases hw
    · split at hw
      · rename_i hb
        injection hw with hw; subst hw
        rw [besselI0_error hb]; decide
      · cases hw
  · split at h
    · cases h
    · injection h with h; subst h; decide

theorem tapLoop_error {f : Nat → Except ErrCode F64} (hf : ∀ n e, f n = .error e → e ≠ .noError)
    {count n : Nat} {e : ErrCode} (h : tapLoop f count n = .error e) : e ≠ .noError := by
  induction count generalizing n with
  | zero => cases h
  | succ count ih =>
    simp only [tapLoop] at h
    split at h
    · injection h with h; subst h; exact hf _ _ ‹_›
    · split at h
      · injection h with h; subst h; exact ih ‹_›
      · cases h

/-- A DESIGN that raises raises an error (R147: code 0 is no error). -/
theorem designOf_error {lMax : Nat} {c : ConfigRegs} {e : ErrCode} (h : designOf lMax c = .error e) :
    e ≠ .noError := by
  unfold designOf at h
  cases h1 : checkFields c with
  | error e1 => simp only [h1, bind, Except.bind] at h; cases h; exact checkFields_error h1
  | ok u =>
    cases h2 : filterLength lMax c.ripple c.twidth c.fs with
    | error e1 => simp only [h1, h2, bind, Except.bind] at h; cases h; exact filterLength_error h2
    | ok len =>
      cases h3 : resampleFactorOf c.fs c.decim c.targetRate with
      | error e1 => simp only [h1, h2, h3, bind, Except.bind] at h; cases h; exact resampleFactorOf_error h3
      | ok factor =>
        cases h4 : besselI0 (kaiserBeta c.ripple) with
        | error e1 =>
          simp only [h1, h2, h3, h4, bind, Except.bind] at h
          cases h; rw [besselI0_error h4]; decide
        | ok i0b =>
          cases h5 : coefficients c.cutoff c.fs c.gain (kaiserBeta c.ripple) i0b len with
          | error e1 =>
            simp only [h1, h2, h3, h4, h5, bind, Except.bind] at h
            cases h; exact tapLoop_error (fun _ _ => tap_error) h5
          | ok taps => simp only [h1, h2, h3, h4, h5, bind, Except.bind, pure, Except.pure] at h; cases h

/-! ### The frames of the units -/

/-- Everything the filter unit leaves, and what it does to WR and the counters. -/
theorem State.firUnit_frame (s : State) (x y : F32) :
    let t := s.firUnit x y
    (t.params = s.params ∧ t.cfg = s.cfg ∧ t.operands = s.operands ∧ t.errCode = s.errCode ∧
      t.latched = s.latched ∧ t.coef = s.coef ∧ t.prev = s.prev ∧ t.fifo = s.fifo ∧ t.pending = s.pending ∧
      t.agenda = s.agenda ∧ t.hostReads = s.hostReads ∧ t.audioOut = s.audioOut) ∧
    (t.status.busy = s.status.busy ∧ t.status.designed = s.status.designed ∧
      t.status.audioValid = s.status.audioValid ∧ t.status.err = s.status.err ∧
      t.status.nonfinite = s.status.nonfinite) ∧
    (t.results.angle = s.results.angle ∧ t.results.audioLast = s.results.audioLast) ∧
    (t.counters.nIn = s.counters.nIn + 1 ∧ t.counters.nDemod = s.counters.nDemod ∧
      t.counters.nRsIn = s.counters.nRsIn ∧ t.counters.nAudio = s.counters.nAudio ∧
      t.counters.nFirOut = if s.firEmits then s.counters.nFirOut + 1 else s.counters.nFirOut) ∧
    t.ring = s.ring.set s.wr (x, y) ∧ t.wr = (s.wr + 1) % s.latched.filterLen.toNat := by
  rcases s.firUnit_cases x y with ⟨h1, h⟩ | ⟨h1, h⟩ <;> simp [h, h1]

/-- Everything the resampler unit leaves, and what it does to the FIFO. -/
theorem State.resampleUnit_frame (s : State) (a : F64) :
    let t := s.resampleUnit a
    (t.params = s.params ∧ t.cfg = s.cfg ∧ t.operands = s.operands ∧ t.errCode = s.errCode ∧
      t.latched = s.latched ∧ t.coef = s.coef ∧ t.ring = s.ring ∧ t.wr = s.wr ∧ t.prev = s.prev ∧
      t.pending = s.pending ∧ t.agenda = s.agenda ∧ t.hostReads = s.hostReads ∧ t.audioOut = s.audioOut) ∧
    (t.status.busy = s.status.busy ∧ t.status.designed = s.status.designed ∧
      t.status.firValid = s.status.firValid ∧ t.status.err = s.status.err ∧
      (s.status.nonfinite = true → t.status.nonfinite = true)) ∧
    (t.results.firOutI = s.results.firOutI ∧ t.results.firOutQ = s.results.firOutQ ∧
      t.results.angle = s.results.angle) ∧
    (t.counters.nIn = s.counters.nIn ∧ t.counters.nFirOut = s.counters.nFirOut ∧
      t.counters.nDemod = s.counters.nDemod) ∧
    ((t.fifo = s.fifo ∧ t.results.audioLast = s.results.audioLast) ∨
      (s.resampleEmits = true ∧ ∃ q : BitVec 16,
        t.fifo = s.fifo ++ [q] ∧ t.results.audioLast = q.signExtend 32)) := by
  rcases s.resampleUnit_cases a with ⟨h1, h⟩ | ⟨h1, h⟩ <;> simp [h, h1]
  intro h; simp [h]

/-- Everything the chain of the units leaves, and what it does to WR, the counters, the angle and the FIFO. -/
theorem State.pushUnits_frame (s : State) (x y : F32) :
    let t := s.pushUnits x y
    (t.params = s.params ∧ t.cfg = s.cfg ∧ t.operands = s.operands ∧ t.errCode = s.errCode ∧
      t.latched = s.latched ∧ t.coef = s.coef ∧ t.pending = s.pending ∧ t.agenda = s.agenda ∧
      t.hostReads = s.hostReads ∧ t.audioOut = s.audioOut) ∧
    (t.status.busy = s.status.busy ∧ t.status.designed = s.status.designed ∧ t.status.err = s.status.err ∧
      (s.status.nonfinite = true → t.status.nonfinite = true)) ∧
    (t.results.angle = s.results.angle ∨ ∃ (u : State) (c : F64 × F64), t.results.angle = u.demodAngle c) ∧
    ((t.fifo = s.fifo ∧ t.results.audioLast = s.results.audioLast) ∨
      (s.firEmits = true ∧ s.resampleEmits = true ∧ ∃ q : BitVec 16,
        t.fifo = s.fifo ++ [q] ∧ t.results.audioLast = q.signExtend 32)) ∧
    (t.counters.nIn = s.counters.nIn + 1 ∧
      t.counters.nFirOut = if s.firEmits then s.counters.nFirOut + 1 else s.counters.nFirOut) ∧
    t.ring = s.ring.set s.wr (x, y) ∧ t.wr = (s.wr + 1) % s.latched.filterLen.toNat := by
  have hf := s.firUnit_frame x y
  unfold State.pushUnits
  dsimp only at *
  generalize s.firUnit x y = f at *
  split
  · rename_i he
    have hr := State.resampleUnit_frame (f.demodUnit f.results.firOutI f.results.firOutQ)
      (f.demodUnit f.results.firOutI f.results.firOutQ).results.angle
    have hre : (f.demodUnit f.results.firOutI f.results.firOutQ).resampleEmits = s.resampleEmits := by
      simp [State.resampleEmits, hf]
    rw [hre] at hr
    dsimp only at hr
    generalize State.resampleUnit _ _ = r at *
    simp only [he, if_true] at hf
    simp only [hr, hf, he, State.demodUnit_params, State.demodUnit_cfg, State.demodUnit_operands,
      State.demodUnit_errCode, State.demodUnit_latched, State.demodUnit_coef, State.demodUnit_ring,
      State.demodUnit_wr, State.demodUnit_pending, State.demodUnit_agenda, State.demodUnit_hostReads,
      State.demodUnit_audioOut, State.demodUnit_status, State.demodUnit_counters, State.demodUnit_results,
      true_and, and_true]
    refine ⟨fun h => hr.2.1.2.2.2.2 (by simp [hf, h]), .inr ⟨f, _, rfl⟩, ?_⟩
    simpa [hf] using hr.2.2.2.2
  · rename_i he
    simp [hf, he]

/-! ### Every command -/

/-- What any command can do: it is held and changes nothing; it raises NOT_DESIGNED; or it has its effect. -/
theorem exec_cases {i : Instr} {s t : State} (h : exec i s = .next t) :
    (s.HeldBy i ∧ t = s) ∨
    ((i = .firStep ∨ i = .resampleStep ∨ i = .pushIq) ∧ s.status.designed = false ∧ t = s.raise .notDesigned) ∨
    (i = .nop ∧ t = s.complete) ∨ (i = .start ∧ t = s.startStream.complete) ∨
    (i = .design ∧ ∃ d, designOf s.params.lMax s.cfg = .ok d ∧ t = (s.commitSuccess d).complete) ∨
    (i = .design ∧ ∃ c, designOf s.params.lMax s.cfg = .error c ∧ t = s.commitFailure.raise c) ∨
    (i = .demodStep ∧ t = (s.demodUnit s.operands.dinI s.operands.dinQ).complete) ∨
    (i = .firStep ∧ s.status.designed = true ∧ s.filterFault = none ∧
      t = (s.firUnit s.operands.inI s.operands.inQ).complete) ∨
    (i = .resampleStep ∧ s.status.designed = true ∧ ¬ s.HeldBy i ∧ s.resamplerFault = none ∧
      t = (s.resampleUnit s.operands.scalarIn).complete) ∨
    (i = .pushIq ∧ s.status.designed = true ∧ ¬ s.HeldBy i ∧ s.filterFault = none ∧ s.resamplerFault = none ∧
      t = (s.pushUnits s.operands.inI s.operands.inQ).complete) := by
  cases i
  case nop => cases h; simp
  case start => cases h; simp
  case demodStep => cases h; simp
  case design => exact (execDesign_cases h).elim (fun h => by simp [h]) (fun h => by simp [h])
  case firStep => rcases execFirStep_cases h with h | h <;> simp [h]
  case resampleStep =>
    rcases execResampleStep_cases h with h | h | h <;> simp [h, State.resamplerFault_eq_none_iff]
  case pushIq => rcases execPushIq_cases h with h | h | h <;> simp [h]

/-! ### The angle -/

theorem drawAngle_range (n : Nat) : inHalfOpenPi (drawAngle n) = true := by
  unfold drawAngle
  dsimp only
  split
  · assumption
  · decide +kernel

theorem isNaN_drawNaN (n : Nat) : Fp.isNaN (drawNaN n) = true := by
  unfold drawNaN Fp.quietNaN
  generalize Config.drawBits n = b
  simp only [Fp.isNaN, Fp.mag, Fp.infMag, BitVec.toNat_or, BitVec.toNat_ofNat, Nat.or_mod_two_pow,
    decide_eq_true_eq]
  refine Nat.lt_of_lt_of_le ?_ Nat.right_le_or
  norm_num

theorem isNaN_settleNaN (n : Nat) (v : F64) : Fp.isNaN (settleNaN n v) = Fp.isNaN v := by
  unfold settleNaN
  split
  · rw [isNaN_drawNaN, ‹Fp.isNaN v = true›]
  · rfl

theorem settleNaN_of_not_nan {n : Nat} {v : F64} (h : Fp.isNaN v = false) : settleNaN n v = v := by
  simp [settleNaN, h]

/-- What the arctangent can answer (R21). -/
theorem ATAN2_cases (y x : F64) :
    ((Fp.isNaN y = true ∨ Fp.isNaN x = true) ∧ ATAN2 y x = Fp.nan) ∨
    (Fp.eq y 0#64 = true ∧ Fp.eq x 0#64 = true) ∨ inClosedPi (ATAN2 y x) = true := by
  unfold ATAN2
  dsimp only
  split
  · exact .inl ⟨Bool.or_eq_true_iff.1 ‹_›, rfl⟩
  · split
    · exact .inr (.inl (Bool.and_eq_true_iff.1 ‹_›))
    · right; right
      split
      · assumption
      · decide +kernel

/-- R126: an angle is a NaN or lies in the half-open range. -/
theorem State.demodAngle_range (s : State) (c : F64 × F64) :
    Fp.isNaN (s.demodAngle c) = true ∨ inHalfOpenPi (s.demodAngle c) = true := by
  unfold State.demodAngle
  split
  · exact .inr (drawAngle_range _)
  · rename_i hd
    cases hn : Fp.isNaN (halfOpenAtan2 (productIm c s.prev) (productRe c s.prev)) with
    | true => exact .inl (by rw [isNaN_settleNaN, hn])
    | false =>
      right
      rw [settleNaN_of_not_nan hn]
      unfold halfOpenAtan2 at hn ⊢
      dsimp only at hn ⊢
      split
      · decide +kernel
      · rename_i he
        rw [if_neg he] at hn
        rcases ATAN2_cases (productIm c s.prev) (productRe c s.prev) with ⟨-, h⟩ | h | h
        · rw [h] at hn; exact absurd hn (by decide +kernel)
        · exact absurd (by simp [State.demodDegenerate, h]) hd
        · simp only [inClosedPi, inHalfOpenPi, Fp.le, Fp.lt, Fp.eq, Bool.and_eq_true, decide_eq_true_eq,
            Bool.not_eq_true'] at h he ⊢
          obtain ⟨⟨⟨h1, h2⟩, h3⟩, h4⟩ := h
          refine ⟨⟨⟨h1, h2⟩, lt_of_le_of_ne h3 fun hk => he ⟨⟨h2, h1⟩, hk.symm⟩⟩, h4⟩

/-! ### The dot product -/

/-- The first `j` rounds of the filter's dot product are R116's accumulator after `j` rounds. -/
theorem laneSum_take {s : State} (h : s.FilterReady) (ring : List (F32 × F32)) (part : F32 × F32 → F32)
    (newest j : Nat) (hj : j ≤ s.latched.filterLen.toNat) :
    laneSum (s.taps.take j) (((timeOrder ring newest s.latched.filterLen.toNat).map part).take j) =
      accumulated s.coef ring part newest s.latched.filterLen.toNat j := by
  induction j with
  | zero => rfl
  | succ j ih =>
    have htl := State.taps_length h
    have hle := h.2.1.lenLe
    have hcl := h.2.2.1
    rw [accumulated, ← ih (by omega)]
    have h1 : s.taps.take (j + 1) = s.taps.take j ++ [s.coef.getD j 0#64] := by
      rw [List.take_add_one, List.getElem?_eq_getElem (by omega)]
      congr 1
      simp only [State.taps, List.getElem_take, List.getD_eq_getElem?_getD]
      rw [List.getElem?_eq_getElem (by omega)]
      rfl
    have h2 : ((timeOrder ring newest s.latched.filterLen.toNat).map part).take (j + 1) =
        ((timeOrder ring newest s.latched.filterLen.toNat).map part).take j ++
          [part (ring.getD (((newest : Int) - j) % s.latched.filterLen.toNat).toNat (0#32, 0#32))] := by
      rw [List.take_add_one, List.getElem?_eq_getElem (by simp [timeOrder]; omega)]
      congr 1
      simp only [timeOrder, List.getElem_map, List.getElem_range, Option.toList_some]
      congr 3
      zify
      rw [Int.toNat_of_nonneg (Int.emod_nonneg _ (by omega)), Nat.cast_sub (by omega),
        show (newest : Int) + ((s.latched.filterLen.toNat : Int) - j) =
          (newest - j) + s.latched.filterLen.toNat by ring, Int.add_emod_right]
    rw [h1, h2]
    unfold laneSum
    rw [List.zip_append (by simp [htl, timeOrder])]
    simp [List.foldl_append]

end Sys2Proof.Machine
end

