-- ==== Sys2Proof/Laws/PerInstr.lean ====
section
/-! SUPPORT. A family of statements with one lemma for each command: the format of its word (R89, R91). -/

namespace Sys2Proof.Laws

/-- A command is well formed, and its word is in the format CMD32 of R89: RSVD is 0, the opcode is one of R91's
seven, and the four bytes of its encoding are the opcode and three zeros (R71). -/
def Format.Statement (i : Instr) : Prop :=
  i.wf = true ∧ wordWellFormed (encodeWord i) = true ∧
    encode i = [(encodeWord i).extractLsb' 0 8, 0#8, 0#8, 0#8]

theorem Format.nop : Format.Statement .nop := by unfold Format.Statement; decide
theorem Format.design : Format.Statement .design := by unfold Format.Statement; decide
theorem Format.start : Format.Statement .start := by unfold Format.Statement; decide
theorem Format.pushIq : Format.Statement .pushIq := by unfold Format.Statement; decide
theorem Format.firStep : Format.Statement .firStep := by unfold Format.Statement; decide
theorem Format.demodStep : Format.Statement .demodStep := by unfold Format.Statement; decide
theorem Format.resampleStep : Format.Statement .resampleStep := by unfold Format.Statement; decide

end Sys2Proof.Laws
end

