-- ==== Sys2Proof/Tests/Slice0.lean ====
section
/-! SUPPORT. The model's own tests: well-formedness, decoding, the spec's vectors (95_test_vectors.md, by their
ids), and for every obligation with hypotheses a concrete state and operands that meet them. -/

namespace Sys2Proof.Tests

open Sys2Proof Sys2Proof.Machine

set_option Elab.async false

/-! ### States to test on -/

/-- The next state, if the outcome is one. -/
def nextOf (o : Host.Outcome State Fault Refusal) : Option State :=
  match o with
  | .next t => some t
  | .fault _ => none
  | .refused _ => none

/-- The configuration D-L2: one tap, D = 3, R = 2. -/
def cfgL2 : ConfigRegs :=
  { cutoff := 0x3FF0000000000000#64, twidth := 0x3FF0000000000000#64, ripple := 0x4020000000000000#64,
    gain := 0x4000000000000000#64, fs := 0x4018000000000000#64, decim := 3#32, targetRate := 1#32 }

/-- The reference configuration (R10). -/
def cfgRef : ConfigRegs := State.reset.cfg

/-- The outer tap of D-T3, 2/PI. -/
def tapC : F64 := 0x3FE45F306DC9C883#64

/-- A machine for three taps and one FIFO entry, its window at 0x10000, without a design. -/
def blank : State :=
  { State.resetFrom { lMax := 3, fifoDepth := 1, base := 0x10000 } 0 with
    coef := [0#64, 0#64, 0#64]
    ring := [(0#32, 0#32), (0#32, 0#32), (0#32, 0#32)]
    cfg := cfgL2 }

/-- The same with the design of D-L3 (COEF = [c, 1, c], D = 2), but R = 2. -/
def sample : State :=
  { blank with
    coef := [tapC, Fp.one, tapC]
    latched := { filterLen := 3#32, resampleFactor := 2#32, decimActive := 2#32, beta := 0#64 }
    status := { blank.status with designed := true } }

/-- F-3 about to run: the samples (1, 0) and (0, 1) are in the ring, (2, -1) is the input. -/
def third : State :=
  { sample with
    ring := [(0x3F800000#32, 0#32), (0#32, 0x3F800000#32), (0#32, 0#32)]
    wr := 2
    counters := { sample.counters with nIn := 2#64 }
    operands := { sample.operands with inI := 0x40000000#32, inQ := 0xBF800000#32 } }

/-- `third` with the FIFO full. -/
def full : State := { third with fifo := [0x3FFF#16] }

/-- A state with a command pending and the engine to move. -/
def pendingAt (s : State) (w : Word) : State :=
  { s with pending := w, status := { s.status with busy := true } }

/-! ### Well-formedness: each check and a term it refuses -/

theorem test_params_default_wf : Params.default.wf = true := by decide
theorem test_params_even_lmax : Params.wf { lMax := 4094, fifoDepth := 16, base := 0 } = false := by decide
theorem test_params_lmax_too_large : Params.wf { lMax := 7681, fifoDepth := 16, base := 0 } = false := by decide
theorem test_params_no_fifo : Params.wf { lMax := 4095, fifoDepth := 0, base := 0 } = false := by decide
theorem test_params_fifo_too_large : Params.wf { lMax := 4095, fifoDepth := 65536, base := 0 } = false := by decide
theorem test_params_base : Params.wf { lMax := 4095, fifoDepth := 16, base := 0x1000 } = false := by decide
theorem test_word_reserved_bits : wordWellFormed 0x00000100#32 = false := by decide
theorem test_word_opcode : wordWellFormed 0x00000007#32 = false := by decide
theorem test_instr_wf : Instr.wf .nop = true := rfl

/-! ### Decoding: R89's fields written out, RSVD and then the opcode, for each row of R91 -/

theorem test_decode_nop : decodeWord (0b000000000000000000000000#24 ++ 0b00000000#8) = some .nop := by decide
theorem test_decode_design : decodeWord (0b000000000000000000000000#24 ++ 0b00000001#8) = some .design := by decide
theorem test_decode_start : decodeWord (0b000000000000000000000000#24 ++ 0b00000010#8) = some .start := by decide
theorem test_decode_pushIq : decodeWord (0b000000000000000000000000#24 ++ 0b00000011#8) = some .pushIq := by decide
theorem test_decode_firStep : decodeWord (0b000000000000000000000000#24 ++ 0b00000100#8) = some .firStep := by
  decide
theorem test_decode_demodStep : decodeWord (0b000000000000000000000000#24 ++ 0b00000101#8) = some .demodStep := by
  decide
theorem test_decode_resampleStep :
    decodeWord (0b000000000000000000000000#24 ++ 0b00000110#8) = some .resampleStep := by decide

/-- E-8 to E-13. -/
theorem test_decode_illegal :
    [0x00000007#32, 0x000000FF#32, 0x00000100#32, 0x00000106#32, 0xFFFFFFFF#32, 0x0000002A#32].map decodeWord =
      [none, none, none, none, none, none] := by decide

/-- R71: the opcode byte is the one at the lowest address. -/
theorem test_decode_bytes : decode [4#8, 0#8, 0#8, 0#8, 9#8] = some (.firStep, [9#8]) := by decide
theorem test_decode_bytes_reversed : decode [0#8, 0#8, 0#8, 4#8] = none := by decide
theorem test_decodeTableWord : decodeTableWord 32 3 = some .pushIq ∧ decodeTableWord 32 0x103 = none := by decide

/-! ### Arithmetic -/

/-- The decimal `n / d` lies within half a unit in the last place of `c`. -/
def nearestTo (c : F64) (n d : Nat) : Bool :=
  match Fp.unpack c with
  | .fin false m e =>
    decide (e < 0) && decide (2 ^ 52 < m) &&
      decide (2 * ((m : Int) * d - (n : Int) * 2 ^ (-e).toNat).natAbs ≤ d)
  | _ => false

/-- R20, R101 to R103: the decimal literals of the rules, and PI64 beside 35 digits of π. -/
theorem test_literals :
    (nearestTo Fp.c0_4 4 10 && nearestTo Fp.c0_5842 5842 10000 && nearestTo Fp.c0_07886 7886 100000 &&
      nearestTo Fp.c0_1102 1102 10000 && nearestTo Fp.c8_7 87 10 && nearestTo Fp.c2_285 2285 1000 &&
      nearestTo Fp.c1em10 1 (10 ^ 10) && nearestTo Fp.c32767 32767 1 &&
      nearestTo Fp.c4294967295 4294967295 1 &&
      nearestTo Fp.pi64 314159265358979323846264338327950288 (10 ^ 35)) = true := by decide +kernel

/-- 0.1 + 0.2 and 1/3 in binary64; a tie goes to the even neighbour; the product of the least normal and 1/2 is
subnormal; the greatest value doubled overflows. -/
theorem test_rounding :
    Fp.add 0x3FB999999999999A#64 0x3FC999999999999A#64 = 0x3FD3333333333334#64 ∧
    Fp.div Fp.one 0x4008000000000000#64 = 0x3FD5555555555555#64 ∧
    Fp.add 0x4340000000000000#64 Fp.one = 0x4340000000000000#64 ∧
    Fp.mul 0x0010000000000000#64 0x3FE0000000000000#64 = 0x0008000000000000#64 ∧
    Fp.mul 0x7FEFFFFFFFFFFFFF#64 Fp.two = 0x7FF0000000000000#64 := by decide +kernel

/-- F-9: the binary32 0.1 widened; the square root of 2. -/
theorem test_widen_sqrt :
    Fp.widen32 0x3DCCCCCD#32 = 0x3FB99999A0000000#64 ∧ Fp.sqrt Fp.two = 0x3FF6A09E667F3BCD#64 := by
  decide +kernel

/-! ### DESIGN -/

/-- D-I1 to D-I4. -/
theorem test_besselI0 :
    [0#64, Fp.one, Fp.two, 0x40169CF0307F23CD#64].map (fun x => (besselI0 x).toOption) =
      [some 0x3FF0000000000000#64, some 0x3FF441CE4B3841BD#64, some 0x40023C97380F8AB9#64,
        some 0x40488633EA169F70#64] := by decide +kernel

/-- D-B1, D-B3, D-B7, D-B8. -/
theorem test_kaiserBeta :
    [Fp.eight, Fp.twentyOne, 0x404E000000000000#64, 0x4059000000000000#64].map kaiserBeta =
      [0#64, 0#64, 0x40169CF0307F23CD#64, 0x40241F5D78811B1E#64] := by decide +kernel

/-- D-L1. -/
theorem test_filterLength :
    orderQuotient cfgRef.ripple cfgRef.twidth cfgRef.fs = 0x409B2A0FA184DEC3#64 ∧
      (filterLength 4095 cfgRef.ripple cfgRef.twidth cfgRef.fs).toOption = some 1741 := by decide +kernel

/-- The raise of an `Except`, if there is one. -/
def raised {α : Type} (e : Except ErrCode α) : Option ErrCode :=
  match e with
  | .error c => some c
  | .ok _ => none

/-- D-E1 to D-E7. -/
theorem test_design_field_errors :
    [{ cfgRef with cutoff := 0x7FF8000000000000#64 }, { cfgRef with fs := 0x7FF0000000000000#64 },
      { cfgRef with gain := 0xBFF0000000000000#64 }, { cfgRef with ripple := 0x8000000000000000#64 },
      { cfgRef with decim := 0#32 }, { cfgRef with targetRate := 0#32 },
      { cfgRef with cutoff := 0x7FF8000000000000#64, decim := 0#32 }].map (fun c => raised (designOf 4095 c)) =
      [some .cfgNonfinite, some .cfgNonfinite, some .cfgNonpositive, some .cfgNonpositive, some .cfgDecimZero,
        some .cfgTargetZero, some .cfgNonfinite] := by decide +kernel

/-- D-E8, D-E9, D-E10, D-E12, D-E14, D-E16, D-E17. -/
theorem test_design_later_errors :
    [{ cfgRef with twidth := 0x00000000000007E8#64 },
      { cutoff := 0x4000000000000000#64, twidth := 0x3FE999999999999A#64, ripple := Fp.one, gain := Fp.one,
        fs := 0x4020000000000000#64, decim := 2#32, targetRate := 4#32 },
      { cfgRef with twidth := 0x409F400000000000#64 },
      { cutoff := 0x3FD0000000000000#64, twidth := 0x412E848000000000#64, ripple := 0x40C3880000000000#64,
        gain := Fp.one, fs := Fp.one, decim := 1#32, targetRate := 1#32 },
      { cfgRef with targetRate := 44100#32 },
      { cfgL2 with fs := Fp.one, decim := 2#32 },
      { cfgRef with twidth := 0x41CDCD6500000000#64, fs := 0x4202A05F20000000#64, decim := 1#32,
                    targetRate := 1#32 }].map (fun c => raised (designOf 4095 c)) =
      [some .lenNonfinite, some .lenNonpositive, some .lenExceedsCapacity, some .besselOverflow,
        some .ratioNotInteger, some .ratioNotInteger, some .ratioRange] := by decide +kernel

/-- A tap of D-L5 (L = 11, GAIN 2), given the sine of its angle. -/
def tapL5 (n : Nat) (sine : F64) : Option F64 :=
  let alpha := tapCentre 11
  let t := Fp.sub (Fp.ofNat n) alpha
  let a := Fp.mul (angularCutoff 0x3FF8000000000000#64 0x4024000000000000#64) t
  match besselI0 0x4000EED903E40228#64 with
  | .error _ => none
  | .ok i0b =>
    match kaiserWindow t alpha 0x4000EED903E40228#64 i0b with
    | .error _ => none
    | .ok v => some (Fp.mul (Fp.mul (Fp.div sine a) v) Fp.two)

/-- D-T2: COEF[0] to COEF[4] of D-L5 for its β, with the correctly rounded sines of the angles (computed outside). -/
theorem test_kaiserWindow :
    [tapL5 0 0x3FF0000000000000#64, tapL5 1 0x3FE2CF2304755A5D#64, tapL5 2 0xBFD3C6EF372FE951#64,
      tapL5 3 0xBFEE6F0E13445500#64, tapL5 4 0xBFE9E3779B97F4A8#64] =
      [some 0xBFC5F1DD6D0655FB#64, some 0xBFC74F640F05AF01#64, some 0x3FC4FA00FF7E7E4A#64,
        some 0x3FEC85ECD74ABA3E#64, some 0x3FFAA4D7BAA1BD3C#64] := by decide +kernel

/-- D-T4 and P1: the design of D-L2. -/
theorem test_design_one_tap :
    (nextOf (exec .design blank)).map (fun t => (t.coef.take 1, t.latched, t.statusWord)) =
      some ([0x4000000000000000#64],
        { filterLen := 1#32, resampleFactor := 2#32, decimActive := 3#32, beta := 0#64 }, 0x00000002#32) := by
  decide +kernel

/-- P2, first step: a failed DESIGN removes the old filter and reports its code. -/
theorem test_design_fails :
    (nextOf (exec .design { sample with cfg := { cfgL2 with decim := 0#32 } })).map
      (fun t => (t.latched.filterLen, t.statusWord, t.errCode.word)) =
      some (0#32, 0x00000100#32, 3#32) := by decide +kernel

/-! ### The streaming commands -/

/-- F-3: the newest sample is weighted with tap 0. -/
theorem test_firStep :
    (nextOf (exec .firStep third)).map
      (fun t => (t.results.firOutI, t.results.firOutQ, t.wr, t.counters.nIn, t.counters.nFirOut)) =
      some (0x3FFE8EC8A4AEACC4#64, 0x3FD7419F246C6EFA#64, 0, 3#64, 1#64) := by decide +kernel

/-- F-12: FIR_STEP without a design. -/
theorem test_firStep_not_designed :
    (nextOf (exec .firStep { blank with status := { blank.status with busy := true } })).map
      (fun t => (t.statusWord, t.errCode.word, t.counters.nIn, t.wr)) =
      some (0x00000100#32, 17#32, 0#64, 0) := by decide +kernel

/-- M-4's product: -1 and -0, the operands ATAN2 is given. M-9's product is a NaN. -/
theorem test_demod_product :
    productRe (0xBFF0000000000000#64, 0x8000000000000000#64) (Fp.one, 0x8000000000000000#64) =
      0xBFF0000000000000#64 ∧
    productIm (0xBFF0000000000000#64, 0x8000000000000000#64) (Fp.one, 0x8000000000000000#64) =
      0x8000000000000000#64 ∧
    Fp.isNaN (productRe (Fp.nan, 0#64) (Fp.one, 0#64)) = true := by decide +kernel

/-- R124 with R19 on two equal samples (1e200, 1e200): inf - inf (log 22); on (1, 2), R128's +0.0. -/
theorem test_demod_equal_samples :
    Fp.isNaN (productIm (0x6974E718D7D7625A#64, 0x6974E718D7D7625A#64)
      (0x6974E718D7D7625A#64, 0x6974E718D7D7625A#64)) = true ∧
    productIm (Fp.one, Fp.two) (Fp.one, Fp.two) = 0#64 := by decide +kernel

/-- M-11: the first step takes PREV and counts, without a design. -/
theorem test_demodStep :
    (nextOf (exec .demodStep { blank with operands := { blank.operands with dinI := Fp.one, dinQ := Fp.two } })).map
      (fun t => (t.prev, t.counters.nDemod, t.draws)) = some ((Fp.one, Fp.two), 1#64, 10) := by decide +kernel

/-- Q-1 to Q-6, Q-8, Q-13 to Q-15. -/
theorem test_quantize :
    [0x3FE0000000000000#64, 0xBFE0000000000000#64, 0x4000000000000000#64, 0xC014000000000000#64, Fp.one,
      Fp.minusOne, 0x3EE4F8B588E368F1#64, Fp.inf false, Fp.inf true, 0x8000000000000000#64].map
        (fun a => (quantize 0 a).signExtend 32) =
      [0x00003FFF#32, 0xFFFFC001#32, 0x00007FFF#32, 0xFFFF8001#32, 0x00007FFF#32, 0xFFFF8001#32, 0#32,
        0x00007FFF#32, 0xFFFF8001#32, 0#32] := by decide +kernel

/-- RS-1: an emission. -/
theorem test_resampleStep :
    (nextOf (exec .resampleStep
      { sample with operands := { sample.operands with scalarIn := 0x3FE0000000000000#64 } })).map
      (fun t => (t.fifo, t.results.audioLast, t.counters.nAudio, t.statusWord)) =
      some ([0x3FFF#16], 0x00003FFF#32, 1#64, 0x0000001A#32) := by decide +kernel

/-- RS-9: the full FIFO holds an emission, BUSY stays 1. -/
theorem test_resampleStep_held :
    (nextOf (exec .resampleStep (pendingAt full 6#32))).map
      (fun t => (t.fifo, t.status.busy, t.counters.nRsIn)) = some ([0x3FFF#16], true, 0#64) := by decide +kernel

/-- R141: without a filter output only the filter runs, and AUDIO_VALID is cleared. -/
theorem test_pushIq_no_output :
    (nextOf (exec .pushIq { sample with status := { sample.status with audioValid := true } })).map
      (fun t => (t.counters.nIn, t.counters.nDemod, t.statusWord)) = some (1#64, 0#64, 0x00000002#32) := by
  decide +kernel

/-- R141: with a filter output all three units run; the demodulator is given FIR_OUT. -/
theorem test_pushIq :
    (nextOf (exec .pushIq third)).map
      (fun t => (t.prev, t.counters.nDemod, t.counters.nRsIn, t.counters.nAudio, t.fifo.length)) =
      some ((0x3FFE8EC8A4AEACC4#64, 0x3FD7419F246C6EFA#64), 1#64, 1#64, 1#64, 1) := by decide +kernel

/-- E-1: NOP clears BUSY. -/
theorem test_nop : (nextOf (exec .nop (pendingAt third 0#32))).map (·.statusWord) = some 0x00000002#32 := by
  decide +kernel

/-- R140: START. -/
theorem test_start :
    (nextOf (exec .start third)).map (fun t => (t.wr, t.counters.nIn, t.ring.length, t.status.designed)) =
      some (0, 0#64, 3, true) := by decide +kernel

/-! ### The bus -/

/-- B-1 to B-5. -/
theorem test_bus_reads :
    [0x000, 0x004, 0x008, 0x00C, 0x010, 0x0C8, 0x0FFC].map State.reset.memRead =
      [0x464D3257#32, 0x00000007#32, 0x00000FFF#32, 0x00000010#32, 0#32, 0#32, 0#32] := by decide +kernel

/-- R61 on D-T3's taps: entry 0, entry 2, and the first offset beyond the window. -/
theorem test_bus_window :
    [0x1000, 0x1004, 0x1014, 0x1018].map sample.memRead =
      [0x6DC9C883#32, 0x3FE45F30#32, 0x3FE45F30#32, 0#32] := by decide +kernel

/-- A state with the given STATUS fields and error. -/
def flagged (err nonfinite : Bool) (e : ErrCode) : State :=
  { sample with errCode := e, status := { sample.status with err := err, nonfinite := nonfinite } }

/-- B-12, B-14, and B-13's W1C of NONFINITE. -/
theorem test_bus_status_w1c :
    ((flagged true false .illegalCmd).memWrite 0x014 0x100#32).statusWord = 0x00000002#32 ∧
    ((flagged true false .illegalCmd).memWrite 0x014 0x100#32).errCode.word = 0#32 ∧
    ((flagged true true .lenNonpositive).memWrite 0x014 0x200#32).statusWord = 0x00000102#32 ∧
    ((flagged true false .lenNonpositive).memWrite 0x014 0x1F#32).statusWord = 0x00000102#32 ∧
    ((flagged true false .lenNonpositive).memWrite 0x014 0x1F#32).errCode.word = 6#32 := by decide +kernel

/-- B-16, and B-15 (b): a write while BUSY is ignored and reported. -/
theorem test_bus_write_while_busy :
    ((pendingAt sample 1#32).memWrite 0x010 2#32).pending = 1#32 ∧
    ((pendingAt sample 1#32).memWrite 0x048 7#32).cfg.decim = 3#32 ∧
    ((pendingAt sample 1#32).memWrite 0x048 7#32).statusWord = 0x00000103#32 ∧
    ((pendingAt sample 1#32).memWrite 0x048 7#32).errCode.word = 18#32 := by decide +kernel

/-- P1's first line: CUTOFF's two halves at their offsets. -/
theorem test_bus_wr64 :
    ((blank.memWrite 0x020 0x89ABCDEF#32).memWrite 0x024 0x01234567#32).cfg.cutoff = 0x0123456789ABCDEF#64 := by
  decide +kernel

/-! ### Steps -/

theorem test_step_runs_placed_word :
    (nextOf (step (State.reset.withFetchWord 32 2))).map (fun t => (t.status.busy, t.agenda)) =
      some (false, []) := by decide +kernel

/-- B-18: the first command after reset, PUSH_IQ, raises NOT_DESIGNED. -/
theorem test_step_push_after_reset :
    (nextOf (step (State.reset.withFetchWord 32 3))).map (fun t => (t.statusWord, t.errCode.word)) =
      some (0x00000100#32, 17#32) := by decide +kernel

/-- R97: the expansion of `clr`, one write turn. -/
theorem test_notation_clr : clearSticky 0x10000 = [.hostWrite .word 0x10014 0x300#32] := by decide

/-! ### Witnesses: for each obligation with hypotheses, a state and operands that meet them -/

/-- The design of a machine whose latches and taps are `sample`'s. -/
theorem designedOk_of {s : State} (h1 : s.latched = sample.latched) (h2 : s.params = sample.params)
    (h3 : s.coef = sample.coef) (h4 : s.wr < 3) : s.DesignedOk where
  lenOdd := by rw [h1]; decide
  lenLe := by rw [h1, h2]; decide
  wrLt := by rw [h1]; exact h4
  decimPos := by rw [h1]; decide
  factorPos := by rw [h1]; decide
  tapsFinite := by
    rw [State.taps, h1, h3]
    exact List.all_eq_true.1 (by decide +kernel)

theorem sample_inv : sample.Inv where
  params := by decide
  coefLen := by decide
  ringLen := by decide
  fifoLen := by decide
  designed := fun _ => designedOk_of rfl rfl rfl (by decide)
  undesigned := fun h => absurd h (by decide)
  errAgrees := by decide
  angle := .inr (by decide +kernel)
  audioLast := ⟨0#16, by decide⟩

theorem third_inv : third.Inv where
  params := by decide
  coefLen := by decide
  ringLen := by decide
  fifoLen := by decide
  designed := fun _ => designedOk_of rfl rfl rfl (by decide)
  undesigned := fun h => absurd h (by decide)
  errAgrees := by decide
  angle := .inr (by decide +kernel)
  audioLast := ⟨0#16, by decide⟩

theorem full_inv : full.Inv where
  params := by decide
  coefLen := by decide
  ringLen := by decide
  fifoLen := by decide
  designed := fun _ => designedOk_of rfl rfl rfl (by decide)
  undesigned := fun h => absurd h (by decide)
  errAgrees := by decide
  angle := .inr (by decide +kernel)
  audioLast := ⟨0#16, by decide⟩

/-- The invariant says nothing of the turns that are planned. -/
theorem inv_agenda {s : State} (h : s.Inv) (turns : List Turn) : State.Inv { s with agenda := turns } where
  params := h.params
  coefLen := h.coefLen
  ringLen := h.ringLen
  fifoLen := h.fifoLen
  designed := fun hd =>
    let k := h.designed hd
    { lenOdd := k.lenOdd, lenLe := k.lenLe, wrLt := k.wrLt, decimPos := k.decimPos, factorPos := k.factorPos,
      tapsFinite := k.tapsFinite }
  undesigned := h.undesigned
  errAgrees := h.errAgrees
  angle := h.angle
  audioLast := h.audioLast

/-- The invariant says nothing of BUSY and PENDING. -/
theorem inv_pendingAt {s : State} (h : s.Inv) (w : Word) : (pendingAt s w).Inv where
  params := h.params
  coefLen := h.coefLen
  ringLen := h.ringLen
  fifoLen := h.fifoLen
  designed := fun hd =>
    let k := h.designed hd
    { lenOdd := k.lenOdd, lenLe := k.lenLe, wrLt := k.wrLt, decimPos := k.decimPos, factorPos := k.factorPos,
      tapsFinite := k.tapsFinite }
  undesigned := h.undesigned
  errAgrees := h.errAgrees
  angle := h.angle
  audioLast := h.audioLast

/-- The greatest finite value and the least subnormal. -/
def greatest : F64 := 0x7FEFFFFFFFFFFFFF#64
def least : F64 := 0x0000000000000001#64

theorem greatest_finite : Fp.isFinite greatest = true := by decide +kernel
theorem least_finite : Fp.isFinite least = true := by decide +kernel
theorem zero_finite : Fp.isFinite 0#64 = true := by decide +kernel

theorem toRat_zero : Fp.toRat 0#64 = 0 := by
  have : Fp.unpack 0#64 = .fin false 0 (-1074) := by decide +kernel
  simp [Fp.toRat, this, Fp.signed]

/-- A comparison of patterns gives the comparison of the numbers (R18). -/
theorem toRat_lt {a b : F64} (ha : Fp.isFinite a = true) (hb : Fp.isFinite b = true) (h : Fp.lt a b = true) :
    Fp.toRat a < Fp.toRat b := (Fp.lt_iff ha hb).1 h

theorem toRat_pos {a : F64} (ha : Fp.isFinite a = true) (h : Fp.lt 0#64 a = true) : 0 < Fp.toRat a := by
  have := toRat_lt zero_finite ha h
  rwa [toRat_zero] at this

theorem toRat_of_unpack {a : F64} {n : Bool} {m : Nat} {e : Int} (h : Fp.unpack a = .fin n m e) :
    Fp.toRat a = (Fp.signed n m : ℚ) * 2 ^ e := by simp [Fp.toRat, h]

theorem witness_OpcodeMapDecodes : 7 ≤ (0x07#8).toNat ∧ 7 ≤ (0xFF#8).toNat := by decide

theorem witness_BytesDecodeAsLittleEndianWords :
    ([] : List Byte).length < 4 ∧ ([4#8, 0#8, 0#8] : List Byte).length < 4 := by decide

theorem witness_ArithmeticAndComparisonsFollowTheirRules :
    (Fp.isFinite greatest = true ∧ Fp.isFinite least = true ∧ Fp.toRat least ≠ 0) ∧
      Fp.isNaN 0x7FF0000000000001#64 = true ∧ Fp.isNaN 0xFFFFFFFFFFFFFFFF#64 = true ∧
      Fp.toRat 0#64 = 0 ∧ Fp.toRat greatest + Fp.toRat (Fp.neg greatest) = 0 ∧
      Fp.toRat greatest - Fp.toRat greatest = 0 ∧ Fp.isNaN (Fp.inf true) = false :=
  ⟨⟨greatest_finite, least_finite, (toRat_pos least_finite (by decide +kernel)).ne'⟩, by decide +kernel,
    by decide +kernel, toRat_zero, by rw [Fp.toRat_neg greatest_finite]; exact add_neg_cancel _, sub_self _,
    by decide +kernel⟩

theorem witness_SquareRootIsCorrectlyRounded :
    Fp.isFinite Fp.two = true ∧ 0 < Fp.toRat Fp.two ∧ Fp.isFinite Fp.one = true ∧ 0 ≤ Fp.toRat Fp.one ∧
      Fp.toRat Fp.one < Fp.toRat (Fp.sqrt Fp.two) ∧ Fp.toRat (Fp.sqrt Fp.two) < Fp.toRat Fp.two ∧
      (Fp.isFinite 0#64 = true ∧ Fp.toRat 0#64 = 0) ∧ Fp.lt (Fp.inf true) 0#64 = true :=
  ⟨by decide +kernel, toRat_pos (by decide +kernel) (by decide +kernel), by decide +kernel,
    (toRat_pos (by decide +kernel) (by decide +kernel)).le,
    toRat_lt (by decide +kernel) (by decide +kernel) (by decide +kernel),
    toRat_lt (by decide +kernel) (by decide +kernel) (by decide +kernel),
    ⟨zero_finite, toRat_zero⟩, by decide +kernel⟩

theorem witness_ConversionsAreExact :
    Fp.unpack32 0x00000001#32 = .fin false 1 (-149) ∧ Fp.unpack32 0x7FC00000#32 = .nan ∧
      Fp.unpack32 0xFF800000#32 = .inf true ∧ 2 ^ 53 - 1 < 2 ^ 53 ∧ Fp.isFinite 0xC002000000000000#64 = true := by
  decide +kernel

theorem witness_ElementaryFunctionsHaveTheirProperties :
    Fp.isFinite greatest = true ∧ Fp.lt 0#64 least = true ∧ Fp.isNaN (Fp.inf true) = false ∧
      Fp.isNaN Fp.nan = true ∧ ¬ (Fp.eq (Fp.inf true) 0#64 = true ∧ Fp.eq 0#64 0#64 = true) := by decide +kernel

theorem witness_FifoLevelCountsTheFifo : full.Inv := full_inv

theorem witness_CoefficientWindowReadsTheTaps :
    sample.coef.length = sample.params.lMax ∧ 2 < sample.coef.length ∧ 2 < sample.latched.filterLen.toNat := by
  decide

theorem witness_UnmappedAndReadOnlyOffsetsIgnoreWrites :
    (∀ off ∈ [0x0C8, 0x0FFC, 0x1018, 0xFFFC], off % 4 = 0 ∧ off ≤ 0xFFFF ∧
      ((0x0C8 ≤ off ∧ off ≤ 0x0FFC) ∨ 0x1000 + 8 * sample.params.lMax ≤ off)) ∧
    (0x0C4 ∉ writableOffsets ∧ 0x1000 ∉ writableOffsets ∧ 0xFFFC ∉ writableOffsets) := by decide

theorem witness_WritesFollowTheBusyRule :
    0x010 ∈ writableOffsets ∧ 0x014 ∈ writableOffsets ∧ 0x07C ∈ writableOffsets ∧
      sample.status.busy = false ∧ (pendingAt sample 1#32).status.busy = true := by decide

theorem witness_HalvesCanBeWrittenInEitherOrder : sample.status.busy = false := by decide

theorem witness_AlignedWordAccessesAreTheOnlyOnes :
    (∃ s : State, s.agenda = .hostRead .word (s.params.base + 0xFFFC) :: []) ∧
    (∃ s : State, s.agenda = .hostRead .byte (s.params.base + 0) :: []) ∧
    (∃ s : State, s.agenda = .hostWrite .word (s.params.base + 2) 0#32 :: []) :=
  ⟨⟨{ sample with agenda := [.hostRead .word 0x1FFFC] }, by decide⟩,
    ⟨{ sample with agenda := [.hostRead .byte 0x10000] }, by decide⟩,
    ⟨{ sample with agenda := [.hostWrite .word 0x10002 0#32] }, by decide⟩⟩

theorem witness_CoreTurnRunsThePendingCommand :
    (pendingAt third 4#32).CoreMoves ∧ (pendingAt third 4#32).status.busy = true ∧
      decodeWord (pendingAt third 4#32).pending = some .firStep := ⟨.inl rfl, by decide, by decide⟩

theorem witness_IllegalWordRaisesIllegalCmd :
    State.CoreMoves { pendingAt sample 7#32 with agenda := [.core] } ∧
      (pendingAt sample 7#32).status.busy = true ∧
      7 ≤ ((pendingAt sample 7#32).pending.extractLsb' 0 8).toNat ∧
      (pendingAt sample 0x100#32).pending.extractLsb' 8 24 ≠ 0#24 :=
  ⟨.inr ⟨[], rfl⟩, by decide, by decide, by decide⟩

theorem witness_IdleEngineWaits : sample.CoreMoves ∧ sample.status.busy = false := ⟨.inl rfl, by decide⟩

theorem full_held : full.HeldBy .resampleStep ∧ full.HeldBy .pushIq := by
  unfold State.HeldBy; decide

theorem witness_FullFifoHoldsTheCommand :
    (pendingAt full 6#32).Inv ∧ (pendingAt full 6#32).HeldBy .resampleStep ∧
      (pendingAt full 3#32).HeldBy .pushIq ∧ (pendingAt full 6#32).CoreMoves ∧
      decodeWord 6#32 = some .resampleStep ∧ decodeWord 3#32 = some .pushIq ∧
      State.Inv { full with agenda := [.sink] } :=
  ⟨inv_pendingAt full_inv _, full_held.1, full_held.2, .inl rfl, by decide, by decide, inv_agenda full_inv _⟩

theorem witness_SinkTakesTheOldestSample :
    (∃ s : State, s.agenda = [.sink] ∧ s.fifo = [0x3FFF#16]) ∧ (∃ s : State, s.agenda = [.sink] ∧ s.fifo = []) :=
  ⟨⟨{ full with agenda := [.sink] }, rfl, rfl⟩, ⟨{ third with agenda := [.sink] }, rfl, rfl⟩⟩

theorem witness_ResetLeavesTheResetValues :
    full.params.wf = true ∧ State.agenda { full with agenda := [.reset, .core] } = .reset :: [.core] :=
  ⟨by decide, rfl⟩

theorem witness_StreamCommandsNeedADesign : blank.status.designed = false := by decide

/-- The design of D-L2. -/
def designL2 : DesignResult :=
  { taps := [0x4000000000000000#64], len := 1, factor := 2, beta := 0#64, decim := 3#32 }

theorem designOf_cfgL2 : designOf 3 cfgL2 = .ok designL2 := by decide +kernel

theorem witness_DesignCommitsOrFails :
    designOf blank.params.lMax blank.cfg = .ok designL2 ∧
      designOf 3 { cfgL2 with decim := 0#32 } = .error .cfgDecimZero := ⟨designOf_cfgL2, by decide +kernel⟩

/-- D-E12, D-L3, and D-L3 with D-E13's cutoff. -/
def cfgE12 : ConfigRegs :=
  { cutoff := 0x3FD0000000000000#64, twidth := 0x412E848000000000#64, ripple := 0x40C3880000000000#64,
    gain := Fp.one, fs := Fp.one, decim := 1#32, targetRate := 1#32 }

def cfgL3 : ConfigRegs :=
  { cutoff := Fp.two, twidth := 0x3FE999999999999A#64, ripple := 0x4024000000000000#64, gain := Fp.one,
    fs := Fp.eight, decim := 2#32, targetRate := 4#32 }

def cfgE13 : ConfigRegs := { cfgL3 with cutoff := least }

theorem nan_not_finite : Fp.isFinite Fp.nan = false := by decide +kernel
theorem inf_not_finite : ∀ s : Bool, Fp.isFinite (Fp.inf s) = false := by decide +kernel

theorem div_zero_not_finite (v : F64) : Fp.isFinite (Fp.div v 0x8000000000000000#64) = false := by
  have hz : Fp.unpack 0x8000000000000000#64 = .fin true 0 (-1074) := by decide +kernel
  unfold Fp.div
  rw [hz]
  cases Fp.unpack v <;> simp only [nan_not_finite, inf_not_finite, if_true]
  split <;> simp only [nan_not_finite, inf_not_finite]

theorem mul_not_finite {a : F64} (b : F64) (h : Fp.isFinite a = false) : Fp.isFinite (Fp.mul a b) = false := by
  unfold Fp.mul
  cases ha : Fp.unpack a <;> cases Fp.unpack b <;> simp only [nan_not_finite, inf_not_finite]
  · split <;> simp only [nan_not_finite, inf_not_finite]
  · rw [(Fp.unpack_toRat ha).1] at h; cases h
  · rw [(Fp.unpack_toRat ha).1] at h; cases h

theorem coefficients_cfgE13 :
    coefficients cfgE13.cutoff cfgE13.fs cfgE13.gain 0#64 Fp.one 3 = .error .coefNonfinite := by
  have hw : kaiserWindow (Fp.sub (Fp.ofNat 0) (tapCentre 3)) (tapCentre 3) 0#64 Fp.one = .ok Fp.one := by
    decide +kernel
  have hs : sinc (Fp.sub (Fp.ofNat 0) (tapCentre 3)) (angularCutoff cfgE13.cutoff cfgE13.fs) =
      Fp.div (SIN 0x8000000000000000#64) 0x8000000000000000#64 := by
    have ha : Fp.mul (angularCutoff cfgE13.cutoff cfgE13.fs) (Fp.sub (Fp.ofNat 0) (tapCentre 3)) =
        0x8000000000000000#64 := by decide +kernel
    rw [sinc, if_neg (by decide +kernel)]
    simp only [ha]
  unfold coefficients
  simp only [tapLoop, tap, hw, hs]
  rw [if_neg]
  rw [mul_not_finite _ (mul_not_finite _ (div_zero_not_finite _))]
  decide

/-- Each clause's hypotheses in turn, each met by one configuration. -/
theorem witness_DesignRaisesInTheOrderOfItsPseudocode :
    raised (checkFields { cfgL2 with decim := 0#32 }) = some .cfgDecimZero ∧
    (checkFields { cfgL2 with ripple := Fp.one } = .ok () ∧
      filterLength 3 Fp.one cfgL2.twidth cfgL2.fs = .error .lenNonpositive) ∧
    (checkFields { cfgL2 with decim := 4#32 } = .ok () ∧
      filterLength 3 cfgL2.ripple cfgL2.twidth cfgL2.fs = .ok 1 ∧
      resampleFactorOf cfgL2.fs 4#32 cfgL2.targetRate = .error .ratioNotInteger) ∧
    (checkFields cfgE12 = .ok () ∧ filterLength 3 cfgE12.ripple cfgE12.twidth cfgE12.fs = .ok 3 ∧
      resampleFactorOf cfgE12.fs cfgE12.decim cfgE12.targetRate = .ok 1 ∧
      besselI0 (kaiserBeta cfgE12.ripple) = .error .besselOverflow) := by decide +kernel

theorem witness_DesignRaisesInTheOrderOfItsPseudocode_taps :
    (checkFields cfgE13 = .ok () ∧ filterLength 3 cfgE13.ripple cfgE13.twidth cfgE13.fs = .ok 3 ∧
      resampleFactorOf cfgE13.fs cfgE13.decim cfgE13.targetRate = .ok 1 ∧
      besselI0 (kaiserBeta cfgE13.ripple) = .ok Fp.one ∧
      coefficients cfgE13.cutoff cfgE13.fs cfgE13.gain (kaiserBeta cfgE13.ripple) Fp.one 3 =
        .error .coefNonfinite) ∧
    (checkFields cfgL2 = .ok () ∧ filterLength 3 cfgL2.ripple cfgL2.twidth cfgL2.fs = .ok 1 ∧
      resampleFactorOf cfgL2.fs cfgL2.decim cfgL2.targetRate = .ok 2 ∧
      besselI0 (kaiserBeta cfgL2.ripple) = .ok Fp.one ∧
      coefficients cfgL2.cutoff cfgL2.fs cfgL2.gain (kaiserBeta cfgL2.ripple) Fp.one 1 =
        .ok [0x4000000000000000#64]) := by
  have hb : kaiserBeta cfgE13.ripple = 0#64 := by decide +kernel
  refine ⟨⟨by decide +kernel, by decide +kernel, by decide +kernel, by decide +kernel, ?_⟩, by decide +kernel⟩
  rw [hb]; exact coefficients_cfgE13

theorem witness_FieldChecksComeInOrder :
    (∃ v ∈ ({ cfgL2 with fs := Fp.inf false } : ConfigRegs).fields, v = Fp.inf false) ∧
    (∀ v ∈ ({ cfgL2 with fs := least } : ConfigRegs).fields, Fp.isFinite v = true ∧ 0 < Fp.toRat v) ∧
    ((∀ v ∈ ({ cfgL2 with ripple := 0#64 } : ConfigRegs).fields, Fp.isFinite v = true) ∧
      ∃ v ∈ ({ cfgL2 with ripple := 0#64 } : ConfigRegs).fields, ¬ 0 < Fp.toRat v) ∧
    cfgL2.decim ≠ 0#32 ∧ cfgL2.targetRate ≠ 0#32 := by
  have pos : ∀ c ∈ [Fp.one, Fp.eight, Fp.two, least], Fp.isFinite c = true ∧ 0 < Fp.toRat c := by
    intro c hc
    simp only [List.mem_cons, List.not_mem_nil, or_false] at hc
    rcases hc with rfl | rfl | rfl | rfl <;>
      exact ⟨by decide +kernel, toRat_pos (by decide +kernel) (by decide +kernel)⟩
  refine ⟨⟨Fp.inf false, by simp [ConfigRegs.fields], rfl⟩, ?_,
    ⟨List.all_eq_true.1 (by decide +kernel), 0#64, by simp [ConfigRegs.fields], ?_⟩, by decide, by decide⟩
  · intro v hv
    refine pos v ?_
    simp only [ConfigRegs.fields, cfgL2, List.mem_cons, List.not_mem_nil, or_false] at hv ⊢
    rcases hv with rfl | rfl | rfl | rfl | rfl
    · exact .inl rfl
    · exact .inl rfl
    · exact .inr (.inl rfl)
    · exact .inr (.inr (.inl rfl))
    · exact .inr (.inr (.inr rfl))
  · rw [toRat_zero]; exact lt_irrefl 0

theorem toRat_twentyOne : Fp.toRat Fp.twentyOne = 21 := by
  rw [toRat_of_unpack (show Fp.unpack Fp.twentyOne = .fin false (21 * 2 ^ 48) (-48) by decide +kernel)]
  norm_num [Fp.signed]

theorem toRat_fifty : Fp.toRat Fp.fifty = 50 := by
  rw [toRat_of_unpack (show Fp.unpack Fp.fifty = .fin false (25 * 2 ^ 48) (-47) by decide +kernel)]
  norm_num [Fp.signed]

/-- D-B2, D-B3, D-B5, D-B7: each branch of R101, and its boundaries. -/
theorem witness_KaiserBetaFollowsItsBranches :
    (Fp.isFinite 0x4034FFBE76C8B439#64 = true ∧ 0 < Fp.toRat 0x4034FFBE76C8B439#64 ∧
      Fp.toRat 0x4034FFBE76C8B439#64 < 21) ∧
    Fp.toRat Fp.twentyOne = 21 ∧ (21 ≤ Fp.toRat Fp.fifty ∧ Fp.toRat Fp.fifty ≤ 50) ∧
    50 < Fp.toRat 0x404E000000000000#64 := by
  refine ⟨⟨by decide +kernel, toRat_pos (by decide +kernel) (by decide +kernel), ?_⟩, toRat_twentyOne,
    ⟨by rw [toRat_fifty]; norm_num, by rw [toRat_fifty]⟩, ?_⟩
  · rw [← toRat_twentyOne]; exact toRat_lt (by decide +kernel) (by decide +kernel) (by decide +kernel)
  · rw [← toRat_fifty]; exact toRat_lt (by decide +kernel) (by decide +kernel) (by decide +kernel)

/-- D-L2's quotient +0, whose ceiling is 0, and an infinite one. -/
theorem witness_FilterLengthIsForcedOdd :
    (Fp.isFinite (orderQuotient cfgL2.ripple cfgL2.twidth cfgL2.fs) = true ∧
      0 < ⌈Fp.toRat (orderQuotient cfgL2.ripple cfgL2.twidth cfgL2.fs)⌉ + 1) ∧
    Fp.isFinite (orderQuotient cfgRef.ripple least cfgRef.fs) = false ∧
    (Fp.isFinite 0xC000000000000000#64 = true ∧ ⌈Fp.toRat 0xC000000000000000#64⌉ + 1 ≤ 0) := by
  have h0 : orderQuotient cfgL2.ripple cfgL2.twidth cfgL2.fs = 0#64 := by decide +kernel
  refine ⟨⟨by rw [h0]; decide +kernel, by rw [h0, toRat_zero]; norm_num⟩, by decide +kernel, by decide +kernel, ?_⟩
  rw [toRat_of_unpack (show Fp.unpack 0xC000000000000000#64 = .fin true (2 ^ 52) (-51) by decide +kernel)]
  norm_num [Fp.signed]

/-- Hypotheses at the boundaries; the first round ends the series at 0 and overflows at the greatest value; D-I2's
value is the sum through term 6. -/
theorem witness_BesselSeriesFollowsItsRecurrence :
    (Fp.isFinite greatest = true ∧ 0 ≤ Fp.toRat greatest) ∧ (Fp.isFinite 0#64 = true ∧ 0 ≤ Fp.toRat 0#64) ∧
      besselStops (Fp.div 0#64 Fp.two) 0 ∧ besselStops (Fp.div Fp.one Fp.two) 6 ∧
      besselSum (Fp.div Fp.one Fp.two) 6 = 0x3FF441CE4B3841BD#64 ∧
      besselTerm (Fp.div greatest Fp.two) 1 = Fp.inf false :=
  ⟨⟨greatest_finite, (toRat_pos greatest_finite (by decide +kernel)).le⟩, ⟨zero_finite, toRat_zero.ge⟩,
    by unfold besselStops; decide +kernel, by unfold besselStops; decide +kernel, by decide +kernel,
    by decide +kernel⟩

/-- D-L2's ratio is 2; D-E15's is 3.5; D-E17's, 10^10, is beyond the range. -/
theorem witness_ResampleFactorIsTheExactRatio :
    (Fp.isFinite cfgL2.fs = true ∧ 0 < Fp.toRat cfgL2.fs ∧ rateRatio cfgL2.fs 3#32 1#32 = Fp.two ∧
      Fp.toRat Fp.two = (2 : Nat)) ∧
    (rateRatio 0x401C000000000000#64 2#32 1#32 = 0x400C000000000000#64 ∧
      ¬ ∃ n : Int, Fp.toRat 0x400C000000000000#64 = n) ∧
    (rateRatio 0x4202A05F20000000#64 1#32 1#32 = 0x4202A05F20000000#64 ∧
      Fp.toRat 0x4202A05F20000000#64 = (10000000000 : Int)) := by
  refine ⟨⟨by decide +kernel, toRat_pos (by decide +kernel) (by decide +kernel), by decide +kernel, ?_⟩,
    ⟨by decide +kernel, ?_⟩, by decide +kernel, ?_⟩
  · rw [toRat_of_unpack (show Fp.unpack Fp.two = .fin false (2 ^ 52) (-51) by decide +kernel)]
    norm_num [Fp.signed]
  · rintro ⟨n, hn⟩
    rw [toRat_of_unpack (show Fp.unpack 0x400C000000000000#64 = .fin false (7 * 2 ^ 50) (-51) by decide +kernel)]
      at hn
    have h2 : (7 : ℚ) = 2 * n := by rw [← hn]; norm_num [Fp.signed]
    have : (7 : Int) = 2 * n := by exact_mod_cast h2
    omega
  · rw [toRat_of_unpack (show Fp.unpack 0x4202A05F20000000#64 = .fin false (5 ^ 10 * 2 ^ 29) (-19) by
      decide +kernel)]
    norm_num [Fp.signed]

/-! Three-tap designs with D-L3's cutoff succeed whatever SIN is: their outer sincs are a sine in [-1, 1] over
±π/2. -/

theorem magVal_one : Fp.magVal (Fp.mag Fp.one) = 1 := by
  rw [show Fp.mag Fp.one = 1022 * 2 ^ 52 + 2 ^ 52 by decide +kernel, Fp.magVal_code _ _ (by norm_num) (.inr le_rfl)]
  norm_num

theorem finite_of_mag_le_one {a : F64} (h : Fp.mag a ≤ Fp.mag Fp.one) : Fp.isFinite a = true :=
  Fp.isFinite_iff.2 (lt_of_le_of_lt h (by decide +kernel))

theorem magVal_le_one {a : F64} (h : Fp.mag a ≤ Fp.mag Fp.one) : Fp.magVal (Fp.mag a) ≤ 1 :=
  magVal_one ▸ Fp.magVal_strictMono.monotone h

/-- What rounds a number of at most 1 is at most 1. -/
theorem code_le_one {x : ℚ} {n : Nat} (hn : Fp.NearestCode x n) (hx : x ≤ 1) : n ≤ Fp.mag Fp.one :=
  Fp.nearestCode_mono (y := 1) hx hn (magVal_one ▸ Fp.nearestCode_magVal _)

/-- A factor of at most 1 does not enlarge the other. -/
theorem mul_le_right {a b : F64} (ha : Fp.mag a ≤ Fp.mag Fp.one) (hb : Fp.isFinite b = true) :
    Fp.mag (Fp.mul a b) ≤ Fp.mag b := by
  obtain ⟨n, hn, hm⟩ := (Fp.mul_spec (finite_of_mag_le_one ha) hb).2
  have := Fp.nearestCode_mono (mul_le_of_le_one_left (Fp.magVal_nonneg _) (magVal_le_one ha)) hn
    (Fp.nearestCode_magVal (Fp.mag b))
  rw [hm]; omega

theorem mul_le_one {a b : F64} (ha : Fp.mag a ≤ Fp.mag Fp.one) (hb : Fp.mag b ≤ Fp.mag Fp.one) :
    Fp.mag (Fp.mul a b) ≤ Fp.mag Fp.one := (mul_le_right ha (finite_of_mag_le_one hb)).trans hb

theorem div_le_one {a b : F64} (ha : Fp.mag a ≤ Fp.mag Fp.one) (hb : Fp.isFinite b = true)
    (h : Fp.mag Fp.one ≤ Fp.mag b) : Fp.mag (Fp.div a b) ≤ Fp.mag Fp.one := by
  have h1 : 1 ≤ Fp.magVal (Fp.mag b) := magVal_one ▸ Fp.magVal_strictMono.monotone h
  have h0 : Fp.mag b ≠ 0 := by
    have : 0 < Fp.mag Fp.one := by decide +kernel
    omega
  obtain ⟨n, hn, hm⟩ := (Fp.div_spec (finite_of_mag_le_one ha) hb h0).2
  have := code_le_one hn ((div_le_one₀ (by linarith)).2 (le_trans (magVal_le_one ha) h1))
  rw [hm]; omega

theorem inUnit_mag {v : F64} (h : inUnit v = true) : Fp.mag v ≤ Fp.mag Fp.one := by
  have k1 : Fp.key Fp.minusOne = -(Fp.mag Fp.one : Int) := by decide +kernel
  have k2 : Fp.key Fp.one = (Fp.mag Fp.one : Int) := by decide +kernel
  simp only [inUnit, Fp.le, k1, k2, Bool.and_eq_true, decide_eq_true_eq] at h
  generalize Fp.mag Fp.one = m at *
  unfold Fp.key Fp.signed at h
  split at h <;> omega

theorem sinOfMagnitude_mag (x : F64) : Fp.mag (sinOfMagnitude x) ≤ Fp.mag Fp.one := by
  unfold sinOfMagnitude
  dsimp only
  split
  · exact inUnit_mag ‹_›
  · decide +kernel

theorem SIN_mag {x : F64} (h : Fp.isFinite x = true) : Fp.mag (SIN x) ≤ Fp.mag Fp.one := by
  rw [SIN, if_pos h]
  split
  · rw [Fp.mag_neg]; exact sinOfMagnitude_mag _
  · exact sinOfMagnitude_mag _

/-- Each tap of D-L3 is the sinc of 0 or of ±π/2. -/
theorem sinc_cfgL3 {n : Nat} (hn : n < 3) :
    Fp.mag (sinc (Fp.sub (Fp.ofNat n) (tapCentre 3)) (angularCutoff cfgL3.cutoff cfgL3.fs)) ≤ Fp.mag Fp.one := by
  unfold sinc
  split
  · exact le_rfl
  · have ha : (List.range 3).all (fun n => n == 1 ||
        (Fp.isFinite (Fp.mul (angularCutoff cfgL3.cutoff cfgL3.fs) (Fp.sub (Fp.ofNat n) (tapCentre 3))) &&
        decide (Fp.mag Fp.one ≤
          Fp.mag (Fp.mul (angularCutoff cfgL3.cutoff cfgL3.fs) (Fp.sub (Fp.ofNat n) (tapCentre 3)))))) = true := by
      decide +kernel
    have hc : Fp.eq (Fp.sub (Fp.ofNat 1) (tapCentre 3)) 0#64 = true := by decide +kernel
    have := List.all_eq_true.1 ha n (List.mem_range.2 hn)
    simp only [Bool.or_eq_true, beq_iff_eq, Bool.and_eq_true, decide_eq_true_eq] at this
    rcases this with rfl | ⟨h1, h2⟩
    · exact absurd hc ‹_›
    · exact div_le_one (SIN_mag h1) h1 h2

/-- The window values of a three-tap design are there, and at most 1. -/
def windowsFit (beta i0b : F64) : Bool :=
  (List.range 3).all fun n =>
    match kaiserWindow (Fp.sub (Fp.ofNat n) (tapCentre 3)) (tapCentre 3) beta i0b with
    | .ok v => decide (Fp.mag v ≤ Fp.mag Fp.one)
    | .error _ => false

theorem tap_three {beta i0b : F64} (hw : windowsFit beta i0b = true) {n : Nat} (hn : n < 3) :
    ∃ h, tap (angularCutoff cfgL3.cutoff cfgL3.fs) (tapCentre 3) cfgL3.gain beta i0b n = .ok h := by
  have hw := List.all_eq_true.1 hw n (List.mem_range.2 hn)
  unfold tap
  dsimp only at hw ⊢
  split at hw
  · rename_i v hv
    simp only [hv]
    exact ⟨_, if_pos (finite_of_mag_le_one
      (mul_le_one (mul_le_one (sinc_cfgL3 hn) (of_decide_eq_true hw)) le_rfl))⟩
  · cases hw

/-- A tap of D-L3's cutoff fits when its window is at most 1, whatever the finite gain. -/
theorem tapFits_three {g beta i0b v : F64} {n : Nat} (hn : n < 3) (hw : windowOfTap beta i0b 3 n = .ok v)
    (hv : Fp.mag v ≤ Fp.mag Fp.one) (hg : Fp.isFinite g = true) :
    TapFits cfgL3.cutoff cfgL3.fs g beta i0b 3 n :=
  ⟨v, hw, Fp.isFinite_iff.2
    (lt_of_le_of_lt (mul_le_right (mul_le_one (sinc_cfgL3 hn) hv) hg) (Fp.isFinite_iff.1 hg))⟩

/-- Three taps that fit; a window that overflows at tap 1 with β the greatest value; a value that overflows at tap 1
with GAIN the greatest value, `I0(beta)` not divided out. -/
theorem witness_DesignRaisesInTheOrderOfItsPseudocode_coefficients :
    (∀ n, n < 3 → TapFits cfgL3.cutoff cfgL3.fs cfgL3.gain 0#64 Fp.one 3 n) ∧
    ((∀ n, n < 1 → TapFits cfgL3.cutoff cfgL3.fs cfgL3.gain greatest Fp.one 3 n) ∧
      windowOfTap greatest Fp.one 3 1 = .error .besselOverflow) ∧
    ((∀ n, n < 1 → TapFits cfgL3.cutoff cfgL3.fs greatest 0x40169CF0307F23CD#64 Fp.one 3 n) ∧
      windowOfTap 0x40169CF0307F23CD#64 Fp.one 3 1 = .ok 0x40488633EA169F70#64 ∧
      Fp.isFinite (valueOfTap cfgL3.cutoff cfgL3.fs greatest 3 1 0x40488633EA169F70#64) = false) := by
  have one_le : Fp.mag Fp.one ≤ Fp.mag Fp.one := le_rfl
  refine ⟨fun n hn => ?_, ⟨fun n hn => ?_, by decide +kernel⟩, fun n hn => ?_, by decide +kernel,
    by decide +kernel⟩
  · have hw : (List.range 3).all (fun n => decide (windowOfTap 0#64 Fp.one 3 n = .ok Fp.one)) = true := by
      decide +kernel
    exact tapFits_three hn (of_decide_eq_true (List.all_eq_true.1 hw n (List.mem_range.2 hn))) one_le
      (by decide +kernel)
  · obtain rfl : n = 0 := by omega
    exact tapFits_three (v := Fp.one) (by decide) (by decide +kernel) one_le (by decide +kernel)
  · obtain rfl : n = 0 := by omega
    exact tapFits_three (v := Fp.one) (by decide) (by decide +kernel) one_le greatest_finite

theorem designOf_three {c : ConfigRegs} {factor : Nat} {i0b : F64}
    (hc : c.cutoff = cfgL3.cutoff ∧ c.fs = cfgL3.fs ∧ c.gain = cfgL3.gain) (h1 : checkFields c = .ok ())
    (h2 : filterLength 3 c.ripple c.twidth c.fs = .ok 3)
    (h3 : resampleFactorOf c.fs c.decim c.targetRate = .ok factor)
    (h4 : besselI0 (kaiserBeta c.ripple) = .ok i0b) (hw : windowsFit (kaiserBeta c.ripple) i0b = true) :
    ∃ d, designOf 3 c = .ok d ∧ d.len = 3 := by
  obtain ⟨x, hx⟩ := tap_three hw (n := 0) (by decide)
  obtain ⟨y, hy⟩ := tap_three hw (n := 1) (by decide)
  obtain ⟨z, hz⟩ := tap_three hw (n := 2) (by decide)
  have h6 : coefficients c.cutoff c.fs c.gain (kaiserBeta c.ripple) i0b 3 = .ok [x, y, z] := by
    simp only [coefficients, tapLoop, hc, hx, hy, hz]
  exact ⟨{ taps := [x, y, z], len := 3, factor := factor, beta := kaiserBeta c.ripple, decim := c.decim },
    by simp only [designOf, h1, h2, h3, h4, h6, bind, Except.bind, pure, Except.pure], rfl⟩

theorem designOf_cfgL3 : ∃ d, designOf 3 cfgL3 = .ok d ∧ d.len = 3 :=
  designOf_three (factor := 1) (i0b := Fp.one) ⟨rfl, rfl, rfl⟩ (by decide +kernel) (by decide +kernel)
    (by decide +kernel) (by decide +kernel) (by decide +kernel)

/-- D-L3 with the reference ripple of 60 dB and a transition of 16.0: three taps and a window that falls off. -/
def cfgK3 : ConfigRegs := { cfgL3 with twidth := 0x4030000000000000#64, ripple := 0x404E000000000000#64 }

theorem designOf_cfgK3 : ∃ d, designOf 3 cfgK3 = .ok d ∧ d.len = 3 :=
  designOf_three (factor := 1) (i0b := 0x40488633EA169F70#64) ⟨rfl, rfl, rfl⟩ (by decide +kernel)
    (by decide +kernel) (by decide +kernel) (by decide +kernel) (by decide +kernel)

/-- One tap and three; the angle of D-L3's first tap is finite. -/
theorem witness_SuccessfulDesignIsOddSymmetricAndCentred :
    (blank.params.wf = true ∧ blank.coef.length = blank.params.lMax ∧
      designOf blank.params.lMax blank.cfg = .ok designL2) ∧
    (∃ d, designOf blank.params.lMax cfgL3 = .ok d ∧ d.len = 3) ∧
    Fp.isFinite (Fp.mul (angularCutoff cfgL3.cutoff cfgL3.fs) (Fp.sub (Fp.ofNat 0) (tapCentre 3))) = true :=
  ⟨⟨by decide, by decide, designOf_cfgL2⟩, designOf_cfgL3, by decide +kernel⟩

/-- One tap; three with a ripple below 21 dB; three with one of 60 dB, where `t` is 0 for tap 1 and not for tap 0. -/
theorem witness_TapsAreSincTimesWindowTimesGain :
    3 ≤ 7679 ∧ (designOf 3 cfgL2 = .ok designL2 ∧ designL2.len = 1) ∧
    ((∃ d, designOf 3 cfgL3 = .ok d ∧ d.len = 3) ∧ Fp.toRat cfgL3.ripple < 21) ∧
    (∃ d, designOf 3 cfgK3 = .ok d ∧ d.len = 3) ∧
    Fp.eq (Fp.sub (Fp.ofNat 1) (tapCentre 3)) 0#64 = true ∧
    Fp.eq (Fp.sub (Fp.ofNat 0) (tapCentre 3)) 0#64 = false :=
  ⟨by decide, ⟨designOf_cfgL2, rfl⟩, ⟨designOf_cfgL3, by
    rw [← toRat_twentyOne]
    exact toRat_lt (by decide +kernel) (by decide +kernel) (by decide +kernel)⟩, designOf_cfgK3,
    by decide +kernel, by decide +kernel⟩

theorem witness_EightDecibelsGivesAPureGain :
    checkFields cfgL2 = .ok () ∧ cfgL2.ripple = Fp.eight ∧
      Fp.isFinite (Fp.div cfgL2.twidth cfgL2.fs) = true ∧ Fp.toRat (Fp.div cfgL2.twidth cfgL2.fs) ≠ 0 ∧
      resampleFactorOf cfgL2.fs cfgL2.decim cfgL2.targetRate = .ok 2 :=
  ⟨by decide +kernel, by decide, by decide +kernel, (toRat_pos (by decide +kernel) (by decide +kernel)).ne',
    by decide +kernel⟩

theorem witness_FirStepFollowsItsRule :
    third.FilterReady ∧ third.EmitsFir ∧ sample.FilterReady ∧ ¬ sample.EmitsFir := by
  refine ⟨third_inv.filterReady rfl, ?_, sample_inv.filterReady rfl, ?_⟩ <;> unfold State.EmitsFir <;> decide

theorem witness_OutputCountFollowsTheFormula :
    third.Inv ∧ third.CountsAgree ∧ third.counters.nIn.toNat + 1 < 2 ^ 64 ∧
      (nextOf (step (third.withFetchWord 32 4))).isSome = true := by
  refine ⟨third_inv, ?_, by decide, by decide +kernel⟩
  unfold State.CountsAgree outputCount
  decide

/-- A machine with the reference filter's latches that has consumed `n` samples and produced `m` outputs. -/
def counted (n m : BitVec 64) : State :=
  { sample with
    latched := { sample.latched with filterLen := 1741#32, decimActive := 5#32 }
    counters := { sample.counters with nIn := n, nFirOut := m } }

/-- Below `L`, at 1740 and at 1745 samples; and a FIR_STEP on the first sample that gives an output. -/
theorem witness_OutputCountOfTheReferenceFilter :
    (counted 1740#64 0#64).CountsAgree ∧ (counted 1745#64 1#64).CountsAgree ∧
      (counted 1740#64 0#64).status.designed = true ∧ third.CountsAgree ∧
      third.counters.nIn.toNat + 1 < 2 ^ 64 ∧ third.latched.filterLen.toNat ≤ third.counters.nIn.toNat + 1 ∧
      (nextOf (exec .firStep third)).isSome = true := by
  refine ⟨?_, ?_, rfl, ?_, by decide, by decide, by decide +kernel⟩ <;>
    (unfold State.CountsAgree outputCount; decide)

/-- `third` with another quadrature input and ring. -/
def thirdQ : State :=
  { third with
    ring := [(0x3F800000#32, 1#32), (0#32, 2#32), (0#32, 3#32)]
    operands := { third.operands with inQ := 0x7FC00000#32 } }

theorem witness_FilterLanesAreIndependent :
    third.FilterReady ∧ thirdQ.FilterReady ∧ thirdQ.coef = third.coef ∧ thirdQ.latched = third.latched ∧
      thirdQ.wr = third.wr ∧ thirdQ.counters = third.counters ∧ thirdQ.draws = third.draws ∧
      thirdQ.results = third.results ∧ thirdQ.ring.map (·.1) = third.ring.map (·.1) ∧
      thirdQ.operands.inI = third.operands.inI ∧
      (nextOf (exec .firStep third)).isSome = true ∧ (nextOf (exec .firStep thirdQ)).isSome = true :=
  ⟨third_inv.filterReady rfl, ⟨rfl, designedOk_of rfl rfl rfl (by decide), rfl, rfl⟩, rfl, rfl, rfl, rfl, rfl, rfl,
    rfl, rfl, by decide +kernel, by decide +kernel⟩

/-- `third` with zeros of both signs in the ring and at the input, but for the slot the input overwrites. -/
def thirdZero : State :=
  { third with
    ring := [(0#32, 0x80000000#32), (0x80000000#32, 0#32), (0x7FC00000#32, 0x3F800000#32)]
    operands := { third.operands with inI := 0x80000000#32, inQ := 0#32 } }

theorem witness_ZeroInputGivesZeroOutput :
    thirdZero.FilterReady ∧ thirdZero.EmitsFir ∧
      (thirdZero.operands.inI = 0x80000000#32 ∧ thirdZero.operands.inQ = 0#32) ∧
      ∀ (j : Nat) (x : F32 × F32), j < thirdZero.latched.filterLen.toNat → j ≠ thirdZero.wr →
        thirdZero.ring[j]? = some x →
        (x.1 = 0#32 ∨ x.1 = 0x80000000#32) ∧ (x.2 = 0#32 ∨ x.2 = 0x80000000#32) :=
  ⟨⟨rfl, designedOk_of rfl rfl rfl (by decide), rfl, rfl⟩, by unfold State.EmitsFir; decide, ⟨rfl, rfl⟩, by
    intro j x hj hw hx
    have hj : j < 3 := hj
    have hw : j ≠ 2 := hw
    rcases (by omega : j = 0 ∨ j = 1) with rfl | rfl <;> cases hx <;> decide⟩

/-- `third` with another entry in the slot no sample has been written to. -/
def thirdUnwritten : State :=
  { third with ring := [(0x3F800000#32, 0#32), (0#32, 0x3F800000#32), (0x7FC00000#32, 1#32)] }

/-- Both clauses; the second while the ring fills, and once it is full. -/
theorem witness_UnwrittenRingEntriesAreNeverRead :
    (third.CursorFollows ∧ third.counters.nIn.toNat + 1 < 2 ^ 64 ∧ third.SameButUnwritten thirdUnwritten ∧
      third.ring ≠ thirdUnwritten.ring ∧ (nextOf (exec .firStep third)).isSome = true) ∧
    third.counters.nIn.toNat < third.latched.filterLen.toNat ∧
      (nextOf (step (third.withFetchWord 32 4))).isSome = true ∧ (counted 1745#64 1#64).CursorFollows := by
  refine ⟨⟨fun _ _ => rfl, by decide, ⟨rfl, rfl, fun j hj _ => ?_⟩, by decide, by decide +kernel⟩, by decide,
    by decide +kernel, fun _ h => absurd h (by decide)⟩
  have hj : j < 2 := hj
  rcases (by omega : j = 0 ∨ j = 1) with rfl | rfl <;> rfl

/-- M-7's product is zero in both parts; M-6's is not. -/
theorem witness_DemodStepFollowsItsRule :
    sample.counters.nDemod = 0#64 ∧
    (Fp.eq (productRe (0#64, 0#64) (Fp.one, Fp.one)) 0#64 = true ∧
      Fp.eq (productIm (0#64, 0#64) (Fp.one, Fp.one)) 0#64 = true) ∧
    (1#64 ≠ 0#64 ∧ ¬ (Fp.eq (productRe (Fp.one, Fp.one) (Fp.one, Fp.one)) 0#64 = true ∧
      Fp.eq (productIm (Fp.one, Fp.one) (Fp.one, Fp.one)) 0#64 = true)) := by decide +kernel

/-- The degenerate step draws an angle: a run may draw one that differs from the one before. -/
theorem witness_AnglesLieInTheHalfOpenRange :
    ∃ s t : State, exec .demodStep s = .next t ∧ t.results.angle ≠ s.results.angle := by
  by_cases h : drawAngle sample.draws = 0#64
  · exact ⟨{ sample with results := { sample.results with angle := Fp.one } }, _, rfl, by
      show drawAngle sample.draws ≠ Fp.one
      rw [h]; decide⟩
  · exact ⟨sample, _, rfl, h⟩

theorem witness_QuantizerClipsScalesAndTruncates :
    Fp.isNaN Fp.one = false ∧ Fp.le Fp.one Fp.one = true ∧ Fp.le Fp.minusOne Fp.minusOne = true ∧
      Fp.le Fp.minusOne Fp.one = true ∧ Fp.le Fp.one (Fp.inf false) = true := by decide +kernel

theorem witness_ResampleStepFollowsItsRule :
    sample.status.designed = true ∧ sample.latched.resampleFactor ≠ 0#32 ∧ ¬ sample.HeldBy .resampleStep ∧
      sample.counters.nRsIn.toNat % sample.latched.resampleFactor.toNat = 0 ∧
      (1#64).toNat % sample.latched.resampleFactor.toNat ≠ 0 := by unfold State.HeldBy; decide

/-- A full FIFO is emptied, the pending emission is made and received; and one step that emits, from a machine whose
counts agree. -/
theorem witness_AudioReachesTheSinkInOrder :
    let s := { pendingAt full 6#32 with agenda := [.sink, .core, .sink] }
    Turn.reset ∉ s.agenda ∧ s.counters.nAudio.toNat + 3 < 2 ^ 64 ∧
      (∃ t, Sys2Proof.core.run 3 s = .next t) ∧ (emissions 3 s).length = 1 ∧
      (pendingAt third 6#32).EmissionsAgree ∧ (pendingAt third 6#32).counters.nRsIn.toNat + 1 < 2 ^ 64 ∧
      ∃ t, step (pendingAt third 6#32) = .next t ∧ emitted (pendingAt third 6#32) t ≠ [] :=
  ⟨by decide, by decide, ⟨_, rfl⟩, by decide +kernel, by unfold State.EmissionsAgree; decide, by decide, _, rfl,
    by decide +kernel⟩

theorem not_restarts_of_idle {s : State} (h : s.status.busy = false) : ¬ s.RestartsStream :=
  fun hr => absurd (h.symm.trans hr.2.1) (by decide)

/-- The end of a run with a sink turn and a host read left; a START with the FIFO empty; a reset. -/
theorem witness_AudioCountFollowsTheSamples :
    (∃ t, step sample = .next t) ∧ ¬ sample.RestartsStream ∧ sample.AudioCountAgrees 0 ∧
    ((pendingAt sample 2#32).RestartsStream ∧ sample.fifo = [] ∧ ∃ t, step (pendingAt sample 2#32) = .next t) ∧
    (∃ t, step { sample with agenda := [.reset] } = .next t) ∧
    State.RunOver { sample with agenda := [.sink, .hostRead .word 0x100C0] } ∧
    State.AudioCountAgrees { sample with agenda := [.sink, .hostRead .word 0x100C0] } 0 := by
  refine ⟨⟨_, rfl⟩, not_restarts_of_idle rfl, rfl, ⟨⟨.inl rfl, rfl, .inl rfl⟩, rfl, _, rfl⟩, ⟨_, rfl⟩,
    ⟨?_, rfl, rfl⟩, rfl⟩
  intro u hu ⟨v, hv⟩
  simp only [List.mem_cons, List.not_mem_nil, or_false] at hu
  rcases hu with rfl | rfl <;> cases hv

theorem witness_PushIqIsTheChainOfTheUnits :
    third.Inv ∧ third.status.designed = true ∧ ¬ third.HeldBy .pushIq ∧ third.EmitsFir ∧
      sample.Inv ∧ ¬ sample.HeldBy .pushIq ∧ ¬ sample.EmitsFir := by
  refine ⟨third_inv, rfl, ?_, ?_, sample_inv, ?_, ?_⟩ <;> first | (unfold State.HeldBy; decide) | (unfold State.EmitsFir; decide)

theorem witness_EveryCommandClearsBusyUnlessHeld :
    (∃ t, exec .nop sample = .next t) ∧ ∃ t, exec .resampleStep full = .next t := ⟨⟨_, rfl⟩, ⟨_, rfl⟩⟩

theorem witness_CommandsKeepTheHostRegisters : ∃ t, exec .pushIq third = .next t := ⟨_, rfl⟩

theorem witness_FirstErrorWins :
    (flagged true true .illegalCmd).status.err = true ∧ (flagged true true .illegalCmd).status.nonfinite = true ∧
      ∃ t, exec .start (flagged true true .illegalCmd) = .next t := ⟨rfl, rfl, _, rfl⟩

theorem witness_OnlyAWriteToCmdSetsBusy :
    ∃ t, step { sample with agenda := [.hostWrite .word 0x10010 1#32] } = .next t ∧
      sample.status.busy = false ∧ t.status.busy = true := ⟨_, rfl, rfl, rfl⟩

theorem witness_OnlyDesignAndResetChangeTheFilter : ∃ t, step (pendingAt third 4#32) = .next t := ⟨_, rfl⟩

theorem witness_ResultsKeepWhileIdle :
    (∃ t, step sample = .next t) ∧ sample.status.busy = false ∧ ∀ rest, sample.agenda ≠ .reset :: rest :=
  ⟨⟨_, rfl⟩, rfl, fun _ h => by cases h⟩

theorem witness_PendingCommandCompletesAfterASinkTurn :
    State.Inv { pendingAt full 6#32 with agenda := [.sink] } ∧ (pendingAt full 6#32).status.busy = true :=
  ⟨inv_agenda (inv_pendingAt full_inv _) _, rfl⟩

theorem witness_EveryStepKeepsTheInvariant : third.Inv ∧ ∃ t, step (third.withFetchWord 32 4) = .next t :=
  ⟨third_inv, _, rfl⟩

theorem witness_InvariantStatesNeverFault :
    (pendingAt third 4#32).Inv ∧ State.Inv { sample with agenda := [.hostRead .byte 0x10000] } ∧
      step { sample with agenda := [.hostRead .byte 0x10000] } = .refused .notAlignedWord ∧
      step { sample with agenda := [.hostWrite .word 0x20000 0#32] } = .refused .outsideWindow :=
  ⟨inv_pendingAt third_inv _, inv_agenda sample_inv _, rfl, rfl⟩

end Sys2Proof.Tests
end

section
/-! SUPPORT. What a read of each bus word returns and which writes are ignored: the registers below the
coefficient window, the bits of STATUS, FIFO_LEVEL, the window (R28 to R31, R33, R38, R42, R61); and the
obligations about them. -/

namespace Sys2Proof.Machine

/-! ### The register map -/

theorem registerMap_offset_lt {off : Nat} {b : BusWord} (h : registerMap.lookup off = some b) : off < 0x1000 := by
  obtain ⟨l₁, l₂, hsplit, -⟩ := List.lookup_eq_some_iff.1 h
  have hmem : (off, b) ∈ registerMap := by simp [hsplit]
  exact (by decide : ∀ p ∈ registerMap, p.1 < 0x1000) _ hmem

/-- A row of the register map stands at its offset, whatever the size of the window. -/
theorem busWordAt_of_lookup {off : Nat} {b : BusWord} (h : registerMap.lookup off = some b) (lMax : Nat) :
    busWordAt lMax off = b := by
  have hlt := registerMap_offset_lt h
  rw [busWordAt, if_neg (by omega), h, Option.getD_some]

theorem State.memRead_of_lookup {off : Nat} {b : BusWord} (s : State) (h : registerMap.lookup off = some b) :
    s.memRead off = s.readWord b := by
  rw [State.memRead, busWordAt_of_lookup h]

theorem State.memWrite_of_not_isWritable {s : State} {off : Nat} (v : Word)
    (h : (busWordAt s.params.lMax off).isWritable = false) : s.memWrite off v = s := by
  simp [State.memWrite, h]

theorem State.memWrite_of_lookup_readOnly {off : Nat} {b : BusWord} (s : State) (v : Word)
    (h : registerMap.lookup off = some b) (hb : b.isWritable = false) : s.memWrite off v = s :=
  State.memWrite_of_not_isWritable v (by rw [busWordAt_of_lookup h, hb])

@[simp] theorem State.memRead_status (s : State) : s.memRead 0x014 = s.statusWord :=
  s.memRead_of_lookup (b := .status) rfl

@[simp] theorem State.memRead_fifoLevel (s : State) : s.memRead 0x01C = s.fifoLevel :=
  s.memRead_of_lookup (b := .fifoLevel) rfl

/-! ### The coefficient window -/

theorem busWordAt_coefLo {lMax i : Nat} (h : i < lMax) : busWordAt lMax (0x1000 + 8 * i) = .coefLo i := by
  rw [busWordAt, if_pos (by omega), if_pos (by omega)]
  congr 1; omega

theorem busWordAt_coefHi {lMax i : Nat} (h : i < lMax) : busWordAt lMax (0x1004 + 8 * i) = .coefHi i := by
  rw [busWordAt, if_pos (by omega), if_neg (by omega)]
  congr 1; omega

theorem State.windowEntry_of_lt {s : State} {i : Nat} (h : i < s.coef.length) :
    s.windowEntry i = if i < s.latched.filterLen.toNat then s.coef[i] else 0#64 := by
  rw [State.windowEntry, List.getD_eq_getElem _ _ h]

/-- Settles O12: the two offsets of entry `i` reach its two halves, and no write reaches the window. -/
theorem coefficientWindowReadsTheTaps : Obligations.CoefficientWindowReadsTheTaps := by
  intro s i v hlen h
  have hlo := busWordAt_coefLo (hlen ▸ h)
  have hhi := busWordAt_coefHi (hlen ▸ h)
  refine ⟨?_, ?_, State.memWrite_of_not_isWritable v (by rw [hlo]; rfl),
    State.memWrite_of_not_isWritable v (by rw [hhi]; rfl)⟩
  · rw [State.memRead, hlo, State.readWord, State.windowEntry_of_lt h, apply_ite lowWord]; rfl
  · rw [State.memRead, hhi, State.readWord, State.windowEntry_of_lt h, apply_ite highWord]; rfl

/-! ### The identity registers -/

/-- Settles O9: the four rows of the register map, none of them writable. -/
theorem identityRegistersAreConstant : Obligations.IdentityRegistersAreConstant := fun s v =>
  ⟨s.memRead_of_lookup (b := .id) rfl, s.memRead_of_lookup (b := .version) rfl,
    s.memRead_of_lookup (b := .lmax) rfl, s.memRead_of_lookup (b := .fifoDepth) rfl,
    s.memWrite_of_lookup_readOnly v rfl rfl, s.memWrite_of_lookup_readOnly v rfl rfl,
    s.memWrite_of_lookup_readOnly v rfl rfl, s.memWrite_of_lookup_readOnly v rfl rfl⟩

/-! ### STATUS -/

/-- The bits of STATUS from bit 0 up (R33); every bit from 10 on is 0 (R40). -/
theorem State.statusWord_getLsbD (s : State) (b : Nat) :
    s.statusWord.getLsbD b =
      [s.status.busy, s.status.designed, s.status.firValid, s.status.audioValid, s.fifoFull, false, false, false,
        s.status.err, s.status.nonfinite].getD b false := by
  -- STATUS as the concatenation it is: the append lemma asks for the width as a sum.
  change BitVec.getLsbD (w := 22 + 1 + 1 + 3 + 1 + 1 + 1 + 1 + 1) s.statusWord b = _
  simp only [State.statusWord, BitVec.getLsbD_append, BitVec.getLsbD_ofBool, BitVec.getLsbD_zero]
  rcases Nat.lt_or_ge b 10 with hlow | hhigh
  · interval_cases b <;> simp
  · obtain ⟨k, rfl⟩ := Nat.exists_eq_add_of_le' hhigh
    simp

@[simp] theorem State.reset_fifoFull : State.reset.fifoFull = false := rfl

/-- Settles O10, bit by bit. -/
theorem statusBitsReadTheirFields : Obligations.StatusBitsReadTheirFields := by
  intro s
  simp only [State.memRead_status, State.statusWord_getLsbD]
  refine ⟨rfl, rfl, rfl, rfl, s.fifoFull_iff, rfl, rfl, State.reset_fifoFull, fun b hb => ?_⟩
  rcases hb with hreserved | hhigh
  · obtain rfl | rfl | rfl : b = 5 ∨ b = 6 ∨ b = 7 := by omega
    all_goals rfl
  · exact List.getD_eq_default _ _ hhigh

/-! ### FIFO_LEVEL -/

theorem Params.fifoDepth_le {p : Params} (h : p.wf = true) : p.fifoDepth ≤ 0xFFFF := by
  simp only [Params.wf, Bool.and_eq_true, decide_eq_true_eq] at h
  obtain ⟨⟨_, hdepth⟩, _⟩ := h
  exact hdepth

theorem State.Inv.fifoLevel_toNat {s : State} (h : s.Inv) : s.fifoLevel.toNat = s.fifo.length := by
  have hlen := h.fifoLen
  have hdepth := Params.fifoDepth_le h.params
  rw [State.fifoLevel, BitVec.toNat_ofNat, Nat.mod_eq_of_lt (by omega)]

/-- Settles O11: the depth fits the register, so the level is not cut off. -/
theorem fifoLevelCountsTheFifo : Obligations.FifoLevelCountsTheFifo := by
  intro s v h
  have hlevel : (s.memRead 0x01C).toNat = s.fifo.length := by rw [State.memRead_fifoLevel, h.fifoLevel_toNat]
  exact ⟨hlevel, hlevel ▸ h.fifoLen, s.memWrite_of_lookup_readOnly v rfl rfl,
    State.memRead_fifoLevel State.reset⟩

end Sys2Proof.Machine
end

section
/-! SUPPORT. The register map as the bus sees it: which offsets are unmapped, which take a write, and what an
accepted write does to every later read (R78, R79, R80); and the obligations about them. -/

namespace Sys2Proof.Machine

/-! ### The rows of the register map -/

theorem mem_registerMap_of_lookup {off : Nat} {b : BusWord} (h : registerMap.lookup off = some b) :
    (off, b) ∈ registerMap := by
  obtain ⟨l₁, l₂, hsplit, -⟩ := List.lookup_eq_some_iff.1 h
  simp [hsplit]

/-- The last row of R27's table stands at 0x0C4. -/
theorem registerMap_lookup_eq_none {off : Nat} (h : 0x0C8 ≤ off) : registerMap.lookup off = none := by
  cases hb : registerMap.lookup off with
  | none => rfl
  | some b =>
    have hlt : off < 0x0C8 :=
      (by decide : ∀ p ∈ registerMap, p.1 < 0x0C8) _ (mem_registerMap_of_lookup hb)
    omega

theorem busWordAt_of_unmapped {lMax off : Nat} (h : (0x0C8 ≤ off ∧ off ≤ 0x0FFC) ∨ 0x1000 + 8 * lMax ≤ off) :
    busWordAt lMax off = .reserved := by
  rw [busWordAt, if_neg (by omega), registerMap_lookup_eq_none (by omega), Option.getD_none]

/-- A bus word that takes writes is a row of the register map: the window and the unmapped offsets take none. -/
theorem mem_registerMap_of_isWritable {lMax off : Nat} (h : (busWordAt lMax off).isWritable = true) :
    (off, busWordAt lMax off) ∈ registerMap := by
  unfold busWordAt at h ⊢
  split_ifs at h ⊢ with hwindow hlow
  · cases h
  · cases h
  · cases hb : registerMap.lookup off with
    | none => rw [hb] at h; cases h
    | some b => exact mem_registerMap_of_lookup hb

theorem isWritable_busWordAt_iff {lMax off : Nat} :
    (busWordAt lMax off).isWritable = true ↔ off ∈ writableOffsets := by
  constructor
  · intro h
    exact (by decide : ∀ p ∈ registerMap, p.2.isWritable = true → p.1 ∈ writableOffsets) _
      (mem_registerMap_of_isWritable h) h
  · intro h
    have hlt : off < 0x1000 := (by decide : ∀ o ∈ writableOffsets, o < 0x1000) _ h
    rw [busWordAt, if_neg (by omega)]
    exact (by decide : ∀ o ∈ writableOffsets, ((registerMap.lookup o).getD .reserved).isWritable = true) _ h

/-- No two offsets reach the same writable bus word. -/
theorem busWordAt_inj_of_isWritable {lMax off other : Nat} (hw : (busWordAt lMax off).isWritable = true)
    (h : busWordAt lMax other = busWordAt lMax off) : other = off := by
  have hoff := mem_registerMap_of_isWritable hw
  have hother := mem_registerMap_of_isWritable (h ▸ hw : (busWordAt lMax other).isWritable = true)
  have hwords : (registerMap.map Prod.snd).Nodup := by decide
  exact congrArg Prod.fst (List.inj_on_of_nodup_map hwords hother hoff h)

theorem busWordAt_eq_cmd_iff {lMax off : Nat} : busWordAt lMax off = .cmd ↔ off = 0x010 :=
  ⟨busWordAt_eq_cmd, fun h => h ▸ busWordAt_of_lookup rfl lMax⟩

theorem busWordAt_eq_status_iff {lMax off : Nat} : busWordAt lMax off = .status ↔ off = 0x014 := by
  have hstatus : busWordAt lMax 0x014 = .status := busWordAt_of_lookup rfl lMax
  exact ⟨fun h => busWordAt_inj_of_isWritable (by rw [hstatus]; rfl) (h.trans hstatus.symm), fun h => h ▸ hstatus⟩

/-! ### The three outcomes of a write (R79, R80) -/

theorem State.memWrite_of_not_mem {s : State} {off : Nat} (v : Word) (h : off ∉ writableOffsets) :
    s.memWrite off v = s :=
  State.memWrite_of_not_isWritable v (Bool.eq_false_iff.2 (mt isWritable_busWordAt_iff.1 h))

theorem State.memWrite_of_busy {s : State} {off : Nat} (v : Word) (h : off ∈ writableOffsets)
    (hbusy : s.status.busy = true) : s.memWrite off v = s.report .writeWhileBusy := by
  simp [State.memWrite, isWritable_busWordAt_iff.2 h, hbusy]

theorem State.memWrite_of_idle {s : State} {off : Nat} (v : Word) (h : off ∈ writableOffsets)
    (hidle : s.status.busy = false) : s.memWrite off v = s.writeWord (busWordAt s.params.lMax off) v := by
  simp [State.memWrite, isWritable_busWordAt_iff.2 h, hidle]

/-- The W1C write of R39, bit by bit. -/
theorem State.writeStatus_eq (s : State) (v : Word) :
    s.writeStatus v =
      { s with
        errCode := if v.getLsbD 8 then .noError else s.errCode
        status := { s.status with
          err := if v.getLsbD 8 then false else s.status.err
          nonfinite := if v.getLsbD 9 then false else s.status.nonfinite } } := by
  unfold State.writeStatus
  cases v.getLsbD 8 <;> cases v.getLsbD 9 <;> rfl

/-! ### What reads return after an accepted write -/

@[simp] theorem lowWord_append (hi lo : Word) : lowWord (hi ++ lo) = lo := BitVec.extractLsb'_append_eq_right

@[simp] theorem highWord_append (hi lo : Word) : highWord (hi ++ lo) = hi := BitVec.extractLsb'_append_eq_left

theorem State.read64_write64 (s : State) (r r' : Reg64) (v : BitVec 64) :
    (s.write64 r v).read64 r' = if r' = r ∧ r.isRW = true then v else s.read64 r' := by
  cases r <;> cases r' <;> rfl

/-- Storing a 64-bit register changes what its own two words read, and no other. -/
theorem State.readWord_write64 (s : State) {r : Reg64} (hr : r.isRW = true) (v : BitVec 64) (b : BusWord) :
    (s.write64 r v).readWord b =
      if b = .lo r then lowWord v else if b = .hi r then highWord v else s.readWord b := by
  cases b with
  | lo r' => simp [State.readWord, State.read64_write64, hr, apply_ite lowWord]
  | hi r' => simp [State.readWord, State.read64_write64, hr, apply_ite highWord]
  | _ => cases r <;> rfl

/-- One law for every RW bus word: it reads back what was stored, and every other word reads as before. -/
theorem State.readWord_writeWord (s : State) {b : BusWord} (hb : b.isWritable = true) (hcmd : b ≠ .cmd)
    (hstatus : b ≠ .status) (v : Word) (b' : BusWord) :
    (s.writeWord b v).readWord b' = if b' = b then v else s.readWord b' := by
  cases b with
  | cmd => exact absurd rfl hcmd
  | status => exact absurd rfl hstatus
  | lo r =>
    rw [State.writeWord, State.readWord_write64 s hb, lowWord_append, highWord_append]
    by_cases hhi : b' = .hi r
    · simp [hhi, State.readWord]
    · simp [hhi]
  | hi r =>
    rw [State.writeWord, State.readWord_write64 s hb, lowWord_append, highWord_append]
    by_cases hlo : b' = .lo r
    · simp [hlo, State.readWord]
    · simp [hlo]
  | decim | targetRate | inI | inQ =>
    cases b' with
    | lo r | hi r => cases r <;> rfl
    | _ => rfl
  | _ => cases hb

theorem State.writeWord_eq_withHostRegisters (s : State) {b : BusWord} (hcmd : b ≠ .cmd) (hstatus : b ≠ .status)
    (v : Word) : s.writeWord b v = s.withHostRegisters (s.writeWord b v) := by
  rcases s.writeWord_cases b v with ⟨h, -⟩ | ⟨h, -⟩ | h
  · exact absurd h hcmd
  · exact absurd h hstatus
  · exact h

section Stored

variable {s : State} {off : Nat} (v : Word) (h : off ∈ writableOffsets) (hidle : s.status.busy = false)
  (hcmd : off ≠ 0x010) (hstatus : off ≠ 0x014)
include h hidle hcmd hstatus

/-- An accepted write to an RW offset changes the host's registers alone. -/
theorem State.memWrite_eq_withHostRegisters : s.memWrite off v = s.withHostRegisters (s.memWrite off v) := by
  rw [State.memWrite_of_idle v h hidle]
  exact s.writeWord_eq_withHostRegisters (mt busWordAt_eq_cmd_iff.1 hcmd) (mt busWordAt_eq_status_iff.1 hstatus) v

/-- After an accepted write to an RW offset, that offset reads the word and every other reads as before. -/
theorem State.memRead_memWrite (other : Nat) :
    (s.memWrite off v).memRead other = if other = off then v else s.memRead other := by
  have hparams : (s.memWrite off v).params = s.params := by
    rw [State.memWrite_eq_withHostRegisters v h hidle hcmd hstatus, State.withHostRegisters_params]
  have hw := (isWritable_busWordAt_iff (lMax := s.params.lMax)).2 h
  have hsame : busWordAt s.params.lMax other = busWordAt s.params.lMax off ↔ other = off :=
    ⟨busWordAt_inj_of_isWritable hw, fun heq => heq ▸ rfl⟩
  rw [State.memRead, hparams, State.memWrite_of_idle v h hidle,
    s.readWord_writeWord hw (mt busWordAt_eq_cmd_iff.1 hcmd) (mt busWordAt_eq_status_iff.1 hstatus), State.memRead]
  simp only [hsame]

end Stored

/-! ### The obligations -/

/-- Settles O13: an unmapped offset is `reserved`, and only the offsets of R80's list take a write. -/
theorem unmappedAndReadOnlyOffsetsIgnoreWrites : Obligations.UnmappedAndReadOnlyOffsetsIgnoreWrites := by
  intro s off v _ _
  refine ⟨fun hunmapped => ?_, s.memRead_of_lookup (b := .cmd) rfl, State.memWrite_of_not_mem v⟩
  rw [State.memRead, busWordAt_of_unmapped hunmapped, State.readWord]

/-- Settles O14: off R80's list nothing happens; on it the write is a report while BUSY, else the write of the bus
word at the offset. -/
theorem writesFollowTheBusyRule : Obligations.WritesFollowTheBusyRule := by
  intro s off v
  refine ⟨State.memWrite_of_not_mem v, State.memWrite_of_busy v, ?_, ?_, fun h hidle hcmd hstatus => ⟨?_, ?_, ?_⟩⟩
  · rintro hidle rfl
    rw [State.memWrite_of_idle v (by decide) hidle, busWordAt_eq_cmd_iff.2 rfl, State.writeWord, State.issue]
  · rintro hidle rfl
    rw [State.memWrite_of_idle v (by decide) hidle, busWordAt_eq_status_iff.2 rfl, State.writeWord,
      State.writeStatus_eq]
  · rw [State.memRead_memWrite v h hidle hcmd hstatus, if_pos rfl]
  · intro other _ hne
    rw [State.memRead_memWrite v h hidle hcmd hstatus, if_neg hne]
  · rw [State.memWrite_eq_withHostRegisters v h hidle hcmd hstatus]
    rfl

end Sys2Proof.Machine
end

section
/-! SUPPORT. The opcode map (R91): what the decoder answers on a command's own word and on a word outside the map. -/

namespace Sys2Proof

/-- R91, R93: the decoder gives each command back from its own word. -/
@[simp] theorem decodeWord_encodeWord (i : Instr) : decodeWord (encodeWord i) = some i := by
  cases i <;> rfl

/-- R93: the map ends at 0x06, whatever RSVD is. -/
theorem decodeWord_of_seven_le_opcode {w : Word} (h : 7 ≤ (w.extractLsb' 0 8).toNat) : decodeWord w = none := by
  unfold decodeWord
  split
  · rfl
  · split
    case h_8 => rfl
    all_goals omega

/-- Settles O1: each word of the map is its command's own word, and the opcode of `0#24 ++ op` is `op`. -/
theorem opcodeMapDecodes : Obligations.OpcodeMapDecodes := by
  refine ⟨decodeWord_encodeWord .nop, decodeWord_encodeWord .design, decodeWord_encodeWord .start,
    decodeWord_encodeWord .pushIq, decodeWord_encodeWord .firStep, decodeWord_encodeWord .demodStep,
    decodeWord_encodeWord .resampleStep, fun op hop => decodeWord_of_seven_le_opcode ?_⟩
  rwa [BitVec.extractLsb'_append_eq_right]

end Sys2Proof
end

section
/-! SUPPORT. The exact conversions of R20 on finite values: ceiling, truncation and the integer test are those of
the exact number; the constants of R107; quotients by a whole number stay finite. -/

namespace Sys2Proof.Fp

/-! ### The exact value as a whole number or as a fraction -/

theorem toRat_of_unpack_of_nonneg {a : F64} {s : Bool} {m : Nat} {e : Int} (h : unpack a = .fin s m e) (he : 0 ≤ e) :
    toRat a = (signed s (m * 2 ^ e.toNat) : Int) := by
  lift e to ℕ using he
  cases s <;> simp [toRat, h, signed]

theorem toRat_of_unpack_of_neg {a : F64} {s : Bool} {m : Nat} {e : Int} (h : unpack a = .fin s m e) (he : ¬ 0 ≤ e) :
    toRat a = (signed s m : Int) / ((2 ^ (-e).toNat : Nat) : ℚ) := by
  obtain ⟨k, rfl⟩ : ∃ k : Nat, e = -k := ⟨(-e).toNat, by omega⟩
  simp [toRat, h, div_eq_mul_inv]

theorem signed_div (s : Bool) (m d : Nat) : signed s (m / d) = (signed s m).tdiv d := by
  cases s <;> simp [signed]

theorem natCast_dvd_signed {s : Bool} {m d : Nat} : (d : Int) ∣ signed s m ↔ m % d = 0 := by
  rw [← Nat.dvd_iff_mod_eq_zero]
  cases s <;> simp [signed, Int.natCast_dvd_natCast]

/-- A fraction is the whole number `n` exactly when its numerator is `n` times its denominator. -/
theorem intCast_div_natCast_eq_iff {v n : Int} {d : Nat} (hd : d ≠ 0) : (v : ℚ) / d = n ↔ v = n * d := by
  rw [div_eq_iff (by exact_mod_cast hd)]
  exact_mod_cast Iff.rfl

/-! ### The conversions -/

/-- `ceil` of R20. -/
theorem ceil_eq_ceil_toRat {a : F64} (ha : isFinite a = true) : ceil a = ⌈toRat a⌉ := by
  obtain ⟨m, e, hu, -⟩ := unpack_finite ha
  simp only [ceil, hu]
  split
  next he => rw [toRat_of_unpack_of_nonneg hu he, Int.ceil_intCast]
  next he => rw [toRat_of_unpack_of_neg hu he, Rat.ceil_intCast_div_natCast]

/-- `trunc` of R20 on a whole number. -/
theorem trunc_of_toRat_eq_intCast {a : F64} {n : Int} (ha : isFinite a = true) (h : toRat a = n) : trunc a = n := by
  obtain ⟨m, e, hu, -⟩ := unpack_finite ha
  simp only [trunc, hu]
  split
  next he =>
    rw [toRat_of_unpack_of_nonneg hu he] at h
    exact_mod_cast h
  next he =>
    have hd : 2 ^ (-e).toNat ≠ 0 := by positivity
    rw [toRat_of_unpack_of_neg hu he, intCast_div_natCast_eq_iff hd] at h
    rw [signed_div, h, Int.mul_tdiv_cancel _ (by exact_mod_cast hd)]

/-- The test `ratio == floor(ratio)` of R107: the exact number is whole. -/
theorem isInteger_iff {a : F64} (ha : isFinite a = true) : isInteger a = true ↔ ∃ n : Int, toRat a = n := by
  obtain ⟨m, e, hu, -⟩ := unpack_finite ha
  simp only [isInteger, hu, Bool.or_eq_true, decide_eq_true_eq]
  by_cases he : 0 ≤ e
  · exact iff_of_true (.inl he) ⟨_, toRat_of_unpack_of_nonneg hu he⟩
  · have hd : 2 ^ (-e).toNat ≠ 0 := by positivity
    rw [or_iff_right he, ← natCast_dvd_signed (s := sign a), toRat_of_unpack_of_neg hu he]
    simp only [intCast_div_natCast_eq_iff hd, dvd_iff_exists_eq_mul_left]

/-! ### Constants -/

theorem isFinite_posZero : isFinite 0#64 = true := by decide

theorem toRat_posZero : toRat 0#64 = 0 := by
  rw [toRat_eq isFinite_posZero, show mag 0#64 = 0 by decide, signedVal, magVal_zero, neg_zero, ite_self]

/-- The test `v > 0` of R100. -/
theorem zero_lt_iff {a : F64} (ha : isFinite a = true) : lt 0#64 a = true ↔ 0 < toRat a := by
  rw [lt_iff isFinite_posZero ha, toRat_posZero]

theorem isFinite_one : isFinite one = true := by decide

theorem toRat_one : toRat one = 1 := by
  have hu : unpack one = .fin false (2 ^ 52) (-52) := by decide
  norm_num [toRat, hu, signed]

theorem magVal_mag_one : magVal (mag one) = 1 := by
  have h := toRat_eq isFinite_one
  rw [toRat_one] at h
  exact h.symm

theorem isFinite_c4294967295 : isFinite c4294967295 = true := by decide

theorem toRat_c4294967295 : toRat c4294967295 = 4294967295 := by
  have hu : unpack c4294967295 = .fin false (4294967295 * 2 ^ 21) (-21) := by decide
  norm_num [toRat, hu, signed]

/-! ### Quotients by a whole number -/

theorem mag_ofNat_mono {m n : Nat} (h : m ≤ n) : mag (ofNat m) ≤ mag (ofNat n) := by
  simp only [ofNat, mag_round]
  exact roundMag_mono (by simpa using h)

theorem isFinite_ofNat_word (w : Word) : isFinite (ofNat w.toNat) = true :=
  isFinite_iff.2 ((mag_ofNat_mono w.isLt.le).trans_lt (by decide +kernel))

theorem one_le_magVal_ofNat {n : Nat} (h : 1 ≤ n) : 1 ≤ magVal (mag (ofNat n)) := by
  rw [← magVal_mag_one, show one = ofNat 1 by decide +kernel]
  exact magVal_strictMono.monotone (mag_ofNat_mono h)

/-- A divisor of magnitude 1 or more does not take a finite value out of the finite ones. -/
theorem isFinite_div {a b : F64} (ha : isFinite a = true) (hb : isFinite b = true) (h : 1 ≤ magVal (mag b)) :
    isFinite (div a b) = true := by
  have hb0 : mag b ≠ 0 := fun h0 => by rw [h0, magVal_zero] at h; linarith
  obtain ⟨-, n, hn, hm⟩ := div_spec ha hb hb0
  have hle : n ≤ mag a := nearestCode_mono (div_le_self (magVal_nonneg _) h) hn (nearestCode_magVal _)
  have hlt := isFinite_iff.1 ha
  exact isFinite_iff.2 (by omega)

theorem isFinite_div_word {a : F64} {w : Word} (ha : isFinite a = true) (hw : w ≠ 0#32) :
    isFinite (div a (ofNat w.toNat)) = true :=
  isFinite_div ha (isFinite_ofNat_word w) <| one_le_magVal_ofNat <| Nat.one_le_iff_ne_zero.2 fun h0 =>
    hw (BitVec.eq_of_toNat_eq h0)

end Sys2Proof.Fp
end

section
/-! SUPPORT. The designer's checks (R100, R102, R107) in exact numbers, each as one equation, and what they answer. -/

namespace Sys2Proof.Machine

/-! ### The field checks (R100) -/

theorem checkFields_of_not_finite {c : ConfigRegs} (h : ∃ v ∈ c.fields, Fp.isFinite v = false) :
    checkFields c = .error .cfgNonfinite :=
  if_pos (List.any_eq_true.2 (by simpa using h))

/-- The checks after the first one, on finite fields. -/
theorem checkFields_of_finite {c : ConfigRegs} (hfin : ∀ v ∈ c.fields, Fp.isFinite v = true) :
    checkFields c =
      if ∃ v ∈ c.fields, ¬ 0 < Fp.toRat v then .error .cfgNonpositive
      else if c.decim = 0#32 then .error .cfgDecimZero
      else if c.targetRate = 0#32 then .error .cfgTargetZero
      else .ok () := by
  have hany : c.fields.any (fun v => !Fp.lt 0#64 v) = true ↔ ∃ v ∈ c.fields, ¬ 0 < Fp.toRat v := by
    rw [List.any_eq_true]
    refine exists_congr fun v => and_congr_right fun hv => ?_
    rw [← Fp.zero_lt_iff (hfin v hv), Bool.not_eq_true', Bool.not_eq_true]
  have hnone : ¬ c.fields.any (fun v => !Fp.isFinite v) = true := by simpa using hfin
  rw [checkFields, if_neg hnone]
  simp only [hany]

/-- The checks on the two whole-number fields, when the five values pass. -/
theorem checkFields_of_positive {c : ConfigRegs} (h : ∀ v ∈ c.fields, Fp.isFinite v = true ∧ 0 < Fp.toRat v) :
    checkFields c =
      if c.decim = 0#32 then .error .cfgDecimZero
      else if c.targetRate = 0#32 then .error .cfgTargetZero
      else .ok () := by
  rw [checkFields_of_finite fun v hv => (h v hv).1, if_neg]
  rintro ⟨v, hv, hpos⟩
  exact hpos (h v hv).2

theorem not_finite_of_nan_or_inf {v : F64} (h : Fp.isNaN v = true ∨ v = Fp.inf false ∨ v = Fp.inf true) :
    Fp.isFinite v = false := by
  obtain hnan | rfl | rfl := h
  · exact Bool.eq_false_of_not_eq_true fun hf => Bool.false_ne_true ((Fp.finite_not_nan hf).symm.trans hnan)
  · decide
  · decide

/-- Settles O32: on each clause's fields the checks before its own pass. -/
theorem fieldChecksComeInOrder : Obligations.FieldChecksComeInOrder := by
  intro c
  refine ⟨?_, fun hfin hex => ?_, fun h hd => ?_, fun h hd ht => ?_, fun h hd ht => ?_⟩
  · rintro ⟨v, hv, hbad⟩
    exact checkFields_of_not_finite ⟨v, hv, not_finite_of_nan_or_inf hbad⟩
  · rw [checkFields_of_finite hfin, if_pos (show ∃ v ∈ c.fields, _ from hex)]
  · rw [checkFields_of_positive h, if_pos hd]
  · rw [checkFields_of_positive h, if_neg hd, if_pos ht]
  · rw [checkFields_of_positive h, if_neg hd, if_neg ht]

/-! ### The filter length (R102) -/

theorem filterLength_of_not_finite {lMax : Nat} {rdb tw fs : F64}
    (h : Fp.isFinite (orderQuotient rdb tw fs) = false) : filterLength lMax rdb tw fs = .error .lenNonfinite := by
  simp [filterLength, h]

theorem filterLength_of_finite {lMax : Nat} {rdb tw fs : F64} (h : Fp.isFinite (orderQuotient rdb tw fs) = true) :
    filterLength lMax rdb tw fs = forceOdd lMax (⌈Fp.toRat (orderQuotient rdb tw fs)⌉ + 1) := by
  simp [filterLength, h, Fp.ceil_eq_ceil_toRat h]

/-- Settles O34: a finite quotient leaves the length test on its ceiling plus 1. -/
theorem filterLengthIsForcedOdd : Obligations.FilterLengthIsForcedOdd := by
  rintro lMax rdb tw fs q rfl
  refine ⟨filterLength_of_not_finite, fun hfin hle => ?_, fun hfin hpos => ?_⟩
  · exact (filterLength_of_finite hfin).trans (if_pos hle)
  · obtain ⟨len, hodd, hge, hle, heq⟩ := forceOdd_pos (lMax := lMax) hpos
    exact ⟨len, hodd, hge, by omega, (filterLength_of_finite hfin).trans heq⟩

/-! ### The resample factor (R107) -/

theorem isFinite_rateRatio {fs : F64} {d tr : Word} (hfs : Fp.isFinite fs = true) (hd : d ≠ 0#32)
    (htr : tr ≠ 0#32) : Fp.isFinite (rateRatio fs d tr) = true :=
  Fp.isFinite_div_word (Fp.isFinite_div_word hfs hd) htr

section
variable {fs : F64} {d tr : Word} (hfin : Fp.isFinite (rateRatio fs d tr) = true)
include hfin

theorem resampleFactorOf_of_not_integer (h : ¬ ∃ n : Int, Fp.toRat (rateRatio fs d tr) = n) :
    resampleFactorOf fs d tr = .error .ratioNotInteger := by
  rw [← Fp.isInteger_iff hfin, Bool.not_eq_true] at h
  simp [resampleFactorOf, h]

/-- On a whole ratio the range test is left. -/
theorem resampleFactorOf_of_integer {n : Int} (h : Fp.toRat (rateRatio fs d tr) = n) :
    resampleFactorOf fs d tr = if n < 1 ∨ 4294967295 < n then .error .ratioRange else .ok n.toNat := by
  have hint : Fp.isInteger (rateRatio fs d tr) = true := (Fp.isInteger_iff hfin).2 ⟨n, h⟩
  have hlow : Fp.lt (rateRatio fs d tr) Fp.one = true ↔ n < 1 := by
    rw [Fp.lt_iff hfin Fp.isFinite_one, h, Fp.toRat_one]
    exact_mod_cast Iff.rfl
  have hhigh : Fp.lt Fp.c4294967295 (rateRatio fs d tr) = true ↔ 4294967295 < n := by
    rw [Fp.lt_iff Fp.isFinite_c4294967295 hfin, h, Fp.toRat_c4294967295]
    exact_mod_cast Iff.rfl
  simp only [resampleFactorOf, hint, Bool.not_true, Bool.false_eq_true, if_false, Bool.or_eq_true, hlow, hhigh,
    Fp.trunc_of_toRat_eq_intCast hfin h]

end

/-- Settles O36: the ratio is always finite, so its test and its range are those of its exact value. -/
theorem resampleFactorIsTheExactRatio : Obligations.ResampleFactorIsTheExactRatio := by
  rintro fs ratio d tr hfs - hd htr rfl
  have hfin := isFinite_rateRatio hfs hd htr
  refine ⟨resampleFactorOf_of_not_integer hfin, fun n hn hout => ?_, fun n hn h1 h2 => ?_⟩
  · exact (resampleFactorOf_of_integer hfin hn).trans (if_pos hout)
  · have hn' : Fp.toRat (rateRatio fs d tr) = ((n : Int) : ℚ) := by exact_mod_cast hn
    rw [resampleFactorOf_of_integer hfin hn', if_neg (by omega), Int.toNat_natCast]

end Sys2Proof.Machine
end

section
/-! SUPPORT. FIR_STEP on a designed machine: the whole dot product as R116's accumulator, and what the command
answers (R116, R117); and the obligation about it. -/

namespace Sys2Proof.Machine

/-! ### The dot product -/

/-- R116: the filter's dot product of one lane over its whole window. -/
theorem laneSum_timeOrder {s : State} (h : s.FilterReady) (ring : List (F32 × F32)) (part : F32 × F32 → F32)
    (newest : Nat) :
    laneSum s.taps ((timeOrder ring newest s.latched.filterLen.toNat).map part) =
      accumulated s.coef ring part newest s.latched.filterLen.toNat s.latched.filterLen.toNat := by
  have htake := laneSum_take h ring part newest _ le_rfl
  rwa [List.take_of_length_le (State.taps_length h).le,
    List.take_of_length_le (by rw [List.length_map, timeOrder_length])] at htake

/-- R19: the value stored for an output is the output, or some NaN for a NaN. -/
theorem sameOrNaN_settleNaN (n : Nat) (v : F64) : Fp.SameOrNaN (settleNaN n v) v := by
  unfold Fp.SameOrNaN
  split
  next hnan => rw [isNaN_settleNaN, hnan]
  next hnan => exact settleNaN_of_not_nan (Bool.eq_false_of_not_eq_true hnan)

/-! ### The command -/

theorem exec_firStep_of_filterReady {s : State} (h : s.FilterReady) :
    exec .firStep s = .next (s.firUnit s.operands.inI s.operands.inQ).complete := by
  have hdesigned : s.status.designed = true := h.1
  rw [exec, execFirStep, hdesigned, if_neg (by decide), h.filterFault]

/-- R116 on an emitting sample: the two accumulators over the ring with the sample in it are the output. -/
theorem State.firUnit_of_emitsFir {s : State} (hready : s.FilterReady) (hemits : s.EmitsFir) (x y : F32) :
    let len := s.latched.filterLen.toNat
    let ring := s.ring.set s.wr (x, y)
    s.firUnit x y = (s.storeSample x y).emitFir
      (accumulated s.coef ring (·.1) s.wr len len) (accumulated s.coef ring (·.2) s.wr len len) := by
  intro len ring
  rw [← laneSum_timeOrder hready, ← laneSum_timeOrder hready]
  exact if_pos (s.firEmits_iff.2 hemits)

theorem State.firUnit_of_not_emitsFir {s : State} (hquiet : ¬ s.EmitsFir) (x y : F32) :
    s.firUnit x y = { s.storeSample x y with status := { s.status with firValid := false } } :=
  if_neg (mt s.firEmits_iff.1 hquiet)

/-- Settles O40: the outputs stored are the two accumulators, each with a NaN's payload drawn. -/
theorem firStepFollowsItsRule : Obligations.FirStepFollowsItsRule := by
  intro s hready len ring
  rw [exec_firStep_of_filterReady hready]
  refine ⟨fun hemits => ?_, fun hquiet => ?_⟩
  · refine ⟨_, _, s.draws + 2, sameOrNaN_settleNaN s.draws _, sameOrNaN_settleNaN (s.draws + 1) _, ?_⟩
    rw [State.firUnit_of_emitsFir hready hemits]
    rfl
  · rw [State.firUnit_of_not_emitsFir hquiet]
    rfl

end Sys2Proof.Machine
end

section
/-! SUPPORT. DEMOD_STEP: when the demodulator's product is degenerate and what its angle is in each case (R124,
R125); and the obligation about it. -/

namespace Sys2Proof.Machine

theorem State.demodDegenerate_iff (s : State) (c : F64 × F64) :
    s.demodDegenerate c = true ↔
      s.counters.nDemod = 0#64 ∨
        (Fp.eq (productRe c s.prev) 0#64 = true ∧ Fp.eq (productIm c s.prev) 0#64 = true) := by
  simp [State.demodDegenerate]

/-- R124: the degenerate case leaves the angle free in the half-open range. -/
theorem State.demodAngle_of_degenerate {s : State} {c : F64 × F64} (h : s.demodDegenerate c = true) :
    Fp.lt Fp.minusPi64 (s.demodAngle c) = true ∧ Fp.le (s.demodAngle c) Fp.pi64 = true := by
  rw [State.demodAngle, if_pos h]
  exact Bool.and_eq_true_iff.1 (drawAngle_range s.draws)

/-- R124, R19: outside the degenerate case the angle is the product's arctangent, or some NaN for a NaN. -/
theorem State.demodAngle_of_not_degenerate {s : State} {c : F64 × F64} (h : ¬ s.demodDegenerate c = true) :
    Fp.SameOrNaN (s.demodAngle c) (halfOpenAtan2 (productIm c s.prev) (productRe c s.prev)) := by
  rw [State.demodAngle, if_neg h]
  exact sameOrNaN_settleNaN s.draws _

/-- Settles O45: the angle stored is the demodulator's, so each clause is one case of `demodDegenerate`. -/
theorem demodStepFollowsItsRule : Obligations.DemodStepFollowsItsRule := by
  intro s ci cq re im
  refine ⟨s.demodAngle (ci, cq), s.draws + 1, rfl, fun hdeg => ?_, fun hcount hproduct => ?_⟩
  · exact State.demodAngle_of_degenerate ((s.demodDegenerate_iff (ci, cq)).2 hdeg)
  · exact State.demodAngle_of_not_degenerate fun hdeg =>
      ((s.demodDegenerate_iff (ci, cq)).1 hdeg).elim hcount hproduct

end Sys2Proof.Machine
end

section
/-! SUPPORT. RESAMPLE_STEP on a designed machine: what the quantizer and the resampler unit do in each case (R130,
R131), and what the command answers (R132, R133); and the obligation about it. -/

namespace Sys2Proof.Machine

/-- R130: a value that is no NaN is quantized without a draw. -/
theorem quantize_of_not_nan {a : F64} (h : Fp.isNaN a = false) (n : Nat) :
    quantize n a = BitVec.ofInt 16 (quantized a) := by
  simp [quantize, h]

/-- R131 on the sample with index `m` where `m mod R = 0`: it is emitted, with NONFINITE set for a NaN (R130). -/
theorem State.resampleUnit_of_emits {s : State} (a : F64)
    (hemits : s.counters.nRsIn.toNat % s.latched.resampleFactor.toNat = 0) :
    s.resampleUnit a = { s with
      fifo := s.fifo ++ [quantize s.draws a]
      results := { s.results with audioLast := (quantize s.draws a).signExtend 32 }
      counters := { s.counters with nRsIn := s.counters.nRsIn + 1, nAudio := s.counters.nAudio + 1 }
      status := { s.status with
        audioValid := true
        nonfinite := if Fp.isNaN a then true else s.status.nonfinite }
      draws := s.draws + 1 } := by
  have hflag : (if Fp.isNaN a then true else s.status.nonfinite) = (s.status.nonfinite || Fp.isNaN a) := by
    cases Fp.isNaN a <;> simp
  rw [hflag]
  exact if_pos (s.resampleEmits_iff.2 hemits)

/-- R131 on any other sample: it is counted and dropped. -/
theorem State.resampleUnit_of_not_emits {s : State} (a : F64)
    (hquiet : s.counters.nRsIn.toNat % s.latched.resampleFactor.toNat ≠ 0) :
    s.resampleUnit a = { s with
      counters := { s.counters with nRsIn := s.counters.nRsIn + 1 }
      status := { s.status with audioValid := false } } :=
  if_neg (mt s.resampleEmits_iff.1 hquiet)

theorem exec_resampleStep_of_not_held {s : State} (hdesigned : s.status.designed = true)
    (hfactor : s.latched.resampleFactor ≠ 0#32) (hfree : ¬ s.HeldBy .resampleStep) :
    exec .resampleStep s = .next (s.resampleUnit s.operands.scalarIn).complete := by
  rw [exec, execResampleStep, hdesigned, if_neg (by decide), (State.resamplerFault_eq_none_iff s).2 hfactor]
  exact congrArg _ (if_neg (mt (State.resampleHeld_iff hdesigned).1 hfree))

/-- Settles O48: the sample emitted is the quantizer's, which draws only for a NaN. -/
theorem resampleStepFollowsItsRule : Obligations.ResampleStepFollowsItsRule := by
  intro s hdesigned hfactor hfree
  rw [exec_resampleStep_of_not_held hdesigned hfactor hfree]
  refine ⟨fun hemits => ⟨quantize s.draws s.operands.scalarIn, s.draws + 1, fun hnum d => ?_, ?_⟩, fun hquiet => ?_⟩
  · rw [quantize_of_not_nan hnum, quantize_of_not_nan hnum]
  · rw [State.resampleUnit_of_emits _ hemits]
    rfl
  · rw [State.resampleUnit_of_not_emits _ hquiet]
    rfl

end Sys2Proof.Machine
end

section
/-! SUPPORT. The control command NOP (R139), and the obligation about it. -/

namespace Sys2Proof.Machine

/-- R138, R139: NOP is the end of its core step and nothing else. -/
theorem exec_nop (s : State) : exec .nop s = .next s.complete := rfl

/-- Settles O28: 0x00000000 is NOP's own word, and `State.complete` writes BUSY alone. -/
theorem nopChangesOnlyBusy : Obligations.NopChangesOnlyBusy :=
  ⟨decodeWord_encodeWord .nop, exec_nop⟩

end Sys2Proof.Machine
end

section
/-! SUPPORT. What a command and a turn can do, as one inductive relation each with a named case for each effect; what
every command leaves of the host's registers, the other agents' data, BUSY and the flags; and the obligations about
them. -/

namespace Sys2Proof.Machine

/-! ### The effects of a command -/

/-- The effect of command `i` on a machine in state `s`: the cases of `exec_cases`, by name. -/
inductive Effect (s : State) : Instr → State → Prop
  | held {i : Instr} (h : s.HeldBy i) : Effect s i s
  | notDesigned {i : Instr} (hi : i = .firStep ∨ i = .resampleStep ∨ i = .pushIq)
      (hd : s.status.designed = false) : Effect s i (s.raise .notDesigned)
  | nop : Effect s .nop s.complete
  | start : Effect s .start s.startStream.complete
  | commit {d : DesignResult} (hd : designOf s.params.lMax s.cfg = .ok d) :
      Effect s .design (s.commitSuccess d).complete
  | fail {c : ErrCode} (hc : designOf s.params.lMax s.cfg = .error c) : Effect s .design (s.commitFailure.raise c)
  | demod : Effect s .demodStep (s.demodUnit s.operands.dinI s.operands.dinQ).complete
  | filter (hd : s.status.designed = true) (hf : s.filterFault = none) :
      Effect s .firStep (s.firUnit s.operands.inI s.operands.inQ).complete
  | resample (hd : s.status.designed = true) (hfree : ¬ s.HeldBy .resampleStep)
      (hr : s.latched.resampleFactor ≠ 0#32) : Effect s .resampleStep (s.resampleUnit s.operands.scalarIn).complete
  | push (hd : s.status.designed = true) (hfree : ¬ s.HeldBy .pushIq) (hf : s.filterFault = none)
      (hr : s.latched.resampleFactor ≠ 0#32) :
      Effect s .pushIq (s.pushUnits s.operands.inI s.operands.inQ).complete

/-- Every command that answers has one of these effects. -/
theorem exec_effect {i : Instr} {s t : State} (h : exec i s = .next t) : Effect s i t := by
  rcases exec_cases h with ⟨hh, rfl⟩ | ⟨hi, hd, rfl⟩ | ⟨rfl, rfl⟩ | ⟨rfl, rfl⟩ | ⟨rfl, d, hd, rfl⟩ |
    ⟨rfl, c, hc, rfl⟩ | ⟨rfl, rfl⟩ | ⟨rfl, hd, hf, rfl⟩ | ⟨rfl, hd, hfree, hr, rfl⟩ | ⟨rfl, hd, hfree, hf, hr, rfl⟩
  · exact .held hh
  · exact .notDesigned hi hd
  · exact .nop
  · exact .start
  · exact .commit hd
  · exact .fail hc
  · exact .demod
  · exact .filter hd hf
  · exact .resample hd hfree ((State.resamplerFault_eq_none_iff s).1 hr)
  · exact .push hd hfree hf ((State.resamplerFault_eq_none_iff s).1 hr)

/-- Settles O52: no effect writes any of these fields. -/
theorem commandsKeepTheHostRegisters : Obligations.CommandsKeepTheHostRegisters := by
  intro i s t h
  cases exec_effect h with
  | filter => have hframe := s.firUnit_frame s.operands.inI s.operands.inQ; simp [hframe]
  | resample => have hframe := s.resampleUnit_frame s.operands.scalarIn; simp [hframe]
  | push => have hframe := s.pushUnits_frame s.operands.inI s.operands.inQ; simp [hframe]
  | _ => simp

/-- Settles O51: every effect but the hold ends in `State.complete`. -/
theorem everyCommandClearsBusyUnlessHeld : Obligations.EveryCommandClearsBusyUnlessHeld := by
  intro i s t h
  cases exec_effect h with
  | held hh => exact .inr ⟨hh, rfl⟩
  | _ => exact .inl rfl

/-- Settles O26: a raise goes through `State.report`, where the first error wins; no effect clears a flag. -/
theorem firstErrorWins : Obligations.FirstErrorWins := by
  intro i s t h
  cases exec_effect h with
  | filter => have hframe := s.firUnit_frame s.operands.inI s.operands.inQ; simp [hframe]
  | resample => have hframe := s.resampleUnit_frame s.operands.scalarIn; simp +contextual [hframe]
  | push => have hframe := s.pushUnits_frame s.operands.inI s.operands.inQ; simp +contextual [hframe]
  | notDesigned | fail => simp +contextual
  | _ => simp

/-- A command leaves ANGLE, or stores the angle of the demodulator. -/
theorem exec_angle {i : Instr} {s t : State} (h : exec i s = .next t) :
    t.results.angle = s.results.angle ∨ ∃ (u : State) (c : F64 × F64), t.results.angle = u.demodAngle c := by
  cases exec_effect h with
  | demod => exact .inr ⟨s, _, rfl⟩
  | filter => have hframe := s.firUnit_frame s.operands.inI s.operands.inQ; simp [hframe]
  | resample => have hframe := s.resampleUnit_frame s.operands.scalarIn; simp [hframe]
  | push =>
    obtain ⟨-, -, hangle, -⟩ := s.pushUnits_frame s.operands.inI s.operands.inQ
    exact hangle
  | _ => exact .inl rfl

/-- Settles O46: the one angle a command stores is the demodulator's. -/
theorem anglesLieInTheHalfOpenRange : Obligations.AnglesLieInTheHalfOpenRange := by
  intro i s t h hne
  obtain heq | ⟨u, c, heq⟩ := exec_angle h
  · exact absurd heq hne
  · rw [heq]
    exact (u.demodAngle_range c).imp_right Bool.and_eq_true_iff.1

/-! ### The turns -/

/-- What a step from `s` can lead to: the cases of `step_cases` and of the core engine's turn, by name. -/
inductive Move (s : State) : State → Prop
  | idle (hcore : s.CoreMoves) (hbusy : s.status.busy = false) : Move s s.turnTaken
  | illegal (hcore : s.CoreMoves) (hbusy : s.status.busy = true) (hword : decodeWord s.pending = none) :
      Move s (s.turnTaken.raise .illegalCmd)
  | command {i : Instr} {t : State} (hcore : s.CoreMoves) (hbusy : s.status.busy = true)
      (hword : decodeWord s.pending = some i) (hexec : exec i s.turnTaken = .next t) : Move s t
  | sink {rest : List Turn} (ha : s.agenda = .sink :: rest) : Move s s.turnTaken.sinkTurn
  | reset {rest : List Turn} (ha : s.agenda = .reset :: rest) : Move s s.turnTaken.resetTurn
  | read {off : Nat} {rest : List Turn} (ha : s.agenda = .hostRead .word (s.params.base + off) :: rest) :
      Move s { s.turnTaken with hostReads := s.hostReads ++ [s.memRead off] }
  | write {off : Nat} {v : Word} {rest : List Turn}
      (ha : s.agenda = .hostWrite .word (s.params.base + off) v :: rest) : Move s (s.turnTaken.memWrite off v)

/-- Every step is one of these moves. -/
theorem step_move {s t : State} (h : step s = .next t) : Move s t := by
  rcases step_cases h with ⟨hcore, h⟩ | ⟨rest, ha, rfl⟩ | ⟨rest, ha, rfl⟩ | ⟨off, rest, ha, -, -, rfl⟩ |
    ⟨off, v, rest, ha, -, -, rfl⟩
  · rcases State.coreTurn_cases h with ⟨hbusy, rfl⟩ | ⟨hbusy, hword, rfl⟩ | ⟨hbusy, i, hword, hexec⟩
    · exact .idle hcore hbusy
    · exact .illegal hcore hbusy hword
    · exact .command hcore hbusy hword hexec
  · exact .sink ha
  · exact .reset ha
  · exact .read ha
  · exact .write ha

end Sys2Proof.Machine
end

section
/-! SUPPORT. The invariant: which changes keep it, that every command and every turn is such a change (R155); and the
obligation about it. -/

namespace Sys2Proof.Fp

/-- Only a finite value is an integer (R107). -/
theorem isFinite_of_isInteger {a : F64} (h : isInteger a = true) : isFinite a = true := by
  unfold isInteger at h
  split at h
  next hu => exact (unpack_toRat hu).1
  next => cases h

end Sys2Proof.Fp

namespace Sys2Proof.Machine

/-- The chain of the units, as it is chained: the three units in a row, or the filter alone (R141). -/
theorem State.pushUnits_cases (s : State) (x y : F32) :
    (s.firEmits = true ∧ s.pushUnits x y =
      ((s.firUnit x y).demodUnit (s.firUnit x y).results.firOutI (s.firUnit x y).results.firOutQ).resampleUnit
        ((s.firUnit x y).demodAngle ((s.firUnit x y).results.firOutI, (s.firUnit x y).results.firOutQ))) ∨
    (s.firEmits = false ∧ s.pushUnits x y =
      { s.firUnit x y with status := { (s.firUnit x y).status with audioValid := false } }) := by
  unfold State.pushUnits
  cases h : s.firEmits
  · exact .inr ⟨rfl, rfl⟩
  · exact .inl ⟨rfl, rfl⟩

/-! ### What a successful DESIGN latches -/

/-- Fields that pass the checks (R100). -/
theorem checkFields_ok {c : ConfigRegs} (h : checkFields c = .ok ()) :
    (∀ v ∈ c.fields, Fp.isFinite v = true ∧ 0 < Fp.toRat v) ∧ c.decim ≠ 0#32 ∧ c.targetRate ≠ 0#32 := by
  have hfin : ∀ v ∈ c.fields, Fp.isFinite v = true := by
    intro v hv
    by_contra hbad
    rw [checkFields_of_not_finite ⟨v, hv, Bool.eq_false_of_not_eq_true hbad⟩] at h
    cases h
  rw [checkFields_of_finite hfin] at h
  split_ifs at h with hpos hdecim hrate
  exact ⟨fun v hv => ⟨hfin v hv, not_not.1 fun hneg => hpos ⟨v, hv, hneg⟩⟩, hdecim, hrate⟩

/-- A factor that passes the range test fits its register and is not 0 (R107). -/
theorem resampleFactorOf_ok {fs : F64} {d tr : Word} {n : Nat} (h : resampleFactorOf fs d tr = .ok n) :
    1 ≤ n ∧ n ≤ 4294967295 := by
  have hint : Fp.isInteger (rateRatio fs d tr) = true := by
    cases hi : Fp.isInteger (rateRatio fs d tr)
    · simp [resampleFactorOf, hi] at h
    · rfl
  have hfin := Fp.isFinite_of_isInteger hint
  obtain ⟨k, hk⟩ := (Fp.isInteger_iff hfin).1 hint
  rw [resampleFactorOf_of_integer hfin hk] at h
  split_ifs at h with hrange
  cases h
  omega

theorem Params.lMax_le {p : Params} (h : p.wf = true) : p.lMax ≤ 7679 := by
  simp only [Params.wf, Bool.and_eq_true, decide_eq_true_eq] at h
  obtain ⟨⟨⟨⟨-, hle⟩, -⟩, -⟩, -⟩ := h
  exact hle

theorem Params.one_le_fifoDepth {p : Params} (h : p.wf = true) : 1 ≤ p.fifoDepth := by
  simp only [Params.wf, Bool.and_eq_true, decide_eq_true_eq] at h
  obtain ⟨⟨⟨-, hle⟩, -⟩, -⟩ := h
  exact hle

/-- The length a DESIGN latches is the length it computed (R46). -/
theorem toNat_latched_len {lMax : Nat} (hl : lMax ≤ 7679) {c : ConfigRegs} {d : DesignResult}
    (h : designOf lMax c = .ok d) : (BitVec.ofNat 32 d.len).toNat = d.len := by
  obtain ⟨-, -, hlen, -⟩ := designOf_ok h
  have hle := (filterLength_ok hlen).2
  rw [BitVec.toNat_ofNat, Nat.mod_eq_of_lt (by omega)]

theorem commitSuccess_designedOk {s : State} {d : DesignResult} (hl : s.params.lMax ≤ 7679)
    (h : designOf s.params.lMax s.cfg = .ok d) : (s.commitSuccess d).DesignedOk := by
  have hnat := toNat_latched_len hl h
  obtain ⟨-, hfields, hlen, hfactor, -, -, -, hdecim⟩ := designOf_ok h
  obtain ⟨hodd, hle⟩ := filterLength_ok hlen
  obtain ⟨hone, hmax⟩ := resampleFactorOf_ok hfactor
  refine ⟨?_, ?_, ?_, ?_, fun h0 => ?_, fun x hx => designOf_taps_finite h x ?_⟩
  · simpa [hnat] using hodd
  · simpa [hnat] using hle
  · simpa [hnat] using Nat.pos_of_ne_zero (by omega : d.len ≠ 0)
  · simpa [hdecim] using (checkFields_ok hfields).2.1
  · have := congrArg BitVec.toNat h0
    simp only [State.commitSuccess_latched, BitVec.toNat_ofNat] at this
    omega
  · have htaps : (s.commitSuccess d).taps = d.taps := by
      simp [State.taps, hnat, designOf_taps_length h]
    exact htaps ▸ hx

/-! ### Changes that keep the invariant -/

/-- A change that leaves the parameters, the design and the sizes of the memories keeps the invariant when WR stays
below the length and the FIFO, the error, the angle and AUDIO_LAST stay what they should be. -/
theorem State.Inv.of_same_design {s t : State} (h : s.Inv)
    (hsame : t.params = s.params ∧ t.coef = s.coef ∧ t.status.designed = s.status.designed ∧ t.latched = s.latched)
    (hring : t.ring.length = s.ring.length)
    (hwr : s.wr < s.latched.filterLen.toNat → t.wr < s.latched.filterLen.toNat)
    (hfifo : t.fifo.length ≤ s.params.fifoDepth)
    (herr : t.status.err = false ↔ t.errCode = .noError)
    (hangle : Fp.isNaN t.results.angle = true ∨ inHalfOpenPi t.results.angle = true)
    (haudio : ∃ q : BitVec 16, t.results.audioLast = q.signExtend 32) : t.Inv := by
  obtain ⟨hparams, hcoef, hdesigned, hlatched⟩ := hsame
  refine ⟨?_, ?_, ?_, ?_, fun hd => ?_, fun hd => ?_, herr, hangle, haudio⟩
  · rw [hparams]; exact h.params
  · rw [hparams, hcoef]; exact h.coefLen
  · rw [hparams, hring]; exact h.ringLen
  · rw [hparams]; exact hfifo
  · obtain ⟨hodd, hle, hlt, hdecim, hfactor, htaps⟩ := h.designed (hdesigned ▸ hd)
    have hsametaps : t.taps = s.taps := by rw [State.taps, State.taps, hcoef, hlatched]
    exact ⟨hlatched ▸ hodd, hlatched ▸ hparams ▸ hle, hlatched ▸ hwr hlt, hlatched ▸ hdecim, hlatched ▸ hfactor,
      hsametaps ▸ htaps⟩
  · rw [hlatched]; exact h.undesigned (hdesigned ▸ hd)

/-- A state with the same fields but for those no clause of the invariant speaks of. -/
theorem State.Inv.of_same_fields {s t : State} (h : s.Inv)
    (hsame : t.params = s.params ∧ t.coef = s.coef ∧ t.status.designed = s.status.designed ∧ t.latched = s.latched)
    (hstore : t.ring = s.ring ∧ t.wr = s.wr ∧ t.fifo = s.fifo)
    (herr : t.status.err = s.status.err ∧ t.errCode = s.errCode) (hresults : t.results = s.results) : t.Inv := by
  obtain ⟨hring, hwr, hfifo⟩ := hstore
  obtain ⟨herr, hcode⟩ := herr
  refine h.of_same_design hsame (by rw [hring]) (hwr ▸ id) (hfifo ▸ h.fifoLen) ?_ ?_ ?_
  · rw [herr, hcode]; exact h.errAgrees
  · rw [hresults]; exact h.angle
  · rw [hresults]; exact h.audioLast

section
variable {s : State} (h : s.Inv)
include h

theorem State.Inv.turnTaken : s.turnTaken.Inv :=
  h.of_same_fields ⟨rfl, rfl, rfl, rfl⟩ ⟨rfl, rfl, rfl⟩ ⟨rfl, rfl⟩ rfl

theorem State.Inv.complete : s.complete.Inv :=
  h.of_same_fields ⟨rfl, rfl, rfl, rfl⟩ ⟨rfl, rfl, rfl⟩ ⟨rfl, rfl⟩ rfl

/-- A report keeps the invariant when it reports an error (R41, R148). -/
theorem State.Inv.report {c : ErrCode} (hc : c ≠ .noError) : (s.report c).Inv := by
  refine h.of_same_design ⟨rfl, rfl, rfl, rfl⟩ rfl id h.fifoLen ?_ h.angle h.audioLast
  have herr := h.errAgrees
  cases hs : s.status.err <;> simp_all

theorem State.Inv.raise {c : ErrCode} (hc : c ≠ .noError) : (s.raise c).Inv := (h.report hc).complete

theorem State.Inv.startStream : s.startStream.Inv :=
  h.of_same_design ⟨rfl, rfl, rfl, rfl⟩ (by simp [h.ringLen]) (fun hlt => Nat.zero_lt_of_lt hlt) h.fifoLen
    h.errAgrees h.angle h.audioLast

theorem State.Inv.commitSuccess {d : DesignResult} (hd : designOf s.params.lMax s.cfg = .ok d) :
    (s.commitSuccess d).Inv where
  params := h.params
  coefLen := commitSuccess_coef_length h.coefLen hd
  ringLen := by simp
  fifoLen := h.fifoLen
  designed _ := commitSuccess_designedOk (Params.lMax_le h.params) hd
  undesigned hd := by simp at hd
  errAgrees := h.errAgrees
  angle := h.angle
  audioLast := h.audioLast

theorem State.Inv.commitFailure : s.commitFailure.Inv where
  params := h.params
  coefLen := h.coefLen
  ringLen := h.ringLen
  fifoLen := h.fifoLen
  designed hd := by simp at hd
  undesigned _ := rfl
  errAgrees := h.errAgrees
  angle := h.angle
  audioLast := h.audioLast

theorem State.Inv.demodUnit (ci cq : F64) : (s.demodUnit ci cq).Inv :=
  h.of_same_design ⟨rfl, rfl, rfl, rfl⟩ rfl id h.fifoLen h.errAgrees (s.demodAngle_range _) h.audioLast

theorem State.Inv.firUnit (x y : F32) : (s.firUnit x y).Inv := by
  have hframe := s.firUnit_frame x y
  refine h.of_same_design ?_ ?_ ?_ ?_ ?_ ?_ ?_
  · simp [hframe]
  · simp [hframe]
  · simp only [hframe]
    exact fun hlt => Nat.mod_lt _ (by omega)
  · simpa [hframe] using h.fifoLen
  · simpa [hframe] using h.errAgrees
  · simpa [hframe] using h.angle
  · simpa [hframe] using h.audioLast

/-- The resampler keeps the invariant where it does not append to a full FIFO (R133). -/
theorem State.Inv.resampleUnit (a : F64)
    (hroom : s.resampleEmits = true → s.fifo.length ≠ s.params.fifoDepth) : (s.resampleUnit a).Inv := by
  have hframe := s.resampleUnit_frame a
  obtain ⟨-, -, -, -, hemission⟩ := s.resampleUnit_frame a
  have hfifo := h.fifoLen
  refine h.of_same_design ?_ ?_ ?_ ?_ ?_ ?_ ?_
  · simp [hframe]
  · simp [hframe]
  · simp [hframe]
  · obtain ⟨hf, -⟩ | ⟨hemits, q, hf, -⟩ := hemission
    · rw [hf]; exact hfifo
    · rw [hf, List.length_append, List.length_singleton]
      have := hroom hemits
      omega
  · simpa [hframe] using h.errAgrees
  · simpa [hframe] using h.angle
  · obtain ⟨-, ha⟩ | ⟨-, q, -, ha⟩ := hemission
    · rw [ha]; exact h.audioLast
    · exact ⟨q, ha⟩

/-- The chain of the units keeps the invariant where it does not append to a full FIFO (R133). -/
theorem State.Inv.pushUnits (x y : F32)
    (hroom : s.firEmits = true → s.resampleEmits = true → s.fifo.length ≠ s.params.fifoDepth) :
    (s.pushUnits x y).Inv := by
  obtain ⟨hemits, heq⟩ | ⟨-, heq⟩ := s.pushUnits_cases x y
  · rw [heq]
    refine ((h.firUnit x y).demodUnit _ _).resampleUnit _ fun hre => ?_
    have hframe := s.firUnit_frame x y
    have hsame : (s.firUnit x y).resampleEmits = s.resampleEmits := by simp [State.resampleEmits, hframe]
    simpa [hframe] using hroom hemits (hsame ▸ hre)
  · rw [heq]
    exact (h.firUnit x y).of_same_fields ⟨rfl, rfl, rfl, rfl⟩ ⟨rfl, rfl, rfl⟩ ⟨rfl, rfl⟩ rfl

/-! ### Commands and turns -/

theorem exec_keeps_inv {i : Instr} {t : State} (hexec : exec i s = .next t) : t.Inv := by
  cases exec_effect hexec with
  | held => exact h
  | notDesigned => exact h.raise (by decide)
  | nop => exact h.complete
  | start => exact h.startStream.complete
  | commit hd => exact (h.commitSuccess hd).complete
  | fail hc => exact h.commitFailure.raise (designOf_error hc)
  | demod => exact (h.demodUnit _ _).complete
  | filter => exact (h.firUnit _ _).complete
  | resample hd hfree =>
    refine (h.resampleUnit _ fun hemits hfull => hfree ?_).complete
    exact (State.resampleHeld_iff hd).1 (by simp [State.resampleHeld, hemits, State.fifoFull_iff, hfull])
  | push hd hfree =>
    refine (h.pushUnits _ _ fun hfir hemits hfull => hfree ?_).complete
    exact (State.pushHeld_iff hd).1 (by simp [State.pushHeld, hfir, hemits, State.fifoFull_iff, hfull])

theorem State.Inv.memWrite (off : Nat) (v : Word) : (s.memWrite off v).Inv := by
  rcases s.memWrite_cases off v with heq | ⟨-, heq⟩ | ⟨-, heq⟩
  · rwa [heq]
  · rw [heq]; exact h.report (by decide)
  · rw [heq]
    rcases s.writeWord_cases (busWordAt s.params.lMax off) v with ⟨-, hw⟩ | ⟨-, hw⟩ | hw
    · rw [hw]; exact h.of_same_fields ⟨rfl, rfl, rfl, rfl⟩ ⟨rfl, rfl, rfl⟩ ⟨rfl, rfl⟩ rfl
    · rw [hw]
      refine h.of_same_design ⟨rfl, rfl, rfl, rfl⟩ rfl id h.fifoLen ?_ h.angle h.audioLast
      have herr := h.errAgrees
      cases hv : v.getLsbD 8 <;> simp [hv, herr]
    · rw [hw]; exact h.of_same_fields ⟨rfl, rfl, rfl, rfl⟩ ⟨rfl, rfl, rfl⟩ ⟨rfl, rfl⟩ rfl

theorem State.Inv.sinkTurn : s.sinkTurn.Inv := by
  rcases s.sinkTurn_cases with ⟨-, heq⟩ | ⟨q, rest, hq, heq⟩
  · rwa [heq]
  · rw [heq]
    have hfifo := h.fifoLen
    rw [hq, List.length_cons] at hfifo
    exact h.of_same_design ⟨rfl, rfl, rfl, rfl⟩ rfl id (Nat.le_of_succ_le hfifo) h.errAgrees h.angle h.audioLast

end

/-- The reset values meet the invariant, whatever the parameters and the next draw (R166). -/
theorem State.resetFrom_inv {p : Params} (hp : p.wf = true) (d : Nat) : (State.resetFrom p d).Inv where
  params := hp
  coefLen := by simp [State.resetFrom, resetCoef]
  ringLen := by simp [State.resetFrom]
  fifoLen := Nat.zero_le _
  designed hd := by cases hd
  undesigned _ := rfl
  errAgrees := by simp [State.resetFrom]
  angle := .inr (show inHalfOpenPi 0#64 = true by decide)
  audioLast := ⟨0#16, rfl⟩

theorem State.Inv.resetTurn {s : State} (h : s.Inv) : s.resetTurn.Inv :=
  (State.resetFrom_inv h.params s.draws).of_same_fields ⟨rfl, rfl, rfl, rfl⟩ ⟨rfl, rfl, rfl⟩ ⟨rfl, rfl⟩ rfl

/-- Settles O57, by the move that the step is. -/
theorem everyStepKeepsTheInvariant : Obligations.EveryStepKeepsTheInvariant := by
  intro s t h hstep
  cases step_move hstep with
  | idle => exact h.turnTaken
  | illegal => exact h.turnTaken.raise (by decide)
  | command _ _ _ hexec => exact exec_keeps_inv h.turnTaken hexec
  | sink => exact h.turnTaken.sinkTurn
  | reset => exact h.turnTaken.resetTurn
  | read => exact h.of_same_fields ⟨rfl, rfl, rfl, rfl⟩ ⟨rfl, rfl, rfl⟩ ⟨rfl, rfl⟩ rfl
  | write => exact h.turnTaken.memWrite _ _

end Sys2Proof.Machine
end

section
/-! SUPPORT. What the steps of the other agents leave of the streams, and what a reset is to them; the rules about BUSY,
the filter's state and the results that follow (R34, R35, R173); and the obligations about them. -/

namespace Sys2Proof.Machine

/-- Nothing of the design, the results, the counters and the ring has changed, and every audio sample is where the
sink's order has it: received, then waiting. -/
structure State.StreamKept (s t : State) : Prop where
  designed : t.status.designed = s.status.designed
  latched : t.latched = s.latched
  coef : t.coef = s.coef
  results : t.results = s.results
  counters : t.counters = s.counters
  store : t.ring = s.ring ∧ t.wr = s.wr
  audio : t.audioOut ++ t.fifo = s.audioOut ++ s.fifo

theorem State.memWrite_keeps_stream (s : State) (off : Nat) (v : Word) : s.StreamKept (s.memWrite off v) := by
  rcases s.memWrite_cases off v with heq | ⟨-, heq⟩ | ⟨-, heq⟩
  · rw [heq]; exact ⟨rfl, rfl, rfl, rfl, rfl, ⟨rfl, rfl⟩, rfl⟩
  · rw [heq]; exact ⟨rfl, rfl, rfl, rfl, rfl, ⟨rfl, rfl⟩, rfl⟩
  · rcases s.writeWord_cases (busWordAt s.params.lMax off) v with ⟨-, hw⟩ | ⟨-, hw⟩ | hw <;> rw [heq, hw] <;>
      exact ⟨rfl, rfl, rfl, rfl, rfl, ⟨rfl, rfl⟩, rfl⟩

theorem State.sinkTurn_keeps_stream (s : State) : s.StreamKept s.sinkTurn := by
  rcases s.sinkTurn_cases with ⟨-, heq⟩ | ⟨q, rest, hq, heq⟩
  · rw [heq]; exact ⟨rfl, rfl, rfl, rfl, rfl, ⟨rfl, rfl⟩, rfl⟩
  · rw [heq]; exact ⟨rfl, rfl, rfl, rfl, rfl, ⟨rfl, rfl⟩, by simp [hq]⟩

/-- A step leaves the streams alone, or is a reset, or runs a command. -/
theorem step_stream {s t : State} (h : step s = .next t) :
    s.StreamKept t ∨
    (∃ rest, s.agenda = .reset :: rest ∧ t = s.turnTaken.resetTurn) ∨
    (s.CoreMoves ∧ s.status.busy = true ∧ ∃ i, decodeWord s.pending = some i ∧ exec i s.turnTaken = .next t) := by
  cases step_move h with
  | idle => exact .inl ⟨rfl, rfl, rfl, rfl, rfl, ⟨rfl, rfl⟩, rfl⟩
  | illegal => exact .inl ⟨rfl, rfl, rfl, rfl, rfl, ⟨rfl, rfl⟩, rfl⟩
  | command hcore hbusy hword hexec => exact .inr (.inr ⟨hcore, hbusy, _, hword, hexec⟩)
  | sink => obtain ⟨h1, h2, h3, h4, h5, h6, h7⟩ := s.turnTaken.sinkTurn_keeps_stream
            exact .inl ⟨h1, h2, h3, h4, h5, h6, h7⟩
  | reset ha => exact .inr (.inl ⟨_, ha, rfl⟩)
  | read => exact .inl ⟨rfl, rfl, rfl, rfl, rfl, ⟨rfl, rfl⟩, rfl⟩
  | write => obtain ⟨h1, h2, h3, h4, h5, h6, h7⟩ := s.turnTaken.memWrite_keeps_stream _ _
             exact .inl ⟨h1, h2, h3, h4, h5, h6, h7⟩

/-- Settles O55: an idle machine runs no command. -/
theorem resultsKeepWhileIdle : Obligations.ResultsKeepWhileIdle := by
  intro s t h hbusy hreset
  obtain hkept | ⟨rest, ha, -⟩ | ⟨-, hb, -⟩ := step_stream h
  · exact ⟨hkept.results, hkept.counters, hkept.latched, hkept.coef⟩
  · exact absurd ha (hreset rest)
  · exact absurd (hb.symm.trans hbusy) (by decide)

/-- No command but DESIGN changes the design (R35, R46 to R49, R62). -/
theorem exec_keeps_design {i : Instr} {s t : State} (h : exec i s = .next t) (hi : i ≠ .design) :
    t.status.designed = s.status.designed ∧ t.latched = s.latched ∧ t.coef = s.coef := by
  cases exec_effect h with
  | commit | fail => exact absurd rfl hi
  | filter => have hframe := s.firUnit_frame s.operands.inI s.operands.inQ; simp [hframe]
  | resample => have hframe := s.resampleUnit_frame s.operands.scalarIn; simp [hframe]
  | push => have hframe := s.pushUnits_frame s.operands.inI s.operands.inQ; simp [hframe]
  | _ => exact ⟨rfl, rfl, rfl⟩

/-- Settles O54: of the commands only DESIGN changes the design, and of the other steps only a reset. -/
theorem onlyDesignAndResetChangeTheFilter : Obligations.OnlyDesignAndResetChangeTheFilter := by
  intro s t h
  obtain hkept | ⟨rest, ha, -⟩ | ⟨hcore, hbusy, i, hword, hexec⟩ := step_stream h
  · exact .inl ⟨hkept.designed, hkept.latched, hkept.coef⟩
  · exact .inr (.inl ⟨rest, ha⟩)
  · by_cases hi : i = .design
    · exact .inr (.inr ⟨hcore, hbusy, hi ▸ hword⟩)
    · exact .inl (exec_keeps_design (s := s.turnTaken) hexec hi)

/-! ### BUSY (R34) -/

theorem State.sinkTurn_status (s : State) : s.sinkTurn.status = s.status := by
  rcases s.sinkTurn_cases with ⟨-, heq⟩ | ⟨q, rest, -, heq⟩ <;> rw [heq]

/-- A write that sets BUSY is one to CMD, and its word is pending. -/
theorem State.memWrite_sets_busy {s : State} {off : Nat} {v : Word} (hbusy : s.status.busy = false)
    (h : (s.memWrite off v).status.busy = true) : off = 0x010 ∧ (s.memWrite off v).pending = v := by
  rcases s.memWrite_cases off v with heq | ⟨hb, -⟩ | ⟨-, heq⟩
  · rw [heq, hbusy] at h; cases h
  · rw [hbusy] at hb; cases hb
  · rw [heq] at h ⊢
    rcases s.writeWord_cases (busWordAt s.params.lMax off) v with ⟨hcmd, hw⟩ | ⟨-, hw⟩ | hw
    · exact ⟨busWordAt_eq_cmd hcmd, by rw [hw]; rfl⟩
    · rw [hw, State.writeStatus_status] at h; exact absurd (hbusy.symm.trans h) (by decide)
    · rw [hw, State.withHostRegisters_status] at h; exact absurd (hbusy.symm.trans h) (by decide)

/-- Settles O53: of the turns on an idle machine only a write to CMD sets BUSY. -/
theorem onlyAWriteToCmdSetsBusy : Obligations.OnlyAWriteToCmdSetsBusy := by
  intro s t h hidle hbusy
  have hfalse : s.status.busy = true → False := fun hb => absurd (hb.symm.trans hidle) (by decide)
  cases step_move h with
  | idle => exact (hfalse hbusy).elim
  | illegal _ hb => exact (hfalse hb).elim
  | command _ hb => exact (hfalse hb).elim
  | sink => rw [State.sinkTurn_status] at hbusy; exact (hfalse hbusy).elim
  | reset => cases hbusy
  | read => exact (hfalse hbusy).elim
  | @write off v rest ha =>
    obtain ⟨rfl, hpending⟩ := State.memWrite_sets_busy (s := s.turnTaken) hidle hbusy
    exact ⟨v, rest, ha, hpending⟩

end Sys2Proof.Machine
end

section
/-! SUPPORT. The filter's output count: R118's formula for one more sample, and that every step keeps it; and the
obligations about it. -/

namespace Sys2Proof.Machine

/-- R118: the sample with index `n` adds an output exactly when `n ≥ len - 1` and `n` is a multiple of `d`. -/
theorem outputCount_succ {len d : Nat} (hlen : 1 ≤ len) (hd : 1 ≤ d) (n : Nat) :
    outputCount len d (n + 1) = outputCount len d n + if len ≤ n + 1 ∧ n % d = 0 then 1 else 0 := by
  unfold outputCount
  rcases Nat.lt_trichotomy (n + 1) len with hlt | rfl | hgt
  · rw [if_pos hlt, if_pos (by omega), if_neg (by omega), add_zero]
  · have hceil : -(n : Int) / d = -(n / d) - if n % d = 0 then 0 else 1 := by
      rw [Int.neg_ediv, Int.sign_eq_one_of_pos (by omega)]
      simp only [Int.natCast_dvd_natCast, Nat.dvd_iff_mod_eq_zero]
    rw [if_neg (lt_irrefl _), if_pos (by omega)]
    push_cast
    rw [add_sub_cancel_right, hceil]
    split_ifs <;> omega
  · obtain ⟨m, rfl⟩ := Nat.exists_eq_add_of_le' (by omega : 1 ≤ n)
    have hfloor : ((m : Int) + 1) / d = m / d + if (m + 1) % d = 0 then 1 else 0 := by
      simp only [← Nat.dvd_iff_mod_eq_zero]
      exact_mod_cast Nat.succ_div (a := m) (b := d)
    rw [if_neg (by omega), if_neg (by omega)]
    push_cast
    rw [add_sub_cancel_right, add_sub_cancel_right, hfloor]
    split_ifs <;> omega

/-- No sample adds more than one output (R118). -/
theorem outputCount_le {len d : Nat} (hlen : 1 ≤ len) (hd : 1 ≤ d) (n : Nat) : outputCount len d n ≤ n := by
  induction n with
  | zero => rw [outputCount, if_pos (Nat.lt_of_succ_le hlen), Nat.cast_zero]
  | succ n ih =>
    rw [outputCount_succ hlen hd, Nat.cast_succ]
    split_ifs <;> omega

theorem toNat_add_one {x : BitVec 64} (h : x.toNat + 1 < 2 ^ 64) : (x + 1).toNat = x.toNat + 1 := by
  rw [BitVec.toNat_add]
  exact Nat.mod_eq_of_lt h

theorem one_le_toNat {x : Word} (h : x ≠ 0#32) : 1 ≤ x.toNat :=
  Nat.one_le_iff_ne_zero.2 fun h0 => h (BitVec.eq_of_toNat_eq h0)

section
variable {s : State} (hlen : 1 ≤ s.latched.filterLen.toNat) (hdecim : s.latched.decimActive ≠ 0#32)
  (hcount : (s.counters.nFirOut.toNat : Int) =
    outputCount s.latched.filterLen.toNat s.latched.decimActive.toNat s.counters.nIn.toNat)
  (hwrap : s.counters.nIn.toNat + 1 < 2 ^ 64)
include hlen hdecim hcount hwrap

/-- The output counter after one more sample: it does not wrap before N_IN does. -/
theorem State.toNat_nFirOut_succ :
    (if s.firEmits then s.counters.nFirOut + 1 else s.counters.nFirOut).toNat = s.counters.nFirOut.toNat +
      if s.latched.filterLen.toNat ≤ s.counters.nIn.toNat + 1 ∧
        s.counters.nIn.toNat % s.latched.decimActive.toNat = 0 then 1 else 0 := by
  have hemits : s.firEmits = true ↔ s.latched.filterLen.toNat ≤ s.counters.nIn.toNat + 1 ∧
      s.counters.nIn.toNat % s.latched.decimActive.toNat = 0 := by
    simp [State.firEmits, dividesCount_iff]
  have hle := outputCount_le hlen (one_le_toNat hdecim) s.counters.nIn.toNat
  simp only [hemits]
  split_ifs
  · exact toNat_add_one (by omega)
  · rfl

theorem State.nFirOut_succ_eq_outputCount :
    ((if s.firEmits then s.counters.nFirOut + 1 else s.counters.nFirOut).toNat : Int) =
      outputCount s.latched.filterLen.toNat s.latched.decimActive.toNat (s.counters.nIn + 1).toNat := by
  rw [State.toNat_nFirOut_succ hlen hdecim hcount hwrap, toNat_add_one hwrap,
    outputCount_succ hlen (one_le_toNat hdecim), ← hcount]
  push_cast
  rfl

end

theorem State.CountsAgree.of_stream_start {t : State} (hlen : t.status.designed = true → 1 ≤ t.latched.filterLen.toNat)
    (hin : t.counters.nIn = 0#64) (hout : t.counters.nFirOut = 0#64) : t.CountsAgree := by
  intro hd
  rw [hin, hout, outputCount, BitVec.toNat_zero, if_pos (Nat.lt_of_succ_le (hlen hd)), Nat.cast_zero]

/-- Every command keeps the agreement of R118: the filter's counts of one more sample, a fresh stream's, or none. -/
theorem exec_keeps_countsAgree {i : Instr} {s t : State} (hinv : s.Inv) (hcount : s.CountsAgree)
    (hwrap : s.counters.nIn.toNat + 1 < 2 ^ 64) (h : exec i s = .next t) : t.CountsAgree := by
  have hlen {u : State} (hu : u.Inv) (hd : u.status.designed = true) : 1 ≤ u.latched.filterLen.toNat :=
    Nat.one_le_of_lt (hu.designed hd).wrLt
  have hcounted (hd : s.status.designed = true) :=
    State.nFirOut_succ_eq_outputCount (hlen hinv hd) (hinv.designed hd).decimPos (hcount hd) hwrap
  have htinv := exec_keeps_inv hinv h
  cases exec_effect h with
  | start | commit => exact .of_stream_start (hlen htinv) rfl rfl
  | fail => intro hd; cases hd
  | filter hd => have hframe := s.firUnit_frame s.operands.inI s.operands.inQ
                 intro _; simpa [hframe] using hcounted hd
  | push hd => have hframe := s.pushUnits_frame s.operands.inI s.operands.inQ
               intro _; simpa [hframe] using hcounted hd
  | resample => have hframe := s.resampleUnit_frame s.operands.scalarIn
                simpa [State.CountsAgree, hframe] using hcount
  | _ => exact hcount

/-- Settles O41: only a command moves the two counters, and a reset clears them. -/
theorem outputCountFollowsTheFormula : Obligations.OutputCountFollowsTheFormula := by
  intro s t hinv hcount hwrap h
  obtain hkept | ⟨rest, -, rfl⟩ | ⟨-, -, i, -, hexec⟩ := step_stream h
  · rwa [State.CountsAgree, hkept.designed, hkept.counters, hkept.latched]
  · intro hd; cases hd
  · exact exec_keeps_countsAgree hinv.turnTaken hcount hwrap hexec

/-- Settles O42: the formula at its values, and one FIR_STEP by `State.toNat_nFirOut_succ`. -/
theorem outputCountOfTheReferenceFilter : Obligations.OutputCountOfTheReferenceFilter := by
  intro s hd hcount
  have hcount := hcount hd
  refine ⟨fun hlt => ?_, fun hlen hdecim => ⟨fun hin => ?_, fun hin => ?_⟩, fun t hwrap h => ?_⟩
  · rw [outputCount, if_pos hlt] at hcount
    exact BitVec.eq_of_toNat_eq (by exact_mod_cast hcount)
  · rw [hlen, hdecim, hin] at hcount
    exact BitVec.eq_of_toNat_eq (Int.ofNat_inj.1 (hcount.trans (by decide)))
  · rw [hlen, hdecim, hin] at hcount
    exact BitVec.eq_of_toNat_eq (Int.ofNat_inj.1 (hcount.trans (by decide)))
  · cases exec_effect h with
    | held hh => simp [State.HeldBy] at hh
    | notDesigned _ hd' => exact absurd (hd'.symm.trans hd) (by decide)
    | filter _ hf =>
      obtain ⟨-, -, -, hwr, -, hdecim⟩ := (State.filterFault_eq_none_iff s).1 hf
      have hframe := s.firUnit_frame s.operands.inI s.operands.inQ
      simpa [hframe] using State.toNat_nFirOut_succ (Nat.one_le_of_lt hwr) hdecim hcount hwrap

end Sys2Proof.Machine
end

section
/-! SUPPORT. The audio samples: what a command and a step do to them, and the rules of R129, R131, R135 and R182 that
follow; and the obligations about them. -/

namespace Sys2Proof.Machine

/-! ### What a command does to the audio samples -/

/-- No sample is emitted: those received and waiting stay, and so does N_AUDIO; a sample that is consumed is one R131
drops. -/
structure State.AudioQuiet (s t : State) : Prop where
  audio : t.audioOut ++ t.fifo = s.audioOut ++ s.fifo
  count : t.counters.nAudio = s.counters.nAudio
  stays : t.status.designed = true → s.status.designed = true ∧ t.latched = s.latched ∧
    (t.counters.nRsIn = s.counters.nRsIn ∨
      (t.counters.nRsIn = s.counters.nRsIn + 1 ∧ s.latched.resampleFactor ≠ 0#32 ∧
        s.counters.nRsIn.toNat % s.latched.resampleFactor.toNat ≠ 0))

/-- A stream begins: the samples stay, and their counters are cleared (R140). -/
structure State.AudioRestarts (s t : State) : Prop where
  audio : t.audioOut ++ t.fifo = s.audioOut ++ s.fifo
  count : t.counters.nAudio = 0#64
  consumed : t.counters.nRsIn = 0#64

/-- A sample is emitted (R131): it goes behind all others, AUDIO_LAST shows it, N_AUDIO counts it. -/
structure State.AudioEmits (s t : State) : Prop where
  factor : s.latched.resampleFactor ≠ 0#32
  due : s.counters.nRsIn.toNat % s.latched.resampleFactor.toNat = 0
  stays : s.status.designed = true ∧ t.latched = s.latched
  count : t.counters.nAudio = s.counters.nAudio + 1
  consumed : t.counters.nRsIn = s.counters.nRsIn + 1
  sample : ∃ q : BitVec 16,
    t.audioOut ++ t.fifo = s.audioOut ++ s.fifo ++ [q] ∧ t.results.audioLast = q.signExtend 32

section
variable {s u t : State}
  (hsame : u.audioOut = s.audioOut ∧ u.fifo = s.fifo ∧ u.counters.nAudio = s.counters.nAudio ∧
    u.counters.nRsIn = s.counters.nRsIn ∧ u.status.designed = s.status.designed ∧ u.latched = s.latched)
include hsame

theorem State.AudioQuiet.of_same_start (h : u.AudioQuiet t) : s.AudioQuiet t := by
  obtain ⟨haudio, hfifo, hcount, hconsumed, hdesigned, hlatched⟩ := hsame
  refine ⟨by rw [h.audio, haudio, hfifo], by rw [h.count, hcount], fun hd => ?_⟩
  rw [← hdesigned, ← hlatched, ← hconsumed]
  exact h.stays hd

theorem State.AudioEmits.of_same_start (h : u.AudioEmits t) : s.AudioEmits t := by
  obtain ⟨haudio, hfifo, hcount, hconsumed, hdesigned, hlatched⟩ := hsame
  refine ⟨by rw [← hlatched]; exact h.factor, by rw [← hlatched, ← hconsumed]; exact h.due,
    by rw [← hlatched, ← hdesigned]; exact h.stays, by rw [← hcount]; exact h.count,
    by rw [← hconsumed]; exact h.consumed, ?_⟩
  rw [← haudio, ← hfifo]
  exact h.sample

end

section
variable {s : State} (hd : s.status.designed = true) (hr : s.latched.resampleFactor ≠ 0#32)
include hd hr

theorem State.resampleUnit_audio (a : F64) :
    s.AudioQuiet (s.resampleUnit a) ∨ s.AudioEmits (s.resampleUnit a) := by
  obtain ⟨hemits, heq⟩ | ⟨hemits, heq⟩ := s.resampleUnit_cases a
  · rw [heq]
    exact .inr ⟨hr, s.resampleEmits_iff.1 hemits, ⟨hd, rfl⟩, rfl, rfl, quantize s.draws a, by simp, rfl⟩
  · rw [heq]
    have hdue := mt s.resampleEmits_iff.2 (Bool.eq_false_iff.1 hemits)
    exact .inl ⟨rfl, rfl, fun _ => ⟨hd, rfl, .inr ⟨rfl, hr, hdue⟩⟩⟩

theorem State.pushUnits_audio (x y : F32) :
    s.AudioQuiet (s.pushUnits x y) ∨ s.AudioEmits (s.pushUnits x y) := by
  have hframe := s.firUnit_frame x y
  dsimp only at hframe
  obtain ⟨-, heq⟩ | ⟨-, heq⟩ := s.pushUnits_cases x y
  · rw [heq]
    generalize s.firUnit x y = f at hframe ⊢
    have hunit := State.resampleUnit_audio (s := f.demodUnit f.results.firOutI f.results.firOutQ) (by simp [hframe, hd])
      (by simpa [hframe] using hr) (f.demodAngle (f.results.firOutI, f.results.firOutQ))
    exact hunit.imp (.of_same_start (by simp [hframe])) (.of_same_start (by simp [hframe]))
  · rw [heq]
    exact .inl ⟨by simp [hframe], by simp [hframe], fun _ => ⟨hd, by simp [hframe], .inl (by simp [hframe])⟩⟩

end

theorem State.AudioQuiet.of_same {s t : State} (haudio : t.audioOut ++ t.fifo = s.audioOut ++ s.fifo)
    (hcount : t.counters.nAudio = s.counters.nAudio ∧ t.counters.nRsIn = s.counters.nRsIn)
    (hsame : t.status.designed = s.status.designed ∧ t.latched = s.latched) : s.AudioQuiet t :=
  ⟨haudio, hcount.1, fun hd => ⟨hsame.1 ▸ hd, hsame.2, .inl hcount.2⟩⟩

/-- A command emits nothing, begins a stream, or emits one sample; only START and a DESIGN that succeeds begin one, only
RESAMPLE_STEP and PUSH_IQ emit. -/
theorem exec_audio {i : Instr} {s t : State} (h : exec i s = .next t) :
    s.AudioQuiet t ∨
    ((i = .start ∨ (i = .design ∧ ∃ d, designOf s.params.lMax s.cfg = .ok d)) ∧ s.AudioRestarts t) ∨
    ((i = .resampleStep ∨ i = .pushIq) ∧ s.AudioEmits t) := by
  cases exec_effect h with
  | start => exact .inr (.inl ⟨.inl rfl, rfl, rfl, rfl⟩)
  | commit hd => exact .inr (.inl ⟨.inr ⟨rfl, _, hd⟩, rfl, rfl, rfl⟩)
  | fail => exact .inl ⟨rfl, rfl, fun hd => by cases hd⟩
  | filter =>
    have hframe := s.firUnit_frame s.operands.inI s.operands.inQ
    exact .inl (.of_same (by simp [hframe]) (by simp [hframe]) (by simp [hframe]))
  | resample hd _ hr =>
    exact (State.resampleUnit_audio hd hr _).imp (fun ⟨h1, h2, h3⟩ => ⟨h1, h2, h3⟩)
      fun ⟨h1, h2, h3, h4, h5, h6⟩ => .inr ⟨.inl rfl, h1, h2, h3, h4, h5, h6⟩
  | push hd _ _ hr =>
    exact (State.pushUnits_audio hd hr _ _).imp (fun ⟨h1, h2, h3⟩ => ⟨h1, h2, h3⟩)
      fun ⟨h1, h2, h3, h4, h5, h6⟩ => .inr ⟨.inr rfl, h1, h2, h3, h4, h5, h6⟩
  | _ => exact .inl (.of_same rfl ⟨rfl, rfl⟩ ⟨rfl, rfl⟩)

/-! ### What a step does to the audio samples -/

/-- A step that is no reset is quiet, or a turn of the core engine that begins a stream or emits a sample. -/
theorem step_audio {s t : State} (h : step s = .next t) :
    (∃ rest, s.agenda = .reset :: rest ∧ t = s.turnTaken.resetTurn) ∨ s.AudioQuiet t ∨
    (s.RestartsStream ∧ s.AudioRestarts t) ∨
    ((s.CoreMoves ∧ s.status.busy = true ∧
      (decodeWord s.pending = some .resampleStep ∨ decodeWord s.pending = some .pushIq)) ∧ s.AudioEmits t) := by
  obtain hkept | hreset | ⟨hcore, hbusy, i, hword, hexec⟩ := step_stream h
  · exact .inr (.inl (.of_same hkept.audio (by simp [hkept.counters]) ⟨hkept.designed, hkept.latched⟩))
  · exact .inl hreset
  · obtain ⟨h1, h2, h3⟩ | ⟨hi, h1, h2, h3⟩ | ⟨hi, h1, h2, h3, h4, h5, h6⟩ := exec_audio hexec
    · exact .inr (.inl ⟨h1, h2, h3⟩)
    · refine .inr (.inr (.inl ⟨⟨hcore, hbusy, ?_⟩, h1, h2, h3⟩))
      obtain rfl | ⟨rfl, hd⟩ := hi
      · exact .inl hword
      · exact .inr ⟨hword, hd⟩
    · refine .inr (.inr (.inr ⟨⟨hcore, hbusy, ?_⟩, h1, h2, h3, h4, h5, h6⟩))
      obtain rfl | rfl := hi
      · exact .inl hword
      · exact .inr hword

theorem setWidth_signExtend (q : BitVec 16) : (q.signExtend 32).setWidth 16 = q := by
  ext i hi
  rw [BitVec.getElem_setWidth, BitVec.getLsbD_signExtend, if_pos hi, decide_eq_true (by omega), Bool.true_and,
    BitVec.getLsbD_eq_getElem]

theorem emitted_of_quiet {s t : State} (h : t.counters.nAudio.toNat ≠ s.counters.nAudio.toNat + 1) :
    emitted s t = [] := if_neg h

/-- R135: what is received and waiting grows by what the step emits, while N_AUDIO does not wrap. -/
theorem step_appends_emitted {s t : State} (h : step s = .next t) (hreset : ∀ rest, s.agenda ≠ .reset :: rest)
    (hwrap : s.counters.nAudio.toNat + 1 < 2 ^ 64) :
    t.audioOut ++ t.fifo = s.audioOut ++ s.fifo ++ emitted s t ∧ (emitted s t).length ≤ 1 ∧
      t.counters.nAudio.toNat ≤ s.counters.nAudio.toNat + 1 := by
  obtain ⟨rest, ha, -⟩ | hq | ⟨-, hr⟩ | ⟨-, he⟩ := step_audio h
  · exact absurd ha (hreset rest)
  · rw [emitted_of_quiet (by rw [hq.count]; omega), hq.audio, hq.count]
    simp
  · rw [emitted_of_quiet (by simp [hr.count]), hr.audio, hr.count]
    simp
  · obtain ⟨q, haudio, hlast⟩ := he.sample
    have hone : t.counters.nAudio.toNat = s.counters.nAudio.toNat + 1 := by rw [he.count, toNat_add_one hwrap]
    rw [emitted, if_pos hone, hlast, setWidth_signExtend, haudio]
    exact ⟨rfl, le_rfl, hone.le⟩

theorem State.memWrite_agenda (s : State) (off : Nat) (v : Word) : (s.memWrite off v).agenda = s.agenda := by
  rcases s.memWrite_cases off v with heq | ⟨-, heq⟩ | ⟨-, heq⟩
  · rw [heq]
  · rw [heq, State.report_agenda]
  · rcases s.writeWord_cases (busWordAt s.params.lMax off) v with ⟨-, hw⟩ | ⟨-, hw⟩ | hw <;> rw [heq, hw] <;> rfl

theorem State.sinkTurn_agenda (s : State) : s.sinkTurn.agenda = s.agenda := by
  rcases s.sinkTurn_cases with ⟨-, heq⟩ | ⟨q, rest, -, heq⟩ <;> rw [heq]

/-- Every step takes its turn off the agenda. -/
theorem step_agenda {s t : State} (h : step s = .next t) : t.agenda = s.agenda.tail := by
  cases step_move h with
  | command _ _ _ hexec =>
    obtain ⟨-, -, -, -, hagenda, -⟩ := commandsKeepTheHostRegisters _ _ _ hexec
    exact hagenda
  | sink => exact State.sinkTurn_agenda _
  | write => exact State.memWrite_agenda _ _ _
  | _ => rfl

/-- R129, R135: over a run without a reset. -/
theorem run_appends_emissions {k : Nat} {s t : State} (hreset : .reset ∉ s.agenda)
    (hwrap : s.counters.nAudio.toNat + k < 2 ^ 64) (h : Sys2Proof.core.run k s = .next t) :
    t.audioOut ++ t.fifo = s.audioOut ++ s.fifo ++ emissions k s ∧ (emissions k s).length ≤ k := by
  induction k generalizing s with
  | zero => cases h; simp [emissions]
  | succ k ih =>
    obtain ⟨u, hstep, hrun⟩ := core_run_succ h
    obtain ⟨haudio, hlen, hcount⟩ := step_appends_emitted hstep
      (fun rest ha => hreset (ha ▸ List.mem_cons_self)) (by omega)
    have hagenda : .reset ∉ u.agenda := fun hmem => hreset (List.mem_of_mem_tail (step_agenda hstep ▸ hmem))
    obtain ⟨haudio', hlen'⟩ := ih hagenda (by omega) hrun
    have hemissions : emissions (k + 1) s = emitted s u ++ emissions k u := by rw [emissions, hstep]
    rw [hemissions, haudio', haudio, List.length_append]
    exact ⟨List.append_assoc .., by omega⟩

/-! ### The count of R131 -/

/-- R131: of the samples with indices up to `n` one more is emitted than of those below `n` when `r` divides `n`. -/
theorem ceil_succ {r : Nat} (hr : 1 ≤ r) (n : Nat) :
    (n + 1 + r - 1) / r = (n + r - 1) / r + if n % r = 0 then 1 else 0 := by
  have hsucc : (n + r - 1 + 1) / r = (n + r - 1) / r + if r ∣ n + r - 1 + 1 then 1 else 0 := Nat.succ_div
  rw [show n + r - 1 + 1 = n + r by omega] at hsucc
  rw [show n + 1 + r - 1 = n + r by omega, hsucc]
  simp [Nat.dvd_iff_mod_eq_zero]

/-- R129: the sample with index `n` that is emitted has the number `n / r`, rounded up, since START. -/
theorem eq_ceil_mul {r n : Nat} (hr : 1 ≤ r) (h : n % r = 0) : n = (n + r - 1) / r * r := by
  obtain ⟨k, rfl⟩ := Nat.dvd_of_mod_eq_zero h
  have hk : (r * k + r - 1) / r = k := by
    rw [show r * k + r - 1 = r - 1 + r * k by omega, Nat.add_mul_div_left _ _ hr, Nat.div_eq_of_lt (by omega),
      Nat.zero_add]
  rw [hk, Nat.mul_comm]

theorem ceil_le {r : Nat} (hr : 1 ≤ r) (n : Nat) : (n + r - 1) / r ≤ n := by
  induction n with
  | zero => exact (Nat.div_eq_of_lt (by omega)).le
  | succ n ih =>
    rw [ceil_succ hr]
    split_ifs <;> omega

theorem ceil_zero (r : Nat) : (0 + r - 1) / r = 0 := by
  rcases Nat.eq_zero_or_pos r with rfl | hr
  · rfl
  · exact Nat.div_eq_of_lt (by omega)

/-- A step keeps N_AUDIO at the count of R131 while N_RS_IN does not wrap. -/
theorem step_keeps_emissionsAgree {s t : State} (hagree : s.EmissionsAgree) (h : step s = .next t)
    (hwrap : s.counters.nRsIn.toNat + 1 < 2 ^ 64) : t.EmissionsAgree := by
  intro hd
  obtain ⟨rest, -, rfl⟩ | hq | ⟨-, hr⟩ | ⟨-, he⟩ := step_audio h
  · cases hd
  · obtain ⟨hds, hlatched, hsame | ⟨hone, hr, hdue⟩⟩ := hq.stays hd
    · rw [hq.count, hsame, hlatched, hagree hds]
    · rw [hq.count, hone, hlatched, toNat_add_one hwrap, ceil_succ (one_le_toNat hr), if_neg hdue, hagree hds, add_zero]
  · rw [hr.count, hr.consumed, BitVec.toNat_zero, ceil_zero]
  · have hcount := hagree he.stays.1
    have hle := ceil_le (one_le_toNat he.factor) s.counters.nRsIn.toNat
    rw [he.count, he.consumed, he.stays.2, toNat_add_one hwrap, toNat_add_one (by omega),
      ceil_succ (one_le_toNat he.factor), if_pos he.due, hcount]

/-- Only an emission shows in `emitted`. -/
theorem audioEmits_of_emitted {s t : State} (h : step s = .next t) (hne : emitted s t ≠ []) :
    (s.CoreMoves ∧ s.status.busy = true ∧
      (decodeWord s.pending = some .resampleStep ∨ decodeWord s.pending = some .pushIq)) ∧ s.AudioEmits t := by
  obtain ⟨rest, -, rfl⟩ | hq | ⟨-, hr⟩ | he := step_audio h
  · exact absurd (emitted_of_quiet (by simp [State.resetTurn, State.resetFrom])) hne
  · exact absurd (emitted_of_quiet (by rw [hq.count]; omega)) hne
  · exact absurd (emitted_of_quiet (by simp [hr.count])) hne
  · exact he

/-- Settles O49: the run by induction on its steps, the rest by the one step that emits. -/
theorem audioReachesTheSinkInOrder : Obligations.AudioReachesTheSinkInOrder := by
  refine ⟨fun k s t hreset hwrap h => run_appends_emissions hreset hwrap h,
    fun s t h hne => (audioEmits_of_emitted h hne).1,
    fun s t hagree h => ⟨step_keeps_emissionsAgree hagree h, fun hne => ?_⟩⟩
  obtain ⟨-, he⟩ := audioEmits_of_emitted h hne
  rw [hagree he.stays.1]
  exact eq_ceil_mul (one_le_toNat he.factor) he.due

/-! ### The sink's count (R182) -/

theorem State.audioCountAgrees_iff {s : State} {n : Nat} :
    s.AudioCountAgrees n ↔ (s.audioOut ++ s.fifo).length = n + s.counters.nAudio.toNat := by
  rw [State.AudioCountAgrees, List.length_append]

/-- A turn that begins a stream leaves the samples and clears N_AUDIO (R140). -/
theorem step_restarts {s t : State} (h : step s = .next t) (hr : s.RestartsStream) : s.AudioRestarts t := by
  obtain ⟨hcore, hbusy, hword⟩ := hr
  rw [step_coreMoves hcore, State.coreTurn, State.turnTaken_status, if_pos hbusy, State.turnTaken_pending] at h
  obtain hword | ⟨hword, d, hd⟩ := hword
  · rw [hword] at h
    cases h
    exact ⟨rfl, rfl, rfl⟩
  · rw [hword] at h
    cases exec_effect h with
    | held hh => simp [State.HeldBy] at hh
    | notDesigned hi => simp at hi
    | commit => exact ⟨rfl, rfl, rfl⟩
    | fail hc => exact absurd (hd.symm.trans hc) (by simp)

/-- Settles O60: a step emits nothing or one sample, which N_AUDIO counts; a start and a reset clear N_AUDIO. -/
theorem audioCountFollowsTheSamples : Obligations.AudioCountFollowsTheSamples := by
  refine fun n s => ⟨fun t h hreset hrestart hwrap hagree => ?_, fun t h hbegin => ?_, fun hover hagree => ?_⟩
  · rw [State.audioCountAgrees_iff] at hagree ⊢
    obtain ⟨rest, ha, -⟩ | hq | ⟨hr, -⟩ | ⟨-, he⟩ := step_audio h
    · exact absurd ha (hreset rest)
    · rw [hq.audio, hq.count, hagree]
    · exact absurd hr hrestart
    · obtain ⟨q, haudio, -⟩ := he.sample
      rw [haudio, he.count, toNat_add_one hwrap, List.length_append, hagree]
      rfl
  · obtain ⟨hr, hempty⟩ | ⟨rest, ha⟩ := hbegin
    · have hr := step_restarts h hr
      rw [State.audioCountAgrees_iff, hr.audio, hr.count, hempty, List.append_nil]
      rfl
    · rw [step_cons ha] at h
      cases h
      rfl
  · obtain ⟨-, -, hempty⟩ := hover
    rwa [State.audioCountAgrees_iff, hempty, List.append_nil] at hagree

end Sys2Proof.Machine
end

section
/-! SUPPORT. That commands and turns answer: every command on a machine that meets the invariant, held or not, every
access of the window (R75, R133, R138, R155); and the obligations about them. -/

namespace Sys2Proof.Machine

/-! ### Commands answer -/

theorem exec_of_not_designed {s : State} {i : Instr} (hi : i = .firStep ∨ i = .resampleStep ∨ i = .pushIq)
    (hd : s.status.designed = false) : exec i s = .next (s.raise .notDesigned) := by
  obtain rfl | rfl | rfl := hi
  · rw [exec, execFirStep, if_pos hd]
  · rw [exec, execResampleStep, if_pos hd]
  · rw [exec, execPushIq, if_pos hd]

/-- Settles O27: the three commands test DESIGNED before anything else. -/
theorem streamCommandsNeedADesign : Obligations.StreamCommandsNeedADesign := fun _ _ => exec_of_not_designed

theorem exec_pushIq_of_not_held {s : State} (hready : s.FilterReady) (hfree : ¬ s.HeldBy .pushIq) :
    exec .pushIq s = .next (s.pushUnits s.operands.inI s.operands.inQ).complete := by
  obtain ⟨hd, hok, -⟩ := id hready
  rw [exec, execPushIq, hd, if_neg (by decide), hready.filterFault, hok.resamplerFault]
  exact congrArg _ (if_neg (mt (State.pushHeld_iff hd).1 hfree))

/-- A held command answers and changes nothing (R133). -/
theorem exec_of_held {s : State} {i : Instr} (h : s.Inv) (hh : s.HeldBy i) : exec i s = .next s := by
  obtain ⟨-, hd, hi⟩ := id hh
  have hready := h.filterReady hd
  have hfault := (h.designed hd).resamplerFault
  obtain ⟨rfl, -⟩ | ⟨rfl, -⟩ := hi
  · rw [exec, execResampleStep, hd, if_neg (by decide), hfault]
    exact congrArg _ (if_pos ((State.resampleHeld_iff hd).2 hh))
  · rw [exec, execPushIq, hd, if_neg (by decide), hready.filterFault, hfault]
    exact congrArg _ (if_pos ((State.pushHeld_iff hd).2 hh))

/-- R155: on a machine that meets the invariant every command answers. -/
theorem exec_answers {s : State} (h : s.Inv) (i : Instr) : ∃ t, exec i s = .next t := by
  by_cases hh : s.HeldBy i
  · exact ⟨s, exec_of_held h hh⟩
  cases hd : s.status.designed with
  | false =>
    cases i with
    | firStep => exact ⟨_, exec_of_not_designed (by decide) hd⟩
    | resampleStep => exact ⟨_, exec_of_not_designed (by decide) hd⟩
    | pushIq => exact ⟨_, exec_of_not_designed (by decide) hd⟩
    | _ => exact ⟨_, rfl⟩
  | true =>
    cases i with
    | firStep => exact ⟨_, exec_firStep_of_filterReady (h.filterReady hd)⟩
    | resampleStep => exact ⟨_, exec_resampleStep_of_not_held hd (h.designed hd).factorPos hh⟩
    | pushIq => exact ⟨_, exec_pushIq_of_not_held (h.filterReady hd) hh⟩
    | _ => exact ⟨_, rfl⟩

theorem State.coreTurn_of_command {s : State} {i : Instr} (hbusy : s.status.busy = true)
    (hword : decodeWord s.pending = some i) : s.coreTurn = exec i s := by
  rw [State.coreTurn, if_pos hbusy, hword]

theorem State.coreTurn_of_illegal {s : State} (hbusy : s.status.busy = true) (hword : decodeWord s.pending = none) :
    s.coreTurn = .next (s.raise .illegalCmd) := by
  rw [State.coreTurn, if_pos hbusy, hword]

theorem State.coreTurn_of_idle {s : State} (hbusy : s.status.busy = false) : s.coreTurn = .next s := by
  rw [State.coreTurn, hbusy, if_neg (by decide)]

theorem State.coreTurn_answers {s : State} (h : s.Inv) : ∃ t, s.coreTurn = .next t := by
  cases hbusy : s.status.busy with
  | false => exact ⟨_, State.coreTurn_of_idle hbusy⟩
  | true =>
    cases hword : decodeWord s.pending with
    | none => exact ⟨_, State.coreTurn_of_illegal hbusy hword⟩
    | some i => rw [State.coreTurn_of_command hbusy hword]; exact exec_answers h i

/-! ### The core engine's turn -/

/-- Settles O17. -/
theorem coreTurnRunsThePendingCommand : Obligations.CoreTurnRunsThePendingCommand := fun s _ hcore hbusy hword =>
  (step_coreMoves hcore).trans (State.coreTurn_of_command (s := s.turnTaken) hbusy hword)

/-- Settles O20. -/
theorem idleEngineWaits : Obligations.IdleEngineWaits := fun s hcore hbusy =>
  (step_coreMoves hcore).trans (State.coreTurn_of_idle (s := s.turnTaken) hbusy)

/-- Settles O18: the placed word is the command's own, and the core engine moves next. -/
theorem placedCommandRunsNext : Obligations.PlacedCommandRunsNext := by
  intro s i
  have hword : BitVec.ofNat 32 ((encodeWord i).toNat % 2 ^ 32) = encodeWord i := by cases i <;> rfl
  rw [State.withFetchWord, hword, step_coreMoves (.inr ⟨s.agenda, rfl⟩)]
  exact State.coreTurn_of_command rfl (decodeWord_encodeWord i)

/-! ### Host accesses -/

/-- What an access answers, by the window and the alignment (R70, R75). -/
theorem State.onAccess_eq (s : State) (w : Width) (addr : Nat) (k : Nat → State) :
    s.onAccess w addr k =
      if s.params.base ≤ addr ∧ addr ≤ s.params.base + 0xFFFF then
        if w = .word ∧ (addr - s.params.base) % 4 = 0 then .next (k (addr - s.params.base))
        else .refused .notAlignedWord
      else .refused .outsideWindow := by
  by_cases hwindow : s.params.base ≤ addr ∧ addr ≤ s.params.base + 0xFFFF
  · obtain ⟨off, rfl⟩ := Nat.exists_eq_add_of_le hwindow.1
    rw [if_pos hwindow, Nat.add_sub_cancel_left, s.onAccess_base w off k (by omega)]
  · rw [if_neg hwindow, State.onAccess, State.busOffset, if_neg (by omega)]

/-- Settles O16: the offset of such an access is what the access adds to the base. -/
theorem alignedWordAccessesAreTheOnlyOnes : Obligations.AlignedWordAccessesAreTheOnlyOnes := by
  intro s w off v rest hoff
  refine ⟨fun ha => ?_, fun ha => ?_⟩
  · rw [step_cons ha]
    exact s.turnTaken.onAccess_base w off _ hoff
  · rw [step_cons ha]
    exact s.turnTaken.onAccess_base w off _ hoff

/-- Settles O58: of the turns only a host's access can be refused, and a command answers by the invariant. -/
theorem invariantStatesNeverFault : Obligations.InvariantStatesNeverFault := by
  intro s h
  have haccess (w : Width) (addr : Nat) (k : Nat → State) :
      (∃ t, s.turnTaken.onAccess w addr k = .next t) ∨
        (¬ (s.params.base ≤ addr ∧ addr ≤ s.params.base + 0xFFFF) ∧
          s.turnTaken.onAccess w addr k = .refused .outsideWindow) ∨
        ((s.params.base ≤ addr ∧ addr ≤ s.params.base + 0xFFFF) ∧
          ¬ (w = .word ∧ (addr - s.params.base) % 4 = 0) ∧
          s.turnTaken.onAccess w addr k = .refused .notAlignedWord) := by
    rw [State.onAccess_eq, State.turnTaken_params]
    split_ifs with hwindow haligned
    · exact .inl ⟨_, rfl⟩
    · exact .inr (.inr ⟨hwindow, haligned, rfl⟩)
    · exact .inr (.inl ⟨hwindow, rfl⟩)
  cases ha : s.agenda with
  | nil => rw [step_coreMoves (.inl ha)]; exact .inl (State.coreTurn_answers h.turnTaken)
  | cons u rest =>
    rw [step_cons ha]
    cases u with
    | core => exact .inl (State.coreTurn_answers h.turnTaken)
    | sink => exact .inl ⟨_, rfl⟩
    | reset => exact .inl ⟨_, rfl⟩
    | hostRead w addr => exact (haccess w addr _).imp_right fun hrefused => ⟨w, addr, rest, .inl rfl, hrefused⟩
    | hostWrite w addr v => exact (haccess w addr _).imp_right fun hrefused => ⟨w, addr, rest, .inr ⟨v, rfl⟩, hrefused⟩

/-! ### The sink (R133, R134) -/

/-- After a turn of the sink the FIFO is not full (R9: its depth is at least 1). -/
theorem State.Inv.sinkTurn_has_room {s : State} (h : s.Inv) :
    s.sinkTurn.fifo.length < s.params.fifoDepth ∧ s.sinkTurn.params = s.params := by
  have hdepth := Params.one_le_fifoDepth h.params
  have hfifo := h.fifoLen
  rcases s.sinkTurn_cases with ⟨hempty, heq⟩ | ⟨q, rest, hq, heq⟩
  · rw [heq, hempty]; exact ⟨hdepth, rfl⟩
  · rw [hq, List.length_cons] at hfifo
    rw [heq]; exact ⟨hfifo, rfl⟩

/-- A turn of the sink lifts every hold. -/
theorem State.Inv.sinkTurn_lifts_hold {s : State} (h : s.Inv) (i : Instr) : ¬ s.sinkTurn.HeldBy i := by
  rintro ⟨hfull, -⟩
  obtain ⟨hroom, hparams⟩ := h.sinkTurn_has_room
  rw [hparams] at hfull
  omega

/-- Settles O22: the sink's turn by the FIFO. -/
theorem sinkTakesTheOldestSample : Obligations.SinkTakesTheOldestSample := by
  intro s rest ha
  have hstep : step s = .next s.turnTaken.sinkTurn := step_cons ha
  rw [hstep, State.sinkTurn, State.turnTaken_fifo]
  refine ⟨fun q more hq => ?_, fun hempty => ?_⟩
  · rw [hq]; rfl
  · rw [hempty]

/-- Settles O21: the hold is the command's own test; a turn of the sink makes room. -/
theorem fullFifoHoldsTheCommand : Obligations.FullFifoHoldsTheCommand := by
  intro s i h hh
  refine ⟨fun hcore hbusy hword => ?_, fun rest ha => ?_⟩
  · rw [coreTurnRunsThePendingCommand s i hcore hbusy hword]
    exact exec_of_held h.turnTaken hh
  · exact ⟨_, step_cons ha, h.turnTaken.sinkTurn_lifts_hold i⟩

/-- A turn of the core engine on a machine that nothing holds completes what is pending. -/
theorem State.coreTurn_completes {s : State} (h : s.Inv) (hbusy : s.status.busy = true)
    (hfree : ∀ i, ¬ s.HeldBy i) : ∃ t, s.coreTurn = .next t ∧ t.status.busy = false := by
  obtain ⟨t, ht⟩ := State.coreTurn_answers h
  refine ⟨t, ht, ?_⟩
  rcases State.coreTurn_cases ht with ⟨hidle, -⟩ | ⟨-, -, rfl⟩ | ⟨-, i, -, hexec⟩
  · exact absurd (hidle.symm.trans hbusy) (by decide)
  · rfl
  · exact (everyCommandClearsBusyUnlessHeld i s t hexec).resolve_right fun hheld => hfree i hheld.1

/-- A run's first step, taken off. -/
theorem run_of_step (M : Host.Core) {s u : M.State} (h : M.step s = .next u) (k : Nat) :
    M.run (k + 1) s = M.run k u := by
  rw [Host.Core.run, h]

/-- `run_of_step` for this machine. -/
theorem core_run_of_step {s u : State} (h : step s = .next u) (k : Nat) :
    Sys2Proof.core.run (k + 1) s = Sys2Proof.core.run k u := run_of_step Sys2Proof.core h k

/-- Settles O56: the sink's turn lifts the hold, and the engine has the turn after it. -/
theorem pendingCommandCompletesAfterASinkTurn : Obligations.PendingCommandCompletesAfterASinkTurn := by
  intro s h hbusy ha
  have hsink : step s = .next s.turnTaken.sinkTurn := step_cons ha
  have hagenda : s.turnTaken.sinkTurn.agenda = [] := by rw [step_agenda hsink, ha, List.tail_cons]
  have hbusy' : s.turnTaken.sinkTurn.turnTaken.status.busy = true := by
    rw [State.turnTaken_status, State.sinkTurn_status, State.turnTaken_status, hbusy]
  obtain ⟨t, ht, hdone⟩ := State.coreTurn_completes h.turnTaken.sinkTurn.turnTaken hbusy'
    h.turnTaken.sinkTurn_lifts_hold
  refine ⟨t, ?_, hdone⟩
  rw [core_run_of_step hsink, core_run_of_step ((step_coreMoves (.inl hagenda)).trans ht)]
  rfl

/-! ### Reset (R165, R166) -/

/-- Settles O24: no sample is consumed and no output produced. -/
theorem resetMeetsTheInvariant : Obligations.ResetMeetsTheInvariant :=
  ⟨State.resetFrom_inv (by decide) 0, fun hd => absurd hd (by decide), rfl⟩

/-- Settles O23, field by field. -/
theorem resetLeavesTheResetValues : Obligations.ResetLeavesTheResetValues := by
  intro s rest hp ha
  have hinv : s.turnTaken.resetTurn.Inv :=
    (State.resetFrom_inv hp s.draws).of_same_fields ⟨rfl, rfl, rfl, rfl⟩ ⟨rfl, rfl, rfl⟩ ⟨rfl, rfl⟩ rfl
  have hfull : s.turnTaken.resetTurn.fifoFull = false := by
    have hdepth := Params.one_le_fifoDepth hp
    exact beq_eq_false_iff_ne.2 (by show 0 ≠ s.params.fifoDepth; omega)
  have hflags : s.turnTaken.resetTurn.status = State.reset.status := rfl
  have hstatus : s.turnTaken.resetTurn.statusWord = 0#32 := by rw [State.statusWord, hfull, hflags]; decide
  refine ⟨_, step_cons ha, ⟨rfl, rfl, rfl, rfl, rfl, rfl, rfl⟩, ⟨rfl, rfl, rfl, rfl, rfl⟩, ⟨?_, ?_, ?_⟩,
    ⟨rfl, rfl, rfl, rfl⟩, ⟨rfl, rfl, rfl, rfl⟩, ⟨rfl, rfl, rfl, rfl, rfl⟩,
    ⟨hinv.coefLen, hinv.ringLen, rfl, rfl, rfl, rfl⟩, rfl, rfl, rfl, ?_⟩
  · rw [State.memRead_status, hstatus]
  · exact State.memRead_of_lookup (b := .errCode) _ rfl
  · rw [State.memRead_fifoLevel]; rfl
  · exact congrArg List.tail ha

end Sys2Proof.Machine
end

section
/-! SUPPORT. The encoding (R71, R93, R95): words and bytes; illegal words and the error codes (R94, R147); and the
obligations about them. -/

namespace Sys2Proof

/-- A word is its RSVD field and its opcode (R89). -/
theorem toNat_eq_rsvd_opcode (w : Word) :
    w.toNat = 256 * (w.extractLsb' 8 24).toNat + (w.extractLsb' 0 8).toNat := by
  have hw := w.isLt
  simp only [BitVec.extractLsb'_toNat, Nat.shiftRight_eq_div_pow]
  omega

/-- R91: every opcode below 7 has a command, whose word it is. -/
theorem exists_encodeWord_of_lt {n : Nat} (h : n < 7) : ∃ i, (encodeWord i).toNat = n := by
  interval_cases n
  exacts [⟨.nop, rfl⟩, ⟨.design, rfl⟩, ⟨.start, rfl⟩, ⟨.pushIq, rfl⟩, ⟨.firStep, rfl⟩, ⟨.demodStep, rfl⟩,
    ⟨.resampleStep, rfl⟩]

/-- R94: RSVD is not 0, or the opcode is 0x07 or more. -/
def IllegalWord (w : Word) : Prop := w.extractLsb' 8 24 ≠ 0#24 ∨ 7 ≤ (w.extractLsb' 0 8).toNat

theorem decodeWord_of_illegal {w : Word} (h : IllegalWord w) : decodeWord w = none := by
  obtain hrsvd | hopcode := h
  · exact if_pos hrsvd
  · exact decodeWord_of_seven_le_opcode hopcode

/-- R93: a word that is not illegal is some command's word. -/
theorem eq_encodeWord_of_legal {w : Word} (h : ¬ IllegalWord w) : ∃ i, w = encodeWord i := by
  obtain ⟨hrsvd, hopcode⟩ := not_or.1 h
  obtain ⟨i, hi⟩ := exists_encodeWord_of_lt (not_le.1 hopcode)
  have hw := toNat_eq_rsvd_opcode w
  rw [not_not.1 hrsvd, BitVec.toNat_zero] at hw
  exact ⟨i, BitVec.eq_of_toNat_eq (by omega)⟩

/-- Settles O2: a word outside the map is illegal, one in it is some command's, which the decoder gives back. -/
theorem eachWordHasOneMeaning : Obligations.EachWordHasOneMeaning := by
  intro w
  have hlegal {i : Instr} (h : decodeWord w = some i) : ¬ IllegalWord w := fun hill => by
    rw [decodeWord_of_illegal hill] at h
    cases h
  refine ⟨fun i => ⟨fun h => ?_, fun h => h ▸ decodeWord_encodeWord i⟩, fun h => ?_, decodeWord_of_illegal⟩
  · obtain ⟨j, rfl⟩ := eq_encodeWord_of_legal (hlegal h)
    rw [decodeWord_encodeWord] at h
    exact congrArg encodeWord (Option.some.inj h)
  · by_contra hill
    obtain ⟨j, rfl⟩ := eq_encodeWord_of_legal hill
    rw [decodeWord_encodeWord] at h
    cases h

/-- Four bytes, lowest address first, are the word they were taken from (R71). -/
theorem wordOfBytes_bytesOfWord (w : Word) :
    wordOfBytes (byteOfWord w 0) (byteOfWord w 1) (byteOfWord w 2) (byteOfWord w 3) = w := by
  unfold wordOfBytes byteOfWord
  rw [BitVec.extractLsb'_append_extractLsb'_eq_extractLsb' (show 8 * 3 = 8 * 2 + 8 from rfl),
    BitVec.extractLsb'_append_extractLsb'_eq_extractLsb' (show 8 * 2 = 8 * 1 + 8 from rfl),
    BitVec.extractLsb'_append_extractLsb'_eq_extractLsb' (show 8 * 1 = 8 * 0 + 8 from rfl)]
  exact BitVec.extractLsb'_eq_self

theorem decode_bytesOfWord (w : Word) (rest : List Byte) :
    decode (bytesOfWord w ++ rest) = (decodeWord w).map (·, rest) := by
  rw [bytesOfWord, List.cons_append, List.cons_append, List.cons_append, List.cons_append, List.nil_append, decode,
    wordOfBytes_bytesOfWord]

theorem decode_of_short : ∀ bytes : List Byte, bytes.length < 4 → decode bytes = none
  | [], _ | [_], _ | [_, _], _ | [_, _, _], _ => rfl
  | _ :: _ :: _ :: _ :: _, h => by simp only [List.length_cons] at h; omega

/-- Settles O3. -/
theorem bytesDecodeAsLittleEndianWords : Obligations.BytesDecodeAsLittleEndianWords :=
  ⟨decode_bytesOfWord, fun i rest => by rw [encode, decode_bytesOfWord, decodeWord_encodeWord, Option.map_some],
    decode_of_short⟩

end Sys2Proof

namespace Sys2Proof.Machine

/-- Settles O19: an illegal word decodes to no command. -/
theorem illegalWordRaisesIllegalCmd : Obligations.IllegalWordRaisesIllegalCmd := fun _ hcore hbusy hill =>
  (step_coreMoves hcore).trans (State.coreTurn_of_illegal hbusy (decodeWord_of_illegal hill))

/-- Settles O25. -/
theorem errorCodesHaveTheirNumbers : Obligations.ErrorCodesHaveTheirNumbers := by
  unfold Obligations.ErrorCodesHaveTheirNumbers
  decide

/-- Settles O29: RING is the draw of `State.startStream`. -/
theorem startRestartsTheStream : Obligations.StartRestartsTheStream :=
  ⟨decodeWord_encodeWord .start, fun _ => ⟨_, _, drawRing_length _ _, rfl⟩⟩

/-- Settles O30: each clause is one case of `State.finishDesign`. -/
theorem designCommitsOrFails : Obligations.DesignCommitsOrFails := by
  intro s
  refine ⟨fun d h => ?_, fun c h => ?_⟩
  · have hlen := designOf_taps_length h
    obtain ⟨-, -, -, -, -, -, -, hdecim⟩ := designOf_ok h
    refine ⟨hlen, _, s.draws + 2 * s.params.lMax, drawRing_length _ s.draws, ?_⟩
    have hcoef : d.taps ++ s.coef.drop d.len = d.taps ++ s.coef.drop d.taps.length := by rw [hlen]
    rw [exec, execDesign, h, hcoef, ← hdecim]
    rfl
  · rw [exec, execDesign, h]
    rfl

end Sys2Proof.Machine
end

section
/-! SUPPORT. What a rounded result can be when the exact one is known or bounded: one notion for the four operations,
and the exact cases that follow (R19). -/

namespace Sys2Proof.Fp

/-- `m` is the magnitude an exact magnitude `x` rounds to: the code nearest to it, or that of infinity. -/
def RoundedCode (x : ℚ) (m : Nat) : Prop := ∃ n, NearestCode x n ∧ m = min n infMag

namespace RoundedCode

variable {x : ℚ} {m c : Nat} (h : RoundedCode x m)
include h

theorem le_of_le (hx : x ≤ magVal c) : m ≤ c := by
  obtain ⟨n, hn, rfl⟩ := h
  exact (min_le_left _ _).trans (nearestCode_mono hx hn (nearestCode_magVal c))

theorem ge_of_ge (hc : c ≤ infMag) (hx : magVal c ≤ x) : c ≤ m := by
  obtain ⟨n, hn, rfl⟩ := h
  exact le_min (nearestCode_mono hx (nearestCode_magVal c) hn) hc

/-- A number that has a code rounds to it. -/
theorem eq_of_eq (hc : c ≤ infMag) (hx : x = magVal c) : m = c :=
  le_antisymm (h.le_of_le hx.le) (h.ge_of_ge hc hx.ge)

theorem eq_zero_of_zero (hx : x = 0) : m = 0 := h.eq_of_eq (Nat.zero_le _) (hx.trans magVal_zero.symm)

end RoundedCode

section
variable {a b : F64} (ha : isFinite a = true) (hb : isFinite b = true)
include ha hb

theorem mul_code : RoundedCode (magVal (mag a) * magVal (mag b)) (mag (mul a b)) := (mul_spec ha hb).2

theorem div_code (h0 : mag b ≠ 0) : RoundedCode (magVal (mag a) / magVal (mag b)) (mag (div a b)) :=
  (div_spec ha hb h0).2

theorem add_code : RoundedCode |toRat a + toRat b| (mag (add a b)) := (add_spec ha hb).2.2

theorem sub_code : RoundedCode |toRat a - toRat b| (mag (sub a b)) := by
  have h := add_code ha (by rwa [isFinite_neg] : isFinite (neg b) = true)
  rwa [toRat_neg hb, ← sub_eq_add_neg] at h

end

theorem isFinite_of_mag_le {a b : F64} (hb : isFinite b = true) (h : mag a ≤ mag b) : isFinite a = true :=
  isFinite_iff.2 (h.trans_lt (isFinite_iff.1 hb))

theorem mag_le_infMag {a : F64} (h : isNaN a = false) : mag a ≤ infMag := by
  simpa [isNaN] using h

theorem isFinite_of_mag_zero {a : F64} (h : mag a = 0) : isFinite a = true :=
  isFinite_iff.2 (by rw [h]; decide)

theorem toRat_eq_zero_iff {a : F64} (ha : isFinite a = true) : toRat a = 0 ↔ mag a = 0 := by
  rw [toRat_eq ha, ← magVal_eq_zero, signedVal]
  split <;> simp

theorem abs_toRat {a : F64} (ha : isFinite a = true) : |toRat a| = magVal (mag a) := by
  rw [toRat_eq ha, abs_signedVal]

theorem toRat_of_sign_false {a : F64} (ha : isFinite a = true) (hs : sign a = false) : toRat a = magVal (mag a) := by
  rw [toRat_eq ha, hs, signedVal, if_neg (by decide)]

theorem toRat_nonneg {a : F64} (ha : isFinite a = true) (hs : sign a = false) : 0 ≤ toRat a := by
  rw [toRat_of_sign_false ha hs]
  exact magVal_nonneg _

theorem sign_of_toRat_pos {a : F64} (ha : isFinite a = true) (h : 0 < toRat a) : sign a = false := by
  by_contra hs
  rw [toRat_eq ha, Bool.eq_true_of_not_eq_false hs, signedVal, if_pos rfl] at h
  linarith [magVal_nonneg (mag a)]

/-- Two finite values of one sign that stand for one number are the same pattern. -/
theorem eq_of_toRat_eq {a b : F64} (ha : isFinite a = true) (hb : isFinite b = true) (hs : sign a = sign b)
    (h : toRat a = toRat b) : a = b := by
  have habs := congrArg abs h
  rw [abs_toRat ha, abs_toRat hb] at habs
  exact ext_sign_mag hs (magVal_strictMono.injective habs)

/-! ### Neutral elements -/

theorem mul_one_right {a : F64} (ha : isFinite a = true) : mul a one = a := by
  refine ext_sign_mag ?_ ((mul_code ha isFinite_one).eq_of_eq (isFinite_iff.1 ha).le ?_)
  · rw [(mul_spec ha isFinite_one).1, show sign one = false by decide, Bool.bne_false]
  · rw [magVal_mag_one, mul_one]

theorem mul_one_left {a : F64} (ha : isFinite a = true) : mul one a = a := by rw [mul_comm, mul_one_right ha]

theorem div_self_eq_one {a : F64} (ha : isFinite a = true) (h0 : mag a ≠ 0) : div a a = one := by
  refine ext_sign_mag ?_ ((div_code ha ha h0).eq_of_eq (by decide) ?_)
  · rw [(div_spec ha ha h0).1, bne_self_eq_false]; decide
  · rw [magVal_mag_one, div_self (mt magVal_eq_zero.1 h0)]

end Sys2Proof.Fp
end

section
/-! SUPPORT. The 64-bit registers by their halves (R72, R174); and the obligations about them. -/

namespace Sys2Proof.Machine

theorem highWord_append_lowWord (v : BitVec 64) : highWord v ++ lowWord v = v := by
  unfold highWord lowWord
  rw [BitVec.extractLsb'_append_extractLsb'_eq_extractLsb' (show 32 = 0 + 32 from rfl)]
  exact BitVec.extractLsb'_eq_self

theorem State.write64_write64 (s : State) (r : Reg64) (u v : BitVec 64) :
    (s.write64 r u).write64 r v = s.write64 r v := by
  cases r <;> rfl

@[simp] theorem State.write64_params (s : State) (r : Reg64) (v : BitVec 64) : (s.write64 r v).params = s.params := by
  cases r <;> rfl

@[simp] theorem State.write64_status (s : State) (r : Reg64) (v : BitVec 64) : (s.write64 r v).status = s.status := by
  cases r <;> rfl

section
variable {s : State} {off : Nat} {r : Reg64} (hlo : registerMap.lookup off = some (.lo r))
  (hhi : registerMap.lookup (off + 4) = some (.hi r))
include hlo hhi

/-- R72: a 64-bit register is its HI word joined to its LO word. -/
theorem State.memRead_halves : s.memRead (off + 4) ++ s.memRead off = s.read64 r := by
  rw [s.memRead_of_lookup hlo, s.memRead_of_lookup hhi]
  exact highWord_append_lowWord _

variable (hr : r.isRW = true) (hidle : s.status.busy = false) (lo hi : Word)
include hr hidle

/-- R174: the low half first. -/
theorem State.memWrite_lo_hi : (s.memWrite off lo).memWrite (off + 4) hi = s.write64 r (hi ++ lo) := by
  simp [State.memWrite, busWordAt_of_lookup hlo, busWordAt_of_lookup hhi, BusWord.isWritable, hr, hidle,
    State.writeWord, State.read64_write64, State.write64_write64]

/-- R174: the high half first. -/
theorem State.memWrite_hi_lo : (s.memWrite (off + 4) hi).memWrite off lo = s.write64 r (hi ++ lo) := by
  simp [State.memWrite, busWordAt_of_lookup hlo, busWordAt_of_lookup hhi, BusWord.isWritable, hr, hidle,
    State.writeWord, State.read64_write64, State.write64_write64]

/-- R72, R174: the two halves in either order leave the same state, and each reads back. -/
theorem State.memWrite_halves :
    (s.memWrite off lo).memWrite (off + 4) hi = (s.memWrite (off + 4) hi).memWrite off lo ∧
      ((s.memWrite off lo).memWrite (off + 4) hi).memRead off = lo ∧
      ((s.memWrite off lo).memWrite (off + 4) hi).memRead (off + 4) = hi := by
  rw [State.memWrite_lo_hi hlo hhi hr hidle, State.memWrite_hi_lo hlo hhi hr hidle, State.memRead_of_lookup _ hlo,
    State.memRead_of_lookup _ hhi, State.readWord_write64 s hr, State.readWord_write64 s hr]
  simp

end

/-- Settles O8: each offset is a row of the register map, each pair of offsets the two halves of a register. -/
theorem registerMapReadsItsRegisters : Obligations.RegisterMapReadsItsRegisters := by
  intro s
  refine ⟨⟨?_, ?_, ?_, ?_, ?_, ?_⟩, ⟨?_, ?_, ?_, ?_, ?_, ?_, ?_, ?_, ?_, ?_⟩, ⟨?_, ?_, ?_, ?_, ?_, ?_, ?_, ?_, ?_⟩,
    ⟨?_, ?_, ?_, ?_, ?_, ?_, ?_, ?_⟩⟩
  exacts [s.memRead_of_lookup (b := .id) rfl, s.memRead_of_lookup (b := .version) rfl,
    s.memRead_of_lookup (b := .lmax) rfl, s.memRead_of_lookup (b := .fifoDepth) rfl,
    s.memRead_of_lookup (b := .cmd) rfl, s.memRead_of_lookup (b := .fifoLevel) rfl,
    s.memRead_of_lookup (b := .status) rfl, s.memRead_of_lookup (b := .errCode) rfl,
    s.memRead_of_lookup (b := .decim) rfl, s.memRead_of_lookup (b := .targetRate) rfl,
    s.memRead_of_lookup (b := .filterLen) rfl, s.memRead_of_lookup (b := .resampleFactor) rfl,
    s.memRead_of_lookup (b := .inI) rfl, s.memRead_of_lookup (b := .inQ) rfl,
    s.memRead_of_lookup (b := .audioLast) rfl, s.memRead_of_lookup (b := .decimActive) rfl,
    State.memRead_halves (r := .cutoff) rfl rfl, State.memRead_halves (r := .twidth) rfl rfl,
    State.memRead_halves (r := .ripple) rfl rfl, State.memRead_halves (r := .gain) rfl rfl,
    State.memRead_halves (r := .fs) rfl rfl, State.memRead_halves (r := .beta) rfl rfl,
    State.memRead_halves (r := .dinI) rfl rfl, State.memRead_halves (r := .dinQ) rfl rfl,
    State.memRead_halves (r := .scalarIn) rfl rfl, State.memRead_halves (r := .firOutI) rfl rfl,
    State.memRead_halves (r := .firOutQ) rfl rfl, State.memRead_halves (r := .angle) rfl rfl,
    State.memRead_halves (r := .nIn) rfl rfl, State.memRead_halves (r := .nFirOut) rfl rfl,
    State.memRead_halves (r := .nDemod) rfl rfl, State.memRead_halves (r := .nRsIn) rfl rfl,
    State.memRead_halves (r := .nAudio) rfl rfl]

/-- Settles O15: each offset of the list is the low half of an RW register. -/
theorem halvesCanBeWrittenInEitherOrder : Obligations.HalvesCanBeWrittenInEitherOrder := by
  intro s lo hi hidle off hoff
  fin_cases hoff
  exacts [State.memWrite_halves (r := .cutoff) rfl rfl rfl hidle lo hi,
    State.memWrite_halves (r := .twidth) rfl rfl rfl hidle lo hi,
    State.memWrite_halves (r := .ripple) rfl rfl rfl hidle lo hi,
    State.memWrite_halves (r := .gain) rfl rfl rfl hidle lo hi,
    State.memWrite_halves (r := .fs) rfl rfl rfl hidle lo hi,
    State.memWrite_halves (r := .dinI) rfl rfl rfl hidle lo hi,
    State.memWrite_halves (r := .dinQ) rfl rfl rfl hidle lo hi,
    State.memWrite_halves (r := .scalarIn) rfl rfl rfl hidle lo hi]

end Sys2Proof.Machine
end

section
/-! SUPPORT. The stream commands as maps of the whole state: the lanes of the filter, inputs of zero, PUSH_IQ as a
chain, and what a command reads of the ring (R63, R120, R121, R142); and the obligations about them. -/

namespace Sys2Proof.Machine

/-! ### The lanes of the filter (R120) -/

/-- One lane of the ring in time order reads that lane of the ring alone. -/
theorem map_timeOrder (part : F32 × F32 → F32) (ring : List (F32 × F32)) (newest len : Nat) :
    (timeOrder ring newest len).map part = (List.range len).map fun j =>
      (ring.map part).getD ((newest + (len - j)) % len) (part (0#32, 0#32)) := by
  rw [timeOrder, List.map_map]
  exact List.map_congr_left fun j _ => (List.getD_map _ _ _).symm

/-- The output of one lane of the filter unit on a machine where the sample emits, else the one before. -/
theorem State.firUnit_outputs (s : State) (x y : F32) :
    (s.firUnit x y).results.firOutI =
      (if s.firEmits then settleNaN s.draws (laneSum s.taps
        ((timeOrder (s.ring.set s.wr (x, y)) s.wr s.latched.filterLen.toNat).map (·.1)))
      else s.results.firOutI) ∧
    (s.firUnit x y).results.firOutQ =
      (if s.firEmits then settleNaN (s.draws + 1) (laneSum s.taps
        ((timeOrder (s.ring.set s.wr (x, y)) s.wr s.latched.filterLen.toNat).map (·.2)))
      else s.results.firOutQ) := by
  rcases s.firUnit_cases x y with ⟨hemits, heq⟩ | ⟨hemits, heq⟩ <;> rw [heq, hemits] <;> exact ⟨rfl, rfl⟩

/-- Settles O43: one lane's output is a function of that lane's ring and input and of what the machines share. -/
theorem filterLanesAreIndependent : Obligations.FilterLanesAreIndependent := by
  intro s u t v hs hu hcoef hlatched hwr hcounters hdraws hresults ht hv
  rw [exec_firStep_of_filterReady hs] at ht
  rw [exec_firStep_of_filterReady hu] at hv
  cases ht
  cases hv
  have hemits : u.firEmits = s.firEmits := by rw [State.firEmits, State.firEmits, hlatched, hcounters]
  have htaps : u.taps = s.taps := by rw [State.taps, State.taps, hcoef, hlatched]
  obtain ⟨hsI, hsQ⟩ := s.firUnit_outputs s.operands.inI s.operands.inQ
  obtain ⟨huI, huQ⟩ := u.firUnit_outputs u.operands.inI u.operands.inQ
  refine ⟨fun hring hin => ?_, fun hring hin => ?_⟩
  · rw [State.complete_results, State.complete_results, hsI, huI]
    simp only [map_timeOrder, List.map_set, hring, hin, hemits, htaps, hlatched, hwr, hdraws, hresults]
  · rw [State.complete_results, State.complete_results, hsQ, huQ]
    simp only [map_timeOrder, List.map_set, hring, hin, hemits, htaps, hlatched, hwr, hdraws, hresults]

/-! ### Inputs of zero (R121) -/

/-- A finite tap times a zero of either sign adds nothing to +0.0. -/
theorem add_mul_widen32_zero {h : F64} (hh : Fp.isFinite h = true) {x : F32} (hx : x = 0#32 ∨ x = 0x80000000#32) :
    Fp.add 0#64 (Fp.mul h (Fp.widen32 x)) = 0#64 := by
  have hwide : Fp.mag (Fp.widen32 x) = 0 := by obtain rfl | rfl := hx <;> decide
  have hzero : Fp.mag (Fp.mul h (Fp.widen32 x)) = 0 :=
    (Fp.mul_code hh (Fp.isFinite_of_mag_zero hwide)).eq_zero_of_zero (by rw [hwide, Fp.magVal_zero, mul_zero])
  have hfin := Fp.isFinite_of_mag_zero hzero
  refine ((Fp.add_spec Fp.isFinite_posZero hfin).1 ?_).trans (by rw [show Fp.sign 0#64 = false by decide]; rfl)
  rw [Fp.toRat_posZero, (Fp.toRat_eq_zero_iff hfin).2 hzero, add_zero]

theorem laneSum_of_zeros {taps : List F64} {xs : List F32} (htaps : ∀ h ∈ taps, Fp.isFinite h = true)
    (hxs : ∀ x ∈ xs, x = 0#32 ∨ x = 0x80000000#32) : laneSum taps xs = 0#64 := by
  unfold laneSum
  induction taps generalizing xs with
  | nil => rfl
  | cons h taps ih =>
    cases xs with
    | nil => rfl
    | cons x xs =>
      rw [List.zip_cons_cons, List.foldl_cons,
        add_mul_widen32_zero (htaps h List.mem_cons_self) (hxs x List.mem_cons_self)]
      exact ih (fun h' hm => htaps h' (List.mem_cons_of_mem _ hm)) fun x' hm => hxs x' (List.mem_cons_of_mem _ hm)

/-- The dot product reads the slots below the length alone (R116). -/
theorem mem_timeOrder {ring : List (F32 × F32)} {newest len : Nat} (hlen : len ≤ ring.length) {x : F32 × F32}
    (hx : x ∈ timeOrder ring newest len) : ∃ j, j < len ∧ ring[j]? = some x := by
  obtain ⟨j, hj, rfl⟩ := List.mem_map.1 hx
  have hlt : (newest + (len - j)) % len < len := Nat.mod_lt _ (Nat.zero_lt_of_lt (List.mem_range.1 hj))
  refine ⟨_, hlt, ?_⟩
  rw [List.getD_eq_getElem _ _ (by omega), List.getElem?_eq_getElem (by omega)]

/-- Settles O44: every sample the dot product reads is a zero, the new one among them. -/
theorem zeroInputGivesZeroOutput : Obligations.ZeroInputGivesZeroOutput := by
  intro s hready hemits zero hin hring
  obtain ⟨-, hok, -, hlen⟩ := id hready
  have hread : ∀ x ∈ timeOrder (s.ring.set s.wr (s.operands.inI, s.operands.inQ)) s.wr s.latched.filterLen.toNat,
      zero x := by
    intro x hx
    obtain ⟨j, hj, hjx⟩ := mem_timeOrder (by rw [List.length_set, hlen]; exact hok.lenLe) hx
    rw [List.getElem?_set] at hjx
    split_ifs at hjx with hwr hlt
    · cases hjx; exact hin
    · exact hring j x hj (Ne.symm hwr) hjx
  refine ⟨_, exec_firStep_of_filterReady hready, ?_, ?_⟩
  · rw [State.complete_results, (s.firUnit_outputs _ _).1, if_pos (s.firEmits_iff.2 hemits),
      laneSum_of_zeros hok.tapsFinite]
    · exact settleNaN_of_not_nan (by decide)
    · exact List.forall_mem_map.2 fun x hx => (hread x hx).1
  · rw [State.complete_results, (s.firUnit_outputs _ _).2, if_pos (s.firEmits_iff.2 hemits),
      laneSum_of_zeros hok.tapsFinite]
    · exact settleNaN_of_not_nan (by decide)
    · exact List.forall_mem_map.2 fun x hx => (hread x hx).2

end Sys2Proof.Machine
end

section
/-! SUPPORT. PUSH_IQ as the chain of the units, and what a command reads of the ring (R63, R142); and the obligations
about them. -/

namespace Sys2Proof.Machine

/-! ### PUSH_IQ (R141, R142) -/

/-- The resampler unit looks neither at the operands nor at BUSY. -/
theorem State.resampleUnit_of_operands (s : State) (o : OperandRegs) (a : F64) :
    (s.resampleUnit a).complete =
      { (State.resampleUnit { s.complete with operands := o } a).complete with operands := s.operands } := by
  rcases s.resampleUnit_cases a with ⟨hemits, heq⟩ | ⟨hquiet, heq⟩
  · rw [heq, show State.resampleUnit { s.complete with operands := o } a = _ from if_pos hemits]
    rfl
  · rw [heq, show State.resampleUnit { s.complete with operands := o } a = _ from if_neg (Bool.eq_false_iff.1 hquiet)]
    rfl

/-- Settles O50: the resampler's command is not held because PUSH_IQ is not. -/
theorem pushIqIsTheChainOfTheUnits : Obligations.PushIqIsTheChainOfTheUnits := by
  intro s h hd hfree
  have hready := h.filterReady hd
  have hframe := s.firUnit_frame s.operands.inI s.operands.inQ
  rw [exec_pushIq_of_not_held hready hfree]
  refine ⟨_, exec_firStep_of_filterReady hready, fun hquiet => ?_, fun hemits => ⟨_, _, rfl,
    exec_resampleStep_of_not_held ?_ ?_ ?_, ?_⟩⟩
  · obtain ⟨hfir, -⟩ | ⟨-, heq⟩ := s.pushUnits_cases s.operands.inI s.operands.inQ
    · exact absurd (s.firEmits_iff.1 hfir) hquiet
    · rw [heq]; rfl
  · simpa [hframe] using hd
  · simpa [hframe] using (h.designed hd).factorPos
  · rintro ⟨hfull, -, hdue⟩
    obtain ⟨hreach, hdecim⟩ := hemits
    exact hfree ⟨by simpa [hframe] using hfull, hd, .inr ⟨rfl, hreach, hdecim, by simpa [hframe] using hdue⟩⟩
  · obtain ⟨-, heq⟩ | ⟨hfir, -⟩ := s.pushUnits_cases s.operands.inI s.operands.inQ
    · obtain ⟨⟨-, -, hoperands, -⟩, -⟩ := hframe
      rw [heq, State.resampleUnit_of_operands, State.demodUnit_operands,
        show State.operands _ = s.operands from hoperands]
      rfl
    · exact absurd ((s.firEmits_iff.2 hemits).symm.trans hfir) (by decide)

/-! ### What a command reads of the ring (R63) -/

/-- The state with another ring. -/
def State.withRing (s : State) (ring : List (F32 × F32)) : State := { s with ring := ring }

/-- A slot the dot product reads after a sample is stored: the new sample's own, or one written since START. -/
theorem timeOrder_congr {ring other : List (F32 × F32)} {len : Nat} (newest : Nat)
    (h : ∀ j, j < len → other[j]? = ring[j]?) : timeOrder other newest len = timeOrder ring newest len := by
  refine List.map_congr_left fun j hj => ?_
  have hlt : (newest + (len - j)) % len < len := Nat.mod_lt _ (Nat.zero_lt_of_lt (List.mem_range.1 hj))
  rw [List.getD_eq_getElem?_getD, List.getD_eq_getElem?_getD, h _ hlt]

/-! Each stream command on a designed machine without a fault, as one equation. -/

theorem exec_firStep_eq {s : State} (hd : s.status.designed = true) (hf : s.filterFault = none) :
    exec .firStep s = .next (s.firUnit s.operands.inI s.operands.inQ).complete := by
  rw [exec, execFirStep, hd, if_neg (by decide), hf]

theorem exec_design_eq {s : State} {r : Except ErrCode DesignResult} (h : designOf s.params.lMax s.cfg = r) :
    exec .design s = .next (s.finishDesign r) := by
  rw [exec, execDesign, h]

theorem exec_resampleStep_eq {s : State} (hd : s.status.designed = true) (hr : s.resamplerFault = none) :
    exec .resampleStep s = .next (if s.resampleHeld then s else (s.resampleUnit s.operands.scalarIn).complete) := by
  rw [exec, execResampleStep, hd, if_neg (by decide), hr]

theorem exec_pushIq_eq {s : State} (hd : s.status.designed = true) (hf : s.filterFault = none)
    (hr : s.resamplerFault = none) : exec .pushIq s =
      .next (if s.pushHeld then s else (s.pushUnits s.operands.inI s.operands.inQ).complete) := by
  rw [exec, execPushIq, hd, if_neg (by decide), hf, hr]

section
variable {s t : State} (hd : s.status.designed = true)
include hd

theorem filterFault_of_firStep (h : exec .firStep s = .next t) : s.filterFault = none := by
  rw [exec, execFirStep, hd, if_neg (by decide)] at h
  cases hf : s.filterFault with
  | none => rfl
  | some f => rw [hf] at h; cases h

theorem resamplerFault_of_resampleStep (h : exec .resampleStep s = .next t) : s.resamplerFault = none := by
  rw [exec, execResampleStep, hd, if_neg (by decide)] at h
  cases hr : s.resamplerFault with
  | none => rfl
  | some f => rw [hr] at h; cases h

theorem faults_of_pushIq (h : exec .pushIq s = .next t) : s.filterFault = none ∧ s.resamplerFault = none := by
  rw [exec, execPushIq, hd, if_neg (by decide)] at h
  cases hf : s.filterFault with
  | some f => rw [hf] at h; cases h
  | none =>
    cases hr : s.resamplerFault with
    | some f => rw [hf, hr] at h; cases h
    | none => exact ⟨rfl, rfl⟩

end

section
variable {s : State} {ring : List (F32 × F32)} (hlen : ring.length = s.ring.length)
include hlen

theorem State.withRing_filterFault (h : s.filterFault = none) : (s.withRing ring).filterFault = none := by
  rw [State.filterFault_eq_none_iff] at h ⊢
  exact ⟨h.1, hlen.trans h.2.1, h.2.2⟩

variable (hcursor : s.counters.nIn.toNat < s.latched.filterLen.toNat → s.wr = s.counters.nIn.toNat)
  (hagree : ∀ j, j < s.counters.nIn.toNat → j < s.latched.filterLen.toNat → ring[j]? = s.ring[j]?)
include hcursor hagree

/-- With the new sample in its slot the rings agree on one slot more, which while the ring fills is the sample's. -/
theorem set_agrees (z : F32 × F32) (j : Nat) (hj : j < s.counters.nIn.toNat + 1)
    (hjlen : j < s.latched.filterLen.toNat) :
    (ring.set s.wr z)[j]? = (s.ring.set s.wr z)[j]? := by
  rw [List.getElem?_set, List.getElem?_set, hlen]
  split_ifs with hwr
  · rfl
  · rfl
  · rcases Nat.lt_succ_iff_lt_or_eq.1 hj with hlt | rfl
    · exact hagree j hlt hjlen
    · exact absurd (hcursor hjlen) hwr

/-- The filter reads no slot that only one of the rings has: it reads all of them once all are written (R116). -/
theorem State.firUnit_withRing (x y : F32) :
    (s.withRing ring).firUnit x y = (s.firUnit x y).withRing (ring.set s.wr (x, y)) := by
  rcases s.firUnit_cases x y with ⟨hemits, heq⟩ | ⟨hquiet, heq⟩
  · have hreach : s.latched.filterLen.toNat ≤ s.counters.nIn.toNat + 1 := by
      have := ((s.firEmits_iff).1 hemits).1
      omega
    have hwindow := timeOrder_congr s.wr (len := s.latched.filterLen.toNat) fun j hj =>
      set_agrees hlen hcursor hagree (x, y) j (by omega) hj
    rw [heq, show (s.withRing ring).firUnit x y = _ from if_pos hemits]
    have hw : ((s.withRing ring).storeSample x y).window s.wr = (s.storeSample x y).window s.wr := hwindow
    simp only [show (s.withRing ring).wr = s.wr from rfl, hw]
    rfl
  · rw [heq, show (s.withRing ring).firUnit x y = _ from if_neg (Bool.eq_false_iff.1 hquiet)]
    rfl

end

theorem State.resampleUnit_withRing (s : State) (ring : List (F32 × F32)) (a : F64) :
    (s.withRing ring).resampleUnit a = (s.resampleUnit a).withRing ring := by
  rcases s.resampleUnit_cases a with ⟨hemits, heq⟩ | ⟨hquiet, heq⟩
  · rw [heq, show (s.withRing ring).resampleUnit a = _ from if_pos hemits]
    rfl
  · rw [heq, show (s.withRing ring).resampleUnit a = _ from if_neg (Bool.eq_false_iff.1 hquiet)]
    rfl

/-- The chain of the units reads the ring only in the filter. -/
theorem State.pushUnits_withRing {s : State} {ring other : List (F32 × F32)} {x y : F32}
    (h : (s.withRing ring).firUnit x y = (s.firUnit x y).withRing other) :
    (s.withRing ring).pushUnits x y = (s.pushUnits x y).withRing other := by
  rcases s.pushUnits_cases x y with ⟨hemits, heq⟩ | ⟨hquiet, heq⟩
  · rw [heq, ← State.resampleUnit_withRing, show (s.withRing ring).pushUnits x y = _ from if_pos hemits, h]
    rfl
  · rw [heq, show (s.withRing ring).pushUnits x y = _ from if_neg (Bool.eq_false_iff.1 hquiet), h]
    rfl

theorem State.SameButUnwritten.refl (t : State) : t.SameButUnwritten t := ⟨rfl, rfl, fun _ _ _ => rfl⟩

/-- The same change on both states, when it leaves the ring, the samples consumed and the length. -/
theorem State.SameButUnwritten.of_kept {s t : State} {ring : List (F32 × F32)}
    (h : s.SameButUnwritten (s.withRing ring)) (hring : t.ring = s.ring) (hin : t.counters.nIn = s.counters.nIn)
    (hlatched : t.latched = s.latched) :
    t.SameButUnwritten (t.withRing ring) := by
  obtain ⟨-, hlen, hagree⟩ := h
  exact ⟨rfl, hring ▸ hlen, hring ▸ hin ▸ hlatched ▸ hagree⟩

/-- A sample stored on both states. -/
theorem State.SameButUnwritten.of_stored {s t : State} {ring : List (F32 × F32)} {z : F32 × F32}
    (h : s.SameButUnwritten (s.withRing ring))
    (hcursor : s.counters.nIn.toNat < s.latched.filterLen.toNat → s.wr = s.counters.nIn.toNat)
    (hwrap : s.counters.nIn.toNat + 1 < 2 ^ 64) (hring : t.ring = s.ring.set s.wr z)
    (hin : t.counters.nIn = s.counters.nIn + 1) (hlatched : t.latched = s.latched) :
    t.SameButUnwritten (t.withRing (ring.set s.wr z)) := by
  obtain ⟨-, hlen, hagree⟩ := h
  refine ⟨rfl, ?_, fun j hj hjlen => ?_⟩
  · rw [hring, List.length_set]
    exact List.length_set.trans hlen
  · rw [hin, toNat_add_one hwrap] at hj
    rw [hring]
    exact set_agrees hlen hcursor hagree z j hj (hlatched ▸ hjlen)

/-- A stream command without a design raises on both states. -/
theorem exec_withRing_of_not_designed {i : Instr} {s t : State} {ring : List (F32 × F32)}
    (hi : i = .firStep ∨ i = .resampleStep ∨ i = .pushIq) (hd : s.status.designed = false)
    (hsame : s.SameButUnwritten (s.withRing ring)) (h : exec i s = .next t) :
    ∃ v, exec i (s.withRing ring) = .next v ∧ t.SameButUnwritten v := by
  rw [exec_of_not_designed hi hd] at h
  cases h
  exact ⟨_, exec_of_not_designed hi hd, hsame.of_kept rfl rfl rfl⟩

/-- R63: a command has the same effect on two states that differ in unwritten ring entries alone. -/
theorem exec_withRing {i : Instr} {s t : State} {ring : List (F32 × F32)} (hcursor : s.CursorFollows)
    (hwrap : s.counters.nIn.toNat + 1 < 2 ^ 64) (hsame : s.SameButUnwritten (s.withRing ring))
    (h : exec i s = .next t) : ∃ v, exec i (s.withRing ring) = .next v ∧ t.SameButUnwritten v := by
  obtain ⟨-, hlen, hagree⟩ := id hsame
  cases i with
  | nop => cases h; exact ⟨_, rfl, hsame.of_kept rfl rfl rfl⟩
  | start => cases h; exact ⟨_, rfl, .refl _⟩
  | demodStep => cases h; exact ⟨_, rfl, hsame.of_kept rfl rfl rfl⟩
  | design =>
    cases hdesign : designOf s.params.lMax s.cfg with
    | ok d =>
      rw [exec_design_eq hdesign] at h
      cases h
      exact ⟨_, exec_design_eq (s := s.withRing ring) hdesign, .refl _⟩
    | error c =>
      rw [exec_design_eq hdesign] at h
      cases h
      exact ⟨_, exec_design_eq (s := s.withRing ring) hdesign, rfl, hlen, fun j _ hj => absurd hj (Nat.not_lt_zero j)⟩
  | firStep =>
    cases hd : s.status.designed with
    | false => exact exec_withRing_of_not_designed (by decide) hd hsame h
    | true =>
      have hf := filterFault_of_firStep hd h
      have hframe := s.firUnit_frame s.operands.inI s.operands.inQ
      rw [exec_firStep_eq hd hf] at h
      cases h
      refine ⟨_, exec_firStep_eq (s := s.withRing ring) hd (State.withRing_filterFault hlen hf), ?_⟩
      rw [show (s.withRing ring).operands = s.operands from rfl,
        State.firUnit_withRing (ring := ring) hlen (hcursor hd) hagree]
      exact hsame.of_stored (hcursor hd) hwrap (by simp [hframe]) (by simp [hframe]) (by simp [hframe])
  | resampleStep =>
    cases hd : s.status.designed with
    | false => exact exec_withRing_of_not_designed (by decide) hd hsame h
    | true =>
      have hr := resamplerFault_of_resampleStep hd h
      have hframe := s.resampleUnit_frame s.operands.scalarIn
      rw [exec_resampleStep_eq hd hr] at h
      cases h
      refine ⟨_, exec_resampleStep_eq (s := s.withRing ring) hd hr, ?_⟩
      rw [show (s.withRing ring).operands = s.operands from rfl,
        show (s.withRing ring).resampleHeld = s.resampleHeld from rfl, State.resampleUnit_withRing]
      split
      · exact hsame
      · exact hsame.of_kept (by simp [hframe]) (by simp [hframe]) (by simp [hframe])
  | pushIq =>
    cases hd : s.status.designed with
    | false => exact exec_withRing_of_not_designed (by decide) hd hsame h
    | true =>
      obtain ⟨hf, hr⟩ := faults_of_pushIq hd h
      have hframe := s.pushUnits_frame s.operands.inI s.operands.inQ
      rw [exec_pushIq_eq hd hf hr] at h
      cases h
      refine ⟨_, exec_pushIq_eq (s := s.withRing ring) hd (State.withRing_filterFault hlen hf) hr, ?_⟩
      rw [show (s.withRing ring).operands = s.operands from rfl,
        show (s.withRing ring).pushHeld = s.pushHeld from rfl,
        State.pushUnits_withRing (State.firUnit_withRing (ring := ring) hlen (hcursor hd) hagree _ _)]
      split
      · exact hsame
      · exact hsame.of_stored (hcursor hd) hwrap (by simp [hframe]) (by simp [hframe]) (by simp [hframe])

/-- WR follows the sample count: a stored sample moves both (R116), a fresh stream clears both (R140). -/
theorem exec_keeps_cursor {i : Instr} {s t : State} (hcursor : s.CursorFollows)
    (hwrap : s.counters.nIn.toNat + 1 < 2 ^ 64) (h : exec i s = .next t) : t.CursorFollows := by
  have hstored {u : State} (hd : s.status.designed = true) (hin : u.counters.nIn = s.counters.nIn + 1)
      (hwr : u.wr = (s.wr + 1) % s.latched.filterLen.toNat) (hlatched : u.latched = s.latched) : u.CursorFollows := by
    intro _ hlt
    rw [hin, toNat_add_one hwrap, hlatched] at hlt
    rw [hwr, hin, toNat_add_one hwrap, hcursor hd (by omega), Nat.mod_eq_of_lt hlt]
  cases exec_effect h with
  | start | commit => exact fun _ _ => rfl
  | fail => intro hd; cases hd
  | filter hd =>
    have hframe := s.firUnit_frame s.operands.inI s.operands.inQ
    exact hstored hd (by simp [hframe]) (by simp [hframe]) (by simp [hframe])
  | push hd =>
    have hframe := s.pushUnits_frame s.operands.inI s.operands.inQ
    exact hstored hd (by simp [hframe]) (by simp [hframe]) (by simp [hframe])
  | resample =>
    have hframe := s.resampleUnit_frame s.operands.scalarIn
    simpa [State.CursorFollows, hframe] using hcursor
  | _ => exact hcursor

/-- Settles O59. -/
theorem unwrittenRingEntriesAreNeverRead : Obligations.UnwrittenRingEntriesAreNeverRead := by
  refine ⟨fun i s u t hcursor hwrap hsame h => ?_, fun s t hcursor hwrap h => ?_⟩
  · obtain ⟨ring, rfl⟩ : ∃ ring, u = s.withRing ring := ⟨u.ring, hsame.1⟩
    exact exec_withRing hcursor hwrap hsame h
  · obtain hkept | ⟨rest, -, rfl⟩ | ⟨-, -, i, -, hexec⟩ := step_stream h
    · rwa [State.CursorFollows, hkept.designed, hkept.counters, hkept.latched, hkept.store.2]
    · intro hd; cases hd
    · exact exec_keeps_cursor (s := s.turnTaken) hcursor hwrap hexec

end Sys2Proof.Machine
end

section
/-! SUPPORT. The arithmetic and the comparisons on every class of operands (R18, R19); and the obligation about them. -/

namespace Sys2Proof.Fp

/-! ### Finite operands -/

theorem sign_eq_decide {a : F64} (ha : isFinite a = true) (h0 : toRat a ≠ 0) : sign a = decide (toRat a < 0) := by
  have hpos : 0 < magVal (mag a) := by
    rw [← abs_toRat ha]
    exact abs_pos.2 h0
  rw [toRat_eq ha, signedVal]
  cases sign a <;> simp [hpos, hpos.le]

theorem decide_mul_neg {x y : ℚ} (hx : x ≠ 0) (hy : y ≠ 0) :
    decide (x * y < 0) = (decide (x < 0) != decide (y < 0)) := by
  rcases lt_or_gt_of_ne hx with hx | hx
  · rcases lt_or_gt_of_ne hy with hy | hy <;> simp [hx, hy, hx.le, hy.le, mul_neg_iff]
  · simp [hx, not_lt.2 hx.le, mul_neg_iff]

section
variable {a b : F64} (ha : isFinite a = true) (hb : isFinite b = true)
include ha hb

theorem roundsTo_add : RoundsTo (toRat a + toRat b) (add a b) := by
  obtain ⟨-, hsign, n, hn, hm⟩ := add_spec ha hb
  exact roundsTo_of_nearestCode hn hm hsign

theorem roundsTo_sub : RoundsTo (toRat a - toRat b) (sub a b) := by
  have h := roundsTo_add ha (by rwa [isFinite_neg] : isFinite (neg b) = true)
  rwa [toRat_neg hb, ← sub_eq_add_neg] at h

theorem roundsTo_mul : RoundsTo (toRat a * toRat b) (mul a b) := by
  obtain ⟨hsign, n, hn, hm⟩ := mul_spec ha hb
  refine roundsTo_of_nearestCode (by rwa [abs_mul, abs_toRat ha, abs_toRat hb]) hm fun h0 => ?_
  obtain ⟨ha0, hb0⟩ := mul_ne_zero_iff.1 h0
  rw [hsign, sign_eq_decide ha ha0, sign_eq_decide hb hb0, decide_mul_neg ha0 hb0]

theorem roundsTo_div (hb0 : toRat b ≠ 0) : RoundsTo (toRat a / toRat b) (div a b) := by
  obtain ⟨hsign, n, hn, hm⟩ := div_spec ha hb (mt (toRat_eq_zero_iff hb).2 hb0)
  refine roundsTo_of_nearestCode (by rwa [abs_div, abs_toRat ha, abs_toRat hb]) hm fun h0 => ?_
  have ha0 : toRat a ≠ 0 := (div_ne_zero_iff.1 h0).1
  have hinv : decide ((toRat b)⁻¹ < 0) = decide (toRat b < 0) := by simp only [inv_lt_zero]
  rw [hsign, sign_eq_decide ha ha0, sign_eq_decide hb hb0, div_eq_mul_inv, decide_mul_neg ha0 (inv_ne_zero hb0), hinv]

end

/-! ### NaN operands -/

theorem isNaN_nan : isNaN nan = true := by decide

section
variable {a b : F64} (h : isNaN a = true ∨ isNaN b = true)
include h

theorem add_of_nan : add a b = nan := by
  obtain h | h := h
  · simp only [add, unpack_nan h]
  · cases hu : unpack a <;> simp only [add, hu, unpack_nan h]

theorem sub_of_nan : sub a b = nan := add_of_nan (by rwa [isNaN_neg])

theorem mul_of_nan : mul a b = nan := by
  obtain h | h := h
  · simp only [mul, unpack_nan h]
  · cases hu : unpack a <;> simp only [mul, hu, unpack_nan h]

theorem div_of_nan : div a b = nan := by
  obtain h | h := h
  · simp only [div, unpack_nan h]
  · cases hu : unpack a <;> simp only [div, hu, unpack_nan h]

theorem compare_of_nan : lt a b = false ∧ le a b = false ∧ eq a b = false := by
  obtain h | h := h <;> simp [lt, le, eq, h]

end

theorem sqrt_of_nan {a : F64} (h : isNaN a = true) : sqrt a = nan := by simp only [sqrt, unpack_nan h]

/-! ### Infinities and zeros (log 15) -/

/-- A finite value as the operations take it apart, with its zero test. -/
theorem unpack_finite_zero {a : F64} (ha : isFinite a = true) :
    ∃ m e, unpack a = .fin (sign a) m e ∧ (m = 0 ↔ toRat a = 0) := by
  obtain ⟨m, e, hu, -, -, hz⟩ := unpack_finite ha
  exact ⟨m, e, hu, hz.trans (toRat_eq_zero_iff ha).symm⟩

theorem infinityRules {a : F64} (ha : isFinite a = true) (s u : Bool) : InfinityRules a s u := by
  obtain ⟨m, e, hu, hz⟩ := unpack_finite_zero ha
  obtain ⟨m', e', hu', -⟩ := unpack_finite_zero (a := neg a) (by rwa [isFinite_neg])
  have hs := unpack_infinity s
  have hmul := mul_inf_finite hs hu
  have hne : ¬ (s = !s) := by cases s <;> decide
  exact {
    addLeft := (add_inf_finite hs hu).1
    addRight := (add_inf_finite hs hu).2
    addSame := by rw [add_inf_inf hs hs, if_pos rfl]
    addOpposite := by rw [add_inf_inf hs (unpack_infinity _), if_neg hne, isNaN_nan]
    subLeft := (add_inf_finite hs hu').1
    subRight := by rw [sub, neg_inf]; exact (add_inf_finite (unpack_infinity _) hu).2
    subOpposite := by rw [sub, neg_inf, Bool.not_not, add_inf_inf hs hs, if_pos rfl]
    subSame := by rw [sub, neg_inf, add_inf_inf hs (unpack_infinity _), if_neg hne, isNaN_nan]
    mulBoth := mul_inf_inf hs (unpack_infinity u)
    mulLeft := fun h0 => by rw [hmul.1, if_neg (mt hz.1 h0)]
    mulRight := fun h0 => by rw [hmul.2, if_neg (mt hz.1 h0)]
    mulZero := fun h0 => by rw [hmul.1, hmul.2, if_pos (hz.2 h0), if_pos (hz.2 h0)]; exact ⟨isNaN_nan, isNaN_nan⟩
    divBoth := by rw [div_inf_inf hs (unpack_infinity u), isNaN_nan]
    divLeft := (div_inf_finite hs hu).1
    divRight := (div_inf_finite hs hu).2 }

theorem zeroRules {a b : F64} (ha : isFinite a = true) (hb : isFinite b = true) : ZeroRules a b := by
  obtain ⟨m, e, hu, hz⟩ := unpack_finite_zero ha
  obtain ⟨n, f, hv, hw⟩ := unpack_finite_zero hb
  have hnegb : isFinite (neg b) = true := by rwa [isFinite_neg]
  exact {
    divByZero := fun hb0 ha0 => by simp only [div, hu, hv, if_pos (hw.2 hb0), if_neg (mt hz.1 ha0)]
    zeroByZero := fun hb0 ha0 => by simp only [div, hu, hv, if_pos (hw.2 hb0), if_pos (hz.2 ha0), isNaN_nan]
    mulSign := (mul_spec ha hb).1
    divSign := fun hb0 => (div_spec ha hb (mt (toRat_eq_zero_iff hb).2 hb0)).1
    addZero := (add_spec ha hb).1
    subZero := fun h0 => by
      rw [sub, (add_spec ha hnegb).1 (by rw [toRat_neg hb]; linarith), sign_neg] }

/-! ### Infinities in the order -/

theorem key_inf (s : Bool) : key (inf s) = signed s infMag := by
  rw [key, inf, sign_pack s _ infMag_lt, mag_pack s _ infMag_lt]

/-- Among the values that are no NaN only an infinity has an infinity's key. -/
theorem key_eq_inf_iff {a : F64} (h : isNaN a = false) (s : Bool) : key a = key (inf s) ↔ a = inf s := by
  refine ⟨fun hk => ?_, fun heq => heq ▸ rfl⟩
  have hle := mag_le_infMag h
  have hpos : 0 < infMag := by decide
  rw [key_inf, key] at hk
  have hboth : sign a = s ∧ mag a = infMag := by
    cases hs : sign a <;> cases s <;> simp only [hs, signed, if_true, Bool.false_eq_true, if_false] at hk
    · exact ⟨rfl, by omega⟩
    · omega
    · omega
    · exact ⟨rfl, by omega⟩
  rw [← pack_sign_mag a, hboth.1, hboth.2, inf]

theorem key_bounds {a : F64} (h : isNaN a = false) : key (inf true) ≤ key a ∧ key a ≤ key (inf false) := by
  have hle := mag_le_infMag h
  rw [key_inf, key_inf, key]
  cases sign a <;> simp only [signed, if_true, Bool.false_eq_true, if_false] <;> omega

theorem infinityOrder {a : F64} (h : isNaN a = false) (s : Bool) : InfinityOrder a s := by
  obtain ⟨hbot, htop⟩ := key_bounds h
  have hinf (u : Bool) : isNaN (inf u) = false := by cases u <;> decide
  have heq := key_eq_inf_iff h
  exact {
    leTop := by simpa [le, h, hinf] using htop
    leBottom := by simpa [le, h, hinf] using hbot
    ltTop := by rw [ne_eq, ← heq]; simpa [lt, h, hinf] using (htop.lt_iff_ne)
    ltBottom := by rw [ne_eq, ← heq]; simpa [lt, h, hinf, eq_comm] using (hbot.lt_iff_ne)
    eqInf := by simp only [eq, h, hinf, Bool.not_false, Bool.true_and, decide_eq_true_eq, heq] }

/-- Settles O4, clause by clause. -/
theorem arithmeticAndComparisonsFollowTheirRules : Obligations.ArithmeticAndComparisonsFollowTheirRules := by
  intro a b
  refine ⟨fun ha hb => ⟨roundsTo_add ha hb, roundsTo_sub ha hb, roundsTo_mul ha hb, roundsTo_div ha hb⟩,
    fun h => ?_, fun h => ?_, fun ha hb => ⟨lt_iff ha hb, le_iff ha hb, eq_iff ha hb⟩, compare_of_nan,
    infinityRules, zeroRules, infinityOrder⟩
  · rw [add_of_nan h, sub_of_nan h, mul_of_nan h, div_of_nan h]
    exact ⟨isNaN_nan, isNaN_nan, isNaN_nan, isNaN_nan⟩
  · rw [sqrt_of_nan h, isNaN_nan]

end Sys2Proof.Fp
end

section
/-! SUPPORT. The square root, the conversions and the parameter functions (R20, R21); and the obligations about
them. -/

namespace Sys2Proof.Fp

/-! ### The square root -/

theorem sqrt_of_zero {a : F64} (ha : isFinite a = true) (h0 : toRat a = 0) : sqrt a = a := by
  obtain ⟨m, e, hu, -, -, hz⟩ := unpack_finite ha
  simp only [sqrt, hu, if_pos (hz.2 ((toRat_eq_zero_iff ha).1 h0))]

/-- Below zero, an infinity among them, there is no root. -/
theorem isNaN_sqrt_of_neg {a : F64} (h : lt a 0#64 = true) : isNaN (sqrt a) = true := by
  have hkey : key a < 0 := by
    simp only [lt, Bool.and_eq_true, decide_eq_true_eq] at h
    exact h.2.trans_eq (by decide)
  have hs : sign a = true ∧ mag a ≠ 0 := by
    unfold key at hkey
    cases hs : sign a <;> simp only [hs, signed, if_true, Bool.false_eq_true, if_false] at hkey
    · omega
    · exact ⟨rfl, by omega⟩
  rcases class_cases a with ⟨hf, -⟩ | ⟨-, hi, -⟩ | ⟨-, -, hn⟩
  · obtain ⟨m, e, hu, -, -, hz⟩ := unpack_finite hf
    simp only [sqrt, hu, hs.1, if_neg (mt hz.1 hs.2), if_true]
    decide
  · simp only [sqrt, unpack_inf hi, hs.1]
    decide
  · simp only [sqrt, unpack_nan hn]
    decide

/-- The root of a positive value is not 0: the least code is nearer. -/
theorem sqrt_pos {a : F64} (ha : isFinite a = true) (hs : sign a = false) (h0 : mag a ≠ 0) :
    0 < magVal (mag (sqrt a)) := by
  obtain ⟨-, -, hnear⟩ := sqrt_spec ha hs h0
  by_contra hzero
  have hr : mag (sqrt a) = 0 := magVal_eq_zero.1 (le_antisymm (not_lt.1 hzero) (magVal_nonneg _))
  have hle := (hnear 1).1 (by rw [hr]; exact one_pos)
  have hleast : magVal 1 ≤ magVal (mag a) := magVal_strictMono.monotone (Nat.one_le_iff_ne_zero.2 h0)
  have hpos : 0 < magVal 1 := magVal_zero ▸ magVal_lt_succ 0
  have hone : magVal 1 ≤ 1 := magVal_mag_one ▸ magVal_strictMono.monotone (by decide : 1 ≤ mag one)
  rw [hr, magVal_zero] at hle
  nlinarith

/-- Settles O5: `sqrt_spec` is about magnitudes, and all values here are their magnitudes. -/
theorem squareRootIsCorrectlyRounded : Obligations.SquareRootIsCorrectlyRounded := by
  refine ⟨fun a => ⟨sqrt_of_zero, isNaN_sqrt_of_neg⟩, by decide, fun a c ha hpos hc hc0 => ?_⟩
  have hs := sign_of_toRat_pos ha hpos
  have h0 : mag a ≠ 0 := mt (toRat_eq_zero_iff ha).2 hpos.ne'
  obtain ⟨hrs, hrf, hnear⟩ := sqrt_spec ha hs h0
  have hcmag : toRat c = magVal (mag c) := by rw [← abs_toRat hc, abs_of_nonneg hc0]
  rw [toRat_of_sign_false ha hs, toRat_of_sign_false hrf hrs, hcmag, magVal_lt_iff, magVal_lt_iff]
  exact ⟨hrf, sqrt_pos ha hs h0, hnear (mag c)⟩

/-! ### The conversions -/

/-- `floor` of R20. -/
theorem floor_eq_floor_toRat {a : F64} (ha : isFinite a = true) : floor a = ⌊toRat a⌋ := by
  obtain ⟨m, e, hu, -⟩ := unpack_finite ha
  simp only [floor, hu]
  split
  next he => rw [toRat_of_unpack_of_nonneg hu he, Int.floor_intCast]
  next he => rw [toRat_of_unpack_of_neg hu he, Rat.floor_intCast_div_natCast]

/-- `trunc` of R20: rounded toward zero. -/
theorem trunc_eq_toRat {a : F64} (ha : isFinite a = true) :
    trunc a = if toRat a < 0 then ⌈toRat a⌉ else ⌊toRat a⌋ := by
  obtain ⟨m, e, hu, -⟩ := unpack_finite ha
  simp only [trunc, hu]
  split
  next he => rw [toRat_of_unpack_of_nonneg hu he, Int.floor_intCast, Int.ceil_intCast, ite_self]
  next he =>
    rw [toRat_of_unpack_of_neg hu he, Rat.floor_intCast_div_natCast, Rat.ceil_intCast_div_natCast]
    have hd : (0 : ℚ) < ((2 ^ (-e).toNat : Nat) : ℚ) := by positivity
    cases sign a
    · rw [if_neg (by simp [signed]; positivity)]
      simp [signed]
    · rcases Nat.eq_zero_or_pos m with rfl | hm
      · simp [signed]
      · have hneg : ((signed true m : Int) : ℚ) / ((2 ^ (-e).toNat : Nat) : ℚ) < 0 :=
          div_neg_of_neg_of_pos (by simpa [signed] using hm) hd
        rw [if_pos hneg]
        simp [signed]

/-- A number of at most 53 bits whose last place is no finer than the subnormals' has a code. -/
theorem exists_code {m : Nat} (hm : m < 2 ^ 53) (k : Nat) :
    ∃ c, c < (k + 2) * 2 ^ 52 ∧ (m : ℚ) * 2 ^ ((k : Int) - 1074) = magVal c := by
  induction k generalizing m with
  | zero =>
    have hval := magVal_code 0 m hm.le (.inl rfl)
    rw [Nat.zero_mul, Nat.zero_add] at hval
    exact ⟨m, hm.trans_eq (by norm_num), hval.symm⟩
  | succ k ih =>
    rcases Nat.lt_or_ge m (2 ^ 52) with hlt | hge
    · obtain ⟨c, hc, hval⟩ := ih (m := 2 * m) (by omega)
      refine ⟨c, hc.trans_le (Nat.mul_le_mul_right _ (by omega)), ?_⟩
      rw [← hval, show ((k + 1 : Nat) : Int) - 1074 = ((k : Int) - 1074) + 1 by push_cast; ring,
        zpow_add₀ (by norm_num : (2 : ℚ) ≠ 0)]
      push_cast
      ring
    · exact ⟨(k + 1) * 2 ^ 52 + m, by omega, (magVal_code (k + 1) m hm.le (.inr hge)).symm⟩

/-- A number that has a code is rounded to itself. -/
theorem round_exact {m : Nat} {e : Int} (hm : m < 2 ^ 53) (he : -1074 ≤ e) (he' : e ≤ 970) (s : Bool) :
    isFinite (round s m e) = true ∧ toRat (round s m e) = (signed s m : ℚ) * 2 ^ e := by
  obtain ⟨k, hk⟩ : ∃ k : Nat, e = (k : Int) - 1074 := ⟨(e + 1074).toNat, by omega⟩
  obtain ⟨c, hc, hval⟩ := exists_code hm k
  have hlt : c < infMag := by
    have := infMag_eq
    omega
  have hmag : roundMag m e = c := roundMag_exact hlt.le (hk ▸ hval)
  have hfin : isFinite (round s m e) = true := isFinite_iff.2 (by rwa [mag_round, hmag])
  refine ⟨hfin, ?_⟩
  rw [toRat_eq hfin, sign_round, mag_round, hmag, signedVal, ← hval, ← hk, signed_mul]

/-- `f64` of a number below 2^53 is exact (R20). -/
theorem ofNat_exact {n : Nat} (h : n < 2 ^ 53) : isFinite (ofNat n) = true ∧ toRat (ofNat n) = n := by
  have hround := round_exact (e := 0) h (by norm_num) (by norm_num) false
  simpa [ofNat, signed] using hround

/-- What a finite binary32 value unpacks to (R73). -/
theorem unpack32_fin {x : F32} {s : Bool} {m : Nat} {e : Int} (h : unpack32 x = .fin s m e) :
    m < 2 ^ 24 ∧ -149 ≤ e ∧ e ≤ 104 := by
  unfold unpack32 at h
  dsimp only at h
  split_ifs at h with h1 h2 h3
  · cases h
    omega
  · cases h
    omega

/-- Settles O6. -/
theorem conversionsAreExact : Obligations.ConversionsAreExact := by
  refine ⟨fun x => ⟨fun s m e h => ?_, fun h => ?_, fun s h => ?_⟩, by decide, fun n hn => ofNat_exact hn,
    fun a ha => ⟨ceil_eq_ceil_toRat ha, floor_eq_floor_toRat ha, trunc_eq_toRat ha⟩⟩
  · obtain ⟨hm, hlow, hhigh⟩ := unpack32_fin h
    simp only [widen32, toRat32, h]
    exact round_exact (by omega) (by omega) (by omega) s
  · simp only [widen32, h]
    decide
  · simp only [widen32, h]

end Sys2Proof.Fp

namespace Sys2Proof

/-! ### The parameter functions (R21) -/

theorem Fp.key_neg (a : F64) : Fp.key (Fp.neg a) = -Fp.key a := by
  rw [Fp.key, Fp.key, Fp.sign_neg, Fp.mag_neg]
  cases Fp.sign a <;> simp [Fp.signed]

theorem inUnit_iff {v : F64} :
    inUnit v = true ↔ Fp.isNaN v = false ∧ -Fp.key Fp.one ≤ Fp.key v ∧ Fp.key v ≤ Fp.key Fp.one := by
  have hone : Fp.isNaN Fp.one = false := by decide
  have hminus : Fp.isNaN Fp.minusOne = false := by decide
  have hkey : Fp.key Fp.minusOne = -Fp.key Fp.one := by decide
  simp only [inUnit, Fp.le, hone, hminus, hkey, Bool.and_eq_true, Bool.not_eq_true', decide_eq_true_eq,
    Bool.not_false, true_and, and_true]
  exact ⟨fun ⟨⟨hnan, hlow⟩, _, hhigh⟩ => ⟨hnan, hlow, hhigh⟩, fun ⟨hnan, hlow, hhigh⟩ => ⟨⟨hnan, hlow⟩, hnan, hhigh⟩⟩

theorem inUnit_neg {v : F64} (h : inUnit v = true) : inUnit (Fp.neg v) = true := by
  rw [inUnit_iff] at h ⊢
  rw [Fp.isNaN_neg, Fp.key_neg]
  exact ⟨h.1, by omega, by omega⟩

theorem inUnit_sinOfMagnitude (x : F64) : inUnit (sinOfMagnitude x) = true := by
  unfold sinOfMagnitude
  dsimp only
  split
  · assumption
  · decide

theorem SIN_of_finite {x : F64} (h : Fp.isFinite x = true) :
    SIN x = if Fp.sign x then Fp.neg (sinOfMagnitude (Fp.neg x)) else sinOfMagnitude x := by
  rw [SIN, if_pos h]

/-- R21: SIN is odd bit for bit on finite values. -/
theorem SIN_neg {x : F64} (h : Fp.isFinite x = true) : SIN (Fp.neg x) = Fp.neg (SIN x) := by
  rw [SIN_of_finite h, SIN_of_finite (by rwa [Fp.isFinite_neg]), Fp.sign_neg, Fp.neg_neg]
  cases Fp.sign x
  · rfl
  · exact (Fp.neg_neg _).symm

theorem inUnit_SIN {x : F64} (h : Fp.isFinite x = true) : inUnit (SIN x) = true := by
  rw [SIN_of_finite h]
  split
  · exact inUnit_neg (inUnit_sinOfMagnitude _)
  · exact inUnit_sinOfMagnitude _

/-- R21: POW of +0 is +0. -/
theorem POW_zero : POW 0#64 Fp.c0_4 = 0#64 := by
  rw [POW, if_pos rfl, if_pos rfl]

/-- R21: POW of a finite positive value is one. -/
theorem isFinitePositive_POW {x : F64} (h : isFinitePositive x = true) : isFinitePositive (POW x Fp.c0_4) = true := by
  have h0 : x ≠ 0#64 := fun h0 => by
    rw [h0] at h
    exact absurd h (by decide)
  rw [POW, if_pos rfl, if_neg h0, if_pos h]
  split
  · assumption
  · decide

/-- Settles O7. -/
theorem elementaryFunctionsHaveTheirProperties : Obligations.ElementaryFunctionsHaveTheirProperties := by
  refine ⟨fun x hx => ⟨SIN_neg hx, Bool.and_eq_true_iff.1 (inUnit_SIN hx)⟩, POW_zero,
    fun x hx hpos => Bool.and_eq_true_iff.1 (isFinitePositive_POW (by rw [isFinitePositive, hx, hpos]; rfl)),
    fun y x hy hx hne => ?_, fun y x h => ?_⟩
  · obtain ⟨hnan, -⟩ | hzero | hclosed := Machine.ATAN2_cases y x
    · simp [hy, hx] at hnan
    · exact absurd hzero hne
    · exact Bool.and_eq_true_iff.1 hclosed
  · rw [ATAN2, if_pos (by simpa using h)]
    decide

end Sys2Proof
end

section
/-! SUPPORT. The quantizer of R130: the clip by the order, the range of the scaled value; and the obligation about
it. -/

namespace Sys2Proof.Fp

theorem key_injective_of_ne_zero {a b : F64} (h : key a = key b) (h0 : key b ≠ 0) : a = b := by
  unfold key at h h0
  have hboth : sign a = sign b ∧ mag a = mag b := by
    cases ha : sign a <;> cases hb : sign b <;>
      simp only [ha, hb, signed, if_true, Bool.false_eq_true, if_false] at h h0
    · exact ⟨rfl, by omega⟩
    · omega
    · omega
    · exact ⟨rfl, by omega⟩
  exact ext_sign_mag hboth.1 hboth.2

theorem lt_iff_key {a b : F64} (ha : isNaN a = false) (hb : isNaN b = false) : lt a b = true ↔ key a < key b := by
  simp [lt, ha, hb]

theorem le_iff_key {a b : F64} (ha : isNaN a = false) (hb : isNaN b = false) : le a b = true ↔ key a ≤ key b := by
  simp [le, ha, hb]

/-- A factor of magnitude at most 1 does not enlarge the other. -/
theorem mag_mul_le {a b : F64} (ha : mag a ≤ mag one) (hb : isFinite b = true) : mag (mul a b) ≤ mag b := by
  have hfin := isFinite_of_mag_le isFinite_one ha
  have hle : magVal (mag a) ≤ 1 := magVal_mag_one ▸ magVal_strictMono.monotone ha
  exact (mul_code hfin hb).le_of_le (mul_le_of_le_one_left (magVal_nonneg _) hle)

/-- `trunc` does not leave the range of a whole number (R20). -/
theorem trunc_bounds {a : F64} (ha : isFinite a = true) {k : Nat} (h : magVal (mag a) ≤ k) :
    -(k : Int) ≤ trunc a ∧ trunc a ≤ k := by
  rw [← abs_toRat ha] at h
  obtain ⟨hlow, hhigh⟩ := abs_le.1 h
  rw [trunc_eq_toRat ha]
  split_ifs with hneg
  · have hge : -(k : Int) ≤ ⌈toRat a⌉ := by
      have hceil := Int.le_ceil (toRat a)
      exact_mod_cast hlow.trans hceil
    have hle : ⌈toRat a⌉ ≤ 0 := Int.ceil_le.2 (by exact_mod_cast hneg.le)
    exact ⟨hge, by omega⟩
  · have hle : ⌊toRat a⌋ ≤ (k : Int) := by
      have hfloor := Int.floor_le (toRat a)
      exact_mod_cast hfloor.trans hhigh
    have hge : 0 ≤ ⌊toRat a⌋ := Int.floor_nonneg.2 (not_lt.1 hneg)
    exact ⟨by omega, hle⟩

end Sys2Proof.Fp

namespace Sys2Proof

theorem mag_le_one_of_inUnit {v : F64} (h : inUnit v = true) : Fp.mag v ≤ Fp.mag Fp.one := by
  obtain ⟨-, hlow, hhigh⟩ := inUnit_iff.1 h
  have hone : Fp.key Fp.one = Fp.mag Fp.one := by decide
  rw [hone, Fp.key] at hlow hhigh
  cases hs : Fp.sign v <;> simp only [hs, Fp.signed, if_true, Bool.false_eq_true, if_false] at hlow hhigh <;> omega

namespace Machine

/-! ### The clip, by the order -/

section
variable {a : F64} (h : Fp.isNaN a = false)
include h

theorem clip_of_inUnit (hlow : Fp.le Fp.minusOne a = true) (hhigh : Fp.le a Fp.one = true) : clip a = a := by
  rw [Fp.le_iff_key (by decide) h] at hlow
  rw [Fp.le_iff_key h (by decide)] at hhigh
  have h1 : ¬ Fp.lt a Fp.minusOne = true := by rw [Fp.lt_iff_key h (by decide)]; omega
  have h2 : ¬ Fp.lt Fp.one a = true := by rw [Fp.lt_iff_key (by decide) h]; omega
  rw [clip, if_neg h1]
  exact if_neg h2

theorem clip_of_one_le (hge : Fp.le Fp.one a = true) : clip a = Fp.one := by
  rw [Fp.le_iff_key (by decide) h] at hge
  have hminus : Fp.key Fp.minusOne < Fp.key Fp.one := by decide
  have h1 : ¬ Fp.lt a Fp.minusOne = true := by rw [Fp.lt_iff_key h (by decide)]; omega
  rw [clip, if_neg h1]
  split_ifs with h2
  · rfl
  · rw [Fp.lt_iff_key (by decide) h] at h2
    exact Fp.key_injective_of_ne_zero (by omega) (by decide)

theorem clip_of_le_minusOne (hle : Fp.le a Fp.minusOne = true) : clip a = Fp.minusOne := by
  rw [Fp.le_iff_key h (by decide)] at hle
  have hv : (if Fp.lt a Fp.minusOne then Fp.minusOne else a) = Fp.minusOne := by
    split_ifs with h1
    · rfl
    · rw [Fp.lt_iff_key h (by decide)] at h1
      exact Fp.key_injective_of_ne_zero (by omega) (by decide)
  rw [clip, hv]
  exact if_neg (by decide)

/-- What the clip answers lies in [-1, 1]. -/
theorem inUnit_clip : inUnit (clip a) = true := by
  by_cases hlow : Fp.le Fp.minusOne a = true
  · by_cases hhigh : Fp.le a Fp.one = true
    · rw [clip_of_inUnit h hlow hhigh, inUnit, hlow, hhigh]; rfl
    · rw [clip_of_one_le h]
      · decide
      · rw [Fp.le_iff_key h (by decide)] at hhigh
        rw [Fp.le_iff_key (by decide) h]
        omega
  · rw [clip_of_le_minusOne h]
    · decide
    · rw [Fp.le_iff_key (by decide) h] at hlow
      rw [Fp.le_iff_key h (by decide)]
      omega

theorem quantized_bounds : -32767 ≤ quantized a ∧ quantized a ≤ 32767 := by
  have hfin : Fp.isFinite Fp.c32767 = true := by decide
  have hmag := Fp.mag_mul_le (mag_le_one_of_inUnit (inUnit_clip h)) hfin
  have hval : Fp.magVal (Fp.mag Fp.c32767) = (32767 : Nat) := by
    have hround := Fp.ofNat_exact (by norm_num : 32767 < 2 ^ 53)
    rw [show Fp.ofNat 32767 = Fp.c32767 by decide +kernel] at hround
    rw [← Fp.abs_toRat hfin, hround.2, Nat.abs_cast]
  exact Fp.trunc_bounds (Fp.isFinite_of_mag_le hfin hmag) (hval ▸ Fp.magVal_strictMono.monotone hmag)

/-- The sample is the quantizer's number: it fits 16 bits. -/
theorem toInt_quantize (n : Nat) : (quantize n a).toInt = quantized a := by
  obtain ⟨hlow, hhigh⟩ := quantized_bounds h
  rw [quantize_of_not_nan h]
  exact BitVec.toInt_ofInt_eq_self (by decide) (by omega) (by omega)

end

/-- Settles O47. -/
theorem quantizerClipsScalesAndTruncates : Obligations.QuantizerClipsScalesAndTruncates := by
  intro n a h
  rw [toInt_quantize h]
  refine ⟨quantized_bounds h, fun hge => ?_, fun hle => ?_, fun hlow hhigh => ?_⟩
  · rw [quantized, clip_of_one_le h hge]; decide
  · rw [quantized, clip_of_le_minusOne h hle]; decide
  · rw [quantized, clip_of_inUnit h hlow hhigh]

end Machine
end Sys2Proof
end

section
/-! SUPPORT. The series of I0 (R103): its rounds in the terms of the rule, the growth of the terms, and that the series
ends within the model's budget (log 6); and the obligation about it. -/

namespace Sys2Proof.Fp

/-! ### Bounds of a rounded result by numbers that have a code -/

theorem zpow_mem_range_magVal {z : Int} (h : -1074 ≤ z) : (2 : ℚ) ^ z ∈ Set.range magVal := by
  obtain ⟨c, -, hval⟩ := exists_code (m := 1) (by norm_num) (z + 1074).toNat
  refine ⟨c, ?_⟩
  rw [← hval, Nat.cast_one, one_mul]
  congr 1
  omega

theorem natCast_mem_range_magVal {n : Nat} (h : n < 2 ^ 53) : (n : ℚ) ∈ Set.range magVal := by
  obtain ⟨hfin, hval⟩ := ofNat_exact h
  exact ⟨mag (ofNat n), by rw [← abs_toRat hfin, hval, Nat.abs_cast]⟩

theorem magVal_mag_ofNat {n : Nat} (h : n < 2 ^ 53) : magVal (mag (ofNat n)) = n := by
  obtain ⟨hfin, hval⟩ := ofNat_exact h
  rw [← abs_toRat hfin, hval, Nat.abs_cast]

theorem RoundedCode.magVal_le {x y : ℚ} {m : Nat} (h : RoundedCode x m) (hy : y ∈ Set.range magVal) (hx : x ≤ y) :
    magVal m ≤ y := by
  obtain ⟨c, rfl⟩ := hy
  exact magVal_strictMono.monotone (h.le_of_le hx)

theorem RoundedCode.le_magVal {x y : ℚ} {m : Nat} (h : RoundedCode x m) (hy : y ∈ Set.range magVal)
    (hmax : y ≤ 2 ^ (1024 : Int)) (hx : y ≤ x) : y ≤ magVal m := by
  obtain ⟨c, rfl⟩ := hy
  rw [show (2 : ℚ) ^ (1024 : Int) = magVal infMag from magVal_infMag.symm] at hmax
  exact magVal_strictMono.monotone (h.ge_of_ge (magVal_strictMono.le_iff_le.1 hmax) hx)

/-- Below the overflow threshold the result is finite. -/
theorem RoundedCode.lt_infMag {x : ℚ} {m : Nat} (h : RoundedCode x m) (hx : x < 2 ^ 1024 - 2 ^ 970) : m < infMag := by
  obtain ⟨n, hn, rfl⟩ := h
  exact (min_le_left _ _).trans_lt ((nearestCode_finite_iff hn).1 hx)

theorem RoundedCode.zpow_le_magVal {x : ℚ} {m : Nat} {z : Int} (h : RoundedCode x m) (hz : -1074 ≤ z ∧ z ≤ 1024)
    (hx : 2 ^ z ≤ x) : 2 ^ z ≤ magVal m :=
  h.le_magVal (zpow_mem_range_magVal hz.1) (zpow_le_zpow_right₀ (by norm_num) hz.2) hx

theorem magVal_lt_of_finite {a : F64} (h : isFinite a = true) : magVal (mag a) < 2 ^ 1024 := by
  rw [← magVal_infMag]
  exact magVal_strictMono (isFinite_iff.1 h)

theorem isFinite_of_magVal_lt {a : F64} (h : magVal (mag a) < 2 ^ 1024) : isFinite a = true := by
  rw [← magVal_infMag] at h
  exact isFinite_iff.2 (magVal_strictMono.lt_iff_lt.1 h)

theorem isFinite_of_magVal_le_zpow {a : F64} {z : Int} (hz : z < 1024) (h : magVal (mag a) ≤ 2 ^ z) :
    isFinite a = true :=
  isFinite_of_magVal_lt (h.trans_lt (zpow_lt_zpow_right₀ (by norm_num) hz))

theorem sign_one : sign one = false := by decide

/-- A value without a sign that is neither a NaN nor the positive infinity is finite. -/
theorem isFinite_of_ne_inf {a : F64} (hs : sign a = false) (hnan : isNaN a = false) (h : a ≠ inf false) :
    isFinite a = true := by
  rcases class_cases a with ⟨hf, -⟩ | ⟨-, -, -, hinf⟩ | ⟨-, -, hn⟩
  · exact hf
  · exact absurd (hs ▸ hinf) h
  · exact absurd (hn.symm.trans hnan) (by decide)

section
variable {a b : F64} (ha : isFinite a = true) (hb : isFinite b = true)
include ha hb

/-- Finite operands give no NaN: the result is a code or infinity's. -/
theorem isNaN_mul : isNaN (mul a b) = false := by
  obtain ⟨n, -, hm⟩ := mul_code ha hb
  simp [isNaN, hm]

theorem isNaN_add : isNaN (add a b) = false := by
  obtain ⟨n, -, hm⟩ := add_code ha hb
  simp [isNaN, hm]

/-- The sum of two values that are not negative is not negative. -/
theorem sign_add (hsa : sign a = false) (hsb : sign b = false) : sign (add a b) = false := by
  obtain ⟨hzero, hsign, -⟩ := add_spec ha hb
  have hsum := add_nonneg (toRat_nonneg ha hsa) (toRat_nonneg hb hsb)
  by_cases h0 : toRat a + toRat b = 0
  · rw [hzero h0, hsa, hsb]; decide
  · rw [hsign h0, decide_eq_false (not_lt.2 hsum)]

end

end Sys2Proof.Fp

namespace Sys2Proof.Machine

/-! ### The loop in the rule's terms -/

/-- Round `k + 1` of the series neither overflows nor ends it (R103). -/
def SeriesRuns (y : F64) (k : Nat) : Prop :=
  besselTerm y (k + 1) ≠ Fp.inf false ∧ ¬ besselStops y k ∧ besselSum y (k + 1) ≠ Fp.inf false

/-- How round `k + 1` ends the series (R103). -/
def SeriesEnds (y : F64) (k : Nat) (r : Except ErrCode F64) : Prop :=
  (besselTerm y (k + 1) = Fp.inf false ∧ r = .error .besselOverflow) ∨
  (besselTerm y (k + 1) ≠ Fp.inf false ∧ besselStops y k ∧ r = .ok (besselSum y k)) ∨
  (besselTerm y (k + 1) ≠ Fp.inf false ∧ ¬ besselStops y k ∧ besselSum y (k + 1) = Fp.inf false ∧
    r = .error .besselOverflow)

/-- One round of the loop. -/
theorem seriesLoop_succ (y : F64) (budget k : Nat) :
    seriesLoop y (budget + 1) (besselSum y k) (besselTerm y k) (k + 1) =
      if besselTerm y (k + 1) = Fp.inf false then some (.error .besselOverflow)
      else if Fp.lt (besselTerm y (k + 1)) (Fp.mul Fp.c1em10 (besselSum y k)) then some (.ok (besselSum y k))
      else if besselSum y (k + 1) = Fp.inf false then some (.error .besselOverflow)
      else seriesLoop y budget (besselSum y (k + 1)) (besselTerm y (k + 1)) (k + 2) := rfl

theorem seriesLoop_of_runs {y : F64} {k : Nat} (h : SeriesRuns y k) (budget : Nat) :
    seriesLoop y (budget + 1) (besselSum y k) (besselTerm y k) (k + 1) =
      seriesLoop y budget (besselSum y (k + 1)) (besselTerm y (k + 1)) (k + 2) := by
  obtain ⟨hterm, hstop, hsum⟩ := h
  rw [besselStops] at hstop
  rw [seriesLoop_succ, if_neg hterm, if_neg hstop, if_neg hsum]

theorem seriesLoop_of_not_runs {y : F64} {k : Nat} (h : ¬ SeriesRuns y k) (budget : Nat) :
    ∃ r, seriesLoop y (budget + 1) (besselSum y k) (besselTerm y k) (k + 1) = some r ∧ SeriesEnds y k r := by
  rw [seriesLoop_succ]
  split_ifs with hterm hstop hsum
  · exact ⟨_, rfl, .inl ⟨hterm, rfl⟩⟩
  · exact ⟨_, rfl, .inr (.inl ⟨hterm, hstop, rfl⟩)⟩
  · exact ⟨_, rfl, .inr (.inr ⟨hterm, hstop, hsum, rfl⟩)⟩
  · exact absurd ⟨hterm, hstop, hsum⟩ h

/-- The loop runs through the rounds that do not end it and answers what the next one does. -/
theorem seriesLoop_ends {y : F64} {k budget : Nat} (hruns : ∀ j, j < k → SeriesRuns y j) (hend : ¬ SeriesRuns y k)
    (hbudget : k < budget) :
    ∃ r, seriesLoop y budget Fp.one Fp.one 1 = some r ∧ SeriesEnds y k r := by
  have hrounds : ∀ j, j ≤ k → seriesLoop y budget Fp.one Fp.one 1 =
      seriesLoop y (budget - j) (besselSum y j) (besselTerm y j) (j + 1) := by
    intro j
    induction j with
    | zero => exact fun _ => rfl
    | succ j ih =>
      intro hj
      rw [ih (by omega), show budget - j = (budget - (j + 1)) + 1 by omega, seriesLoop_of_runs (hruns j (by omega))]
  rw [hrounds k le_rfl, show budget - k = (budget - k - 1) + 1 by omega]
  exact seriesLoop_of_not_runs hend _

/-! ### The terms and sums of rounds that run -/

/-- `y / k` of round `k + 1`. -/
def besselQuotient (y : F64) (k : Nat) : F64 := Fp.div y (Fp.ofNat (k + 1))

theorem besselTerm_succ (y : F64) (k : Nat) :
    besselTerm y (k + 1) = Fp.mul (besselTerm y k) (Fp.mul (besselQuotient y k) (besselQuotient y k)) := rfl

/-- Term and sum after `k` rounds that run: finite, not negative, the sum at least 1. -/
structure SeriesState (y : F64) (k : Nat) : Prop where
  term : Fp.isFinite (besselTerm y k) = true ∧ Fp.sign (besselTerm y k) = false
  sum : Fp.isFinite (besselSum y k) = true ∧ Fp.sign (besselSum y k) = false
  one_le : 1 ≤ Fp.magVal (Fp.mag (besselSum y k))

theorem SeriesState.zero (y : F64) : SeriesState y 0 :=
  ⟨⟨Fp.isFinite_one, Fp.sign_one⟩, ⟨Fp.isFinite_one, Fp.sign_one⟩, Fp.magVal_mag_one.ge⟩

section
variable {y : F64} {k : Nat} (hy : Fp.isFinite y = true) (hk : k < 4096)
include hy hk

theorem besselQuotient_code :
    Fp.RoundedCode (Fp.magVal (Fp.mag y) / (k + 1 : Nat)) (Fp.mag (besselQuotient y k)) := by
  have hone := Fp.one_le_magVal_ofNat (Nat.succ_le_succ (Nat.zero_le k))
  have hcode := Fp.div_code hy (Fp.ofNat_exact (by omega : k + 1 < 2 ^ 53)).1 fun h0 => by
    rw [h0, Fp.magVal_zero] at hone
    linarith
  rwa [Fp.magVal_mag_ofNat (by omega)] at hcode

theorem isFinite_besselQuotient : Fp.isFinite (besselQuotient y k) = true :=
  Fp.isFinite_div hy (Fp.ofNat_exact (by omega)).1 (Fp.one_le_magVal_ofNat (by omega))

/-- The square of the quotient has no sign; where it is not finite it is the positive infinity. -/
theorem besselSquare_cases :
    (Fp.isFinite (Fp.mul (besselQuotient y k) (besselQuotient y k)) = true ∧
      Fp.sign (Fp.mul (besselQuotient y k) (besselQuotient y k)) = false) ∨
    Fp.mul (besselQuotient y k) (besselQuotient y k) = Fp.inf false := by
  have hq := isFinite_besselQuotient hy hk
  have hsign := (Fp.mul_spec hq hq).1
  rw [bne_self_eq_false] at hsign
  by_cases hinf : Fp.mul (besselQuotient y k) (besselQuotient y k) = Fp.inf false
  · exact .inr hinf
  · exact .inl ⟨Fp.isFinite_of_ne_inf hsign (Fp.isNaN_mul hq hq) hinf, hsign⟩

/-- A round that runs has a finite square, unless the term before is 0. -/
theorem isFinite_besselSquare (hterm : Fp.isFinite (besselTerm y k) = true ∧ Fp.sign (besselTerm y k) = false)
    (h0 : Fp.mag (besselTerm y k) ≠ 0) (hruns : SeriesRuns y k) :
    Fp.isFinite (Fp.mul (besselQuotient y k) (besselQuotient y k)) = true := by
  refine (besselSquare_cases hy hk).elim And.left fun hinf => absurd ?_ hruns.1
  obtain ⟨m, e, hu, -, -, hz⟩ := Fp.unpack_finite hterm.1
  rw [besselTerm_succ, hinf, (Fp.mul_inf_finite (Fp.unpack_infinity false) hu).2, if_neg (mt hz.1 h0), hterm.2]
  rfl

/-- One more round that runs, its square finite. -/
theorem SeriesState.succ (h : SeriesState y k) (hruns : SeriesRuns y k)
    (hsquare : Fp.isFinite (Fp.mul (besselQuotient y k) (besselQuotient y k)) = true) : SeriesState y (k + 1) := by
  obtain ⟨⟨htf, hts⟩, ⟨hsf, hss⟩, hone⟩ := h
  have hq := isFinite_besselQuotient hy hk
  have hterm : Fp.isFinite (besselTerm y (k + 1)) = true ∧ Fp.sign (besselTerm y (k + 1)) = false := by
    have hsign : Fp.sign (besselTerm y (k + 1)) = false := by
      rw [besselTerm_succ, (Fp.mul_spec htf hsquare).1, (Fp.mul_spec hq hq).1, hts, bne_self_eq_false]
      rfl
    exact ⟨Fp.isFinite_of_ne_inf hsign (Fp.isNaN_mul htf hsquare) hruns.1, hsign⟩
  have hsign := Fp.sign_add hsf hterm.1 hss hterm.2
  have hsum := Fp.isFinite_of_ne_inf hsign (Fp.isNaN_add hsf hterm.1) hruns.2.2
  refine ⟨hterm, ⟨hsum, hsign⟩, ?_⟩
  have hterm0 := Fp.toRat_nonneg hterm.1 hterm.2
  rw [← Fp.toRat_of_sign_false hsf hss] at hone
  have hge : 2 ^ (0 : Int) ≤ |Fp.toRat (besselSum y k) + Fp.toRat (besselTerm y (k + 1))| :=
    le_abs.2 (.inl (by rw [zpow_zero]; linarith))
  exact (zpow_zero (2 : ℚ)).ge.trans ((Fp.add_code hsf hterm.1).zpow_le_magVal (by norm_num) hge)

/-! ### Growth: with `y` at least 2^10 the term overflows within 512 rounds -/

/-- Below round 513 the quotient is 2 or more, and the term grows by 4 or more. -/
theorem besselTerm_grows (hlarge : 2 ^ (10 : Int) ≤ Fp.magVal (Fp.mag y)) (hk' : k < 512)
    (hterm : Fp.isFinite (besselTerm y k) = true)
    (hsquare : Fp.isFinite (Fp.mul (besselQuotient y k) (besselQuotient y k)) = true)
    (hgrown : 2 ^ (2 * (k : Int)) ≤ Fp.magVal (Fp.mag (besselTerm y k))) :
    2 ^ (2 * ((k + 1 : Nat) : Int)) ≤ Fp.magVal (Fp.mag (besselTerm y (k + 1))) := by
  have hq := isFinite_besselQuotient hy hk
  have hle : ((k + 1 : Nat) : ℚ) ≤ 512 := by exact_mod_cast hk'
  have hquot : 2 ^ (1 : Int) ≤ Fp.magVal (Fp.mag (besselQuotient y k)) := by
    refine (besselQuotient_code hy hk).zpow_le_magVal (by norm_num) ?_
    rw [le_div_iff₀ (by positivity)]
    norm_num at hlarge hle ⊢
    linarith
  have hsq : 2 ^ (2 : Int) ≤ Fp.magVal (Fp.mag (Fp.mul (besselQuotient y k) (besselQuotient y k))) := by
    refine (Fp.mul_code hq hq).zpow_le_magVal (by norm_num) ?_
    norm_num at hquot ⊢
    nlinarith
  refine (Fp.mul_code hterm hsquare).zpow_le_magVal (by omega) ?_
  rw [show 2 * ((k + 1 : Nat) : Int) = 2 * k + 2 by push_cast; ring, zpow_add₀ (by norm_num)]
  exact mul_le_mul hgrown hsq (by positivity) (Fp.magVal_nonneg _)

/-! ### Decay: with `y` at most 2^10 the square stays finite, and is at most 1/4 from round 2048 on -/

theorem besselSquare_le {b : Int} (hb : -500 ≤ b) (hquot : Fp.magVal (Fp.mag y) / (k + 1 : Nat) ≤ 2 ^ b) :
    Fp.magVal (Fp.mag (Fp.mul (besselQuotient y k) (besselQuotient y k))) ≤ 2 ^ (2 * b) := by
  have hq := isFinite_besselQuotient hy hk
  have hle := (besselQuotient_code hy hk).magVal_le (Fp.zpow_mem_range_magVal (by omega)) hquot
  refine (Fp.mul_code hq hq).magVal_le (Fp.zpow_mem_range_magVal (by omega)) ?_
  rw [two_mul, zpow_add₀ (by norm_num)]
  exact mul_le_mul hle hle (Fp.magVal_nonneg _) (by positivity)

end

theorem zpow_le_c1em10 : 2 ^ (-34 : Int) ≤ Fp.magVal (Fp.mag Fp.c1em10) := by
  have hcode := Fp.magVal_code 988 (2 ^ 52) (by norm_num) (.inr le_rfl)
  have hmono := Fp.magVal_strictMono.monotone (by decide : 988 * 2 ^ 52 + 2 ^ 52 ≤ Fp.mag Fp.c1em10)
  rw [hcode] at hmono
  exact le_trans (by norm_num) hmono

/-- A term that has decayed below 2^(-34) ends the series: the sum is at least 1. -/
theorem besselStops_of_small {k : Nat} (hterm : SeriesState y (k + 1)) (hsum : SeriesState y k)
    (hsmall : Fp.magVal (Fp.mag (besselTerm y (k + 1))) < 2 ^ (-34 : Int)) : besselStops y k := by
  have hc : Fp.isFinite Fp.c1em10 = true := by decide
  have hfin : Fp.isFinite (Fp.mul Fp.c1em10 (besselSum y k)) = true :=
    Fp.isFinite_of_mag_le hsum.sum.1 (Fp.mag_mul_le (by decide) hsum.sum.1)
  have hsign : Fp.sign (Fp.mul Fp.c1em10 (besselSum y k)) = false := by
    rw [(Fp.mul_spec hc hsum.sum.1).1, hsum.sum.2]
    decide
  rw [besselStops, Fp.lt_iff hterm.term.1 hfin, Fp.toRat_of_sign_false hterm.term.1 hterm.term.2,
    Fp.toRat_of_sign_false hfin hsign]
  refine hsmall.trans_le ((Fp.mul_code hc hsum.sum.1).zpow_le_magVal (by norm_num) ?_)
  exact zpow_le_c1em10.trans (le_mul_of_one_le_right (Fp.magVal_nonneg _) hsum.one_le)

section
variable {y : F64} (hy : Fp.isFinite y = true)
include hy

/-- The rounds that run, with a large `y`: there are fewer than 513. -/
theorem seriesState_of_large (hlarge : 2 ^ (10 : Int) ≤ Fp.magVal (Fp.mag y)) {k : Nat}
    (hruns : ∀ j, j < k → SeriesRuns y j) (hk : k ≤ 512) :
    SeriesState y k ∧ 2 ^ (2 * (k : Int)) ≤ Fp.magVal (Fp.mag (besselTerm y k)) := by
  induction k with
  | zero => exact ⟨.zero y, Fp.magVal_mag_one.ge⟩
  | succ k ih =>
    obtain ⟨hstate, hgrown⟩ := ih (fun j hj => hruns j (by omega)) (by omega)
    have h0 : Fp.mag (besselTerm y k) ≠ 0 := fun h0 => by
      rw [h0, Fp.magVal_zero] at hgrown
      exact absurd hgrown (not_le.2 (by positivity))
    have hsquare := isFinite_besselSquare hy (by omega) hstate.term h0 (hruns k (by omega))
    exact ⟨hstate.succ hy (by omega) (hruns k (by omega)) hsquare,
      besselTerm_grows hy (by omega) hlarge (by omega) hstate.term.1 hsquare hgrown⟩

theorem seriesState_of_small (hsmall : Fp.magVal (Fp.mag y) ≤ 2 ^ (10 : Int)) {k : Nat}
    (hruns : ∀ j, j < k → SeriesRuns y j) (hk : k ≤ 4096) : SeriesState y k := by
  induction k with
  | zero => exact .zero y
  | succ k ih =>
    have hquot : Fp.magVal (Fp.mag y) / (k + 1 : Nat) ≤ 2 ^ (10 : Int) :=
      (div_le_self (Fp.magVal_nonneg _) (by exact_mod_cast Nat.succ_pos k)).trans hsmall
    have hsq := besselSquare_le hy (by omega) (by norm_num) hquot
    refine (ih (fun j hj => hruns j (by omega)) (by omega)).succ hy (by omega) (hruns k (by omega)) ?_
    exact Fp.isFinite_of_magVal_le_zpow (by norm_num) hsq

/-- From round 2048 on each term is at most a quarter of the one before. -/
theorem besselTerm_decays (hsmall : Fp.magVal (Fp.mag y) ≤ 2 ^ (10 : Int))
    (hruns : ∀ j, j < 4096 → SeriesRuns y j) {i : Nat} (hi : i ≤ 600) :
    Fp.magVal (Fp.mag (besselTerm y (2047 + i))) ≤ 2 ^ (1024 - 2 * (i : Int)) := by
  have hstate (k : Nat) (hk : k ≤ 4096) : SeriesState y k :=
    seriesState_of_small hy hsmall (fun j hj => hruns j (by omega)) hk
  induction i with
  | zero => exact (Fp.magVal_lt_of_finite (hstate 2047 (by omega)).term.1).le
  | succ i ih =>
    have hquot : Fp.magVal (Fp.mag y) / (2047 + i + 1 : Nat) ≤ 2 ^ (-1 : Int) := by
      have hge : (2048 : ℚ) ≤ ((2047 + i + 1 : Nat) : ℚ) := by exact_mod_cast (by omega : 2048 ≤ 2047 + i + 1)
      rw [div_le_iff₀ (by positivity)]
      norm_num at hsmall hge ⊢
      linarith
    have hsq := besselSquare_le hy (by omega : 2047 + i < 4096) (by norm_num) hquot
    have hsquare := Fp.isFinite_of_magVal_le_zpow (by norm_num) hsq
    refine (Fp.mul_code (hstate (2047 + i) (by omega)).term.1 hsquare).magVal_le
      (Fp.zpow_mem_range_magVal (by omega)) ?_
    rw [show (1024 : Int) - 2 * ((i + 1 : Nat) : Int) = (1024 - 2 * (i : Int)) + 2 * (-1) by push_cast; ring,
      zpow_add₀ (by norm_num)]
    exact mul_le_mul (ih (by omega)) hsq (Fp.magVal_nonneg _) (by positivity)

/-- The series ends: some round below the budget does not run (log 6). -/
theorem exists_not_seriesRuns : ∃ k, k < 4096 ∧ ¬ SeriesRuns y k := by
  by_contra hall
  push Not at hall
  rcases le_total (2 ^ (10 : Int)) (Fp.magVal (Fp.mag y)) with hlarge | hsmall
  · obtain ⟨hstate, hgrown⟩ := seriesState_of_large hy hlarge (k := 512) (fun j hj => hall j (by omega)) le_rfl
    exact absurd hgrown (not_le.2 (Fp.magVal_lt_of_finite hstate.term.1))
  · have hstate (k : Nat) (hk : k ≤ 4096) : SeriesState y k :=
      seriesState_of_small hy hsmall (fun j hj => hall j (by omega)) hk
    refine (hall 2646 (by norm_num)).2.1
      (besselStops_of_small (hstate 2647 (by norm_num)) (hstate 2646 (by norm_num)) ?_)
    exact (besselTerm_decays hy hsmall hall (i := 600) le_rfl).trans_lt
      (zpow_lt_zpow_right₀ (by norm_num) (by norm_num))

/-- The series runs for some rounds and ends in the next one, within the budget. -/
theorem seriesLoop_answers :
    ∃ k r, k < 4096 ∧ (∀ j, j < k → SeriesRuns y j) ∧ SeriesEnds y k r ∧
      seriesLoop y seriesBudget Fp.one Fp.one 1 = some r := by
  have hex : ∃ k, ¬ SeriesRuns y k := (exists_not_seriesRuns hy).imp fun k hk => hk.2
  classical
  obtain ⟨m, hm, hend⟩ := exists_not_seriesRuns hy
  have hlt : Nat.find hex < 4096 := (Nat.find_min' hex hend).trans_lt hm
  have hruns : ∀ j, j < Nat.find hex → SeriesRuns y j := fun j hj => not_not.1 (Nat.find_min hex hj)
  obtain ⟨r, hr, hends⟩ := seriesLoop_ends hruns (Nat.find_spec hex) (by simpa [seriesBudget] using hlt)
  exact ⟨_, r, hlt, hruns, hends, hr⟩

end

theorem isFinite_half {x : F64} (hx : Fp.isFinite x = true) : Fp.isFinite (Fp.div x Fp.two) = true :=
  Fp.isFinite_div hx (by decide) (Fp.magVal_mag_one ▸ Fp.magVal_strictMono.monotone (by decide))

theorem besselI0_of_loop {x : F64} {r : Except ErrCode F64}
    (h : seriesLoop (Fp.div x Fp.two) seriesBudget Fp.one Fp.one 1 = some r) : besselI0 x = r := by
  rw [besselI0, h, Option.getD_some]

theorem besselI0_zero : besselI0 0#64 = .ok Fp.one := by decide

/-- Settles O35: the first round that does not run ends the series. -/
theorem besselSeriesFollowsItsRecurrence : Obligations.BesselSeriesFollowsItsRecurrence := by
  refine ⟨fun x y hx _ hxy => ?_, besselI0_zero⟩
  subst hxy
  obtain ⟨k, r, -, hruns, hends, hloop⟩ := seriesLoop_answers (isFinite_half hx)
  have hI0 := besselI0_of_loop hloop
  refine ⟨⟨r, hloop, hI0⟩, k, hruns, ?_⟩
  rw [hI0]
  exact hends

/-- What I0 answers, if it answers, is finite and at least 1. -/
theorem besselI0_ok {x v : F64} (hx : Fp.isFinite x = true) (h : besselI0 x = .ok v) :
    Fp.isFinite v = true ∧ Fp.sign v = false ∧ 1 ≤ Fp.magVal (Fp.mag v) := by
  have hy := isFinite_half hx
  obtain ⟨k, r, hk, hruns, hends, hloop⟩ := seriesLoop_answers hy
  have hstate : SeriesState (Fp.div x Fp.two) k := by
    rcases le_total (2 ^ (10 : Int)) (Fp.magVal (Fp.mag (Fp.div x Fp.two))) with hlarge | hsmall
    · refine (seriesState_of_large hy hlarge hruns ?_).1
      by_contra hlong
      obtain ⟨hstate, hgrown⟩ := seriesState_of_large hy hlarge (k := 512) (fun j hj => hruns j (by omega)) le_rfl
      exact absurd hgrown (not_le.2 (Fp.magVal_lt_of_finite hstate.term.1))
    · exact seriesState_of_small hy hsmall hruns hk.le
  rw [besselI0_of_loop hloop] at h
  subst h
  obtain ⟨-, h⟩ | ⟨-, -, h⟩ | ⟨-, -, -, h⟩ := hends
  · cases h
  · cases h
    exact ⟨hstate.sum.1, hstate.sum.2, hstate.one_le⟩
  · cases h

end Sys2Proof.Machine
end

section
/-! SUPPORT. The designer in the terms of the rules: the Kaiser beta (R101), the centre of the filter, the taps and
their loop (R104 to R106), the order of the raises (R99, R151); and the obligations about them. -/

namespace Sys2Proof.Machine

/-! ### The Kaiser beta (R101) -/

section Beta

theorem isFinite_twentyOne : Fp.isFinite Fp.twentyOne = true := by decide

theorem toRat_twentyOne : Fp.toRat Fp.twentyOne = 21 := by
  have hu : Fp.unpack Fp.twentyOne = .fin false (21 * 2 ^ 48) (-48) := by decide
  norm_num [Fp.toRat, hu, Fp.signed]

theorem isFinite_fifty : Fp.isFinite Fp.fifty = true := by decide

theorem toRat_fifty : Fp.toRat Fp.fifty = 50 := by
  have hu : Fp.unpack Fp.fifty = .fin false (25 * 2 ^ 48) (-47) := by decide
  norm_num [Fp.toRat, hu, Fp.signed]

variable {rdb : F64} (hfin : Fp.isFinite rdb = true)
include hfin

theorem kaiserBeta_of_lt (h : Fp.toRat rdb < 21) : kaiserBeta rdb = 0#64 := by
  rw [kaiserBeta, if_pos ((Fp.lt_iff hfin isFinite_twentyOne).2 (by rwa [toRat_twentyOne]))]

theorem kaiserBeta_of_mid (h21 : 21 ≤ Fp.toRat rdb) (h50 : Fp.toRat rdb ≤ 50) : kaiserBeta rdb =
    Fp.add (Fp.mul Fp.c0_5842 (POW (Fp.sub rdb Fp.twentyOne) Fp.c0_4))
      (Fp.mul Fp.c0_07886 (Fp.sub rdb Fp.twentyOne)) := by
  rw [kaiserBeta, if_neg (mt (Fp.lt_iff hfin isFinite_twentyOne).1 (by rw [toRat_twentyOne]; exact not_lt.2 h21)),
    if_pos ((Fp.le_iff hfin isFinite_fifty).2 (by rwa [toRat_fifty]))]

theorem kaiserBeta_of_gt (h : 50 < Fp.toRat rdb) : kaiserBeta rdb = Fp.mul Fp.c0_1102 (Fp.sub rdb Fp.c8_7) := by
  rw [kaiserBeta, if_neg (mt (Fp.lt_iff hfin isFinite_twentyOne).1 (by rw [toRat_twentyOne]; linarith)),
    if_neg (mt (Fp.le_iff hfin isFinite_fifty).1 (by rw [toRat_fifty]; linarith))]

end Beta

/-- Finite and without a sign: what R101 and R21 make of beta and its parts. -/
def Nonneg (v : F64) : Prop := Fp.isFinite v = true ∧ Fp.sign v = false

theorem Nonneg.toRat {v : F64} (h : Nonneg v) : Fp.toRat v = Fp.magVal (Fp.mag v) := Fp.toRat_of_sign_false h.1 h.2

/-- The difference of a value and one that is not greater. -/
theorem Nonneg.sub {a b : F64} (ha : Nonneg a) (hb : Fp.isFinite b = true) (hle : Fp.toRat b ≤ Fp.toRat a)
    (hb0 : 0 ≤ Fp.toRat b) : Nonneg (Fp.sub a b) := by
  have hdiff : 0 ≤ Fp.toRat a - Fp.toRat b := sub_nonneg.2 hle
  have hfin : Fp.isFinite (Fp.sub a b) = true := by
    refine Fp.isFinite_of_mag_le ha.1 ((Fp.sub_code ha.1 hb).le_of_le ?_)
    rw [← ha.toRat, abs_of_nonneg hdiff]
    linarith
  have hnegb : Fp.isFinite (Fp.neg b) = true := by rwa [Fp.isFinite_neg]
  obtain ⟨hzero, hsign, -⟩ := Fp.add_spec ha.1 hnegb
  rw [Fp.toRat_neg hb, ← sub_eq_add_neg] at hzero hsign
  refine ⟨hfin, ?_⟩
  by_cases h0 : Fp.toRat a - Fp.toRat b = 0
  · rw [Fp.sub, hzero h0, ha.2, Bool.false_and, Fp.sign_pack _ _ (by norm_num)]
  · rw [Fp.sub, hsign h0, decide_eq_false (not_lt.2 hdiff)]

/-- The product with a factor of at most 1. -/
theorem Nonneg.mul {c v : F64} (hc : Nonneg c) (hc1 : Fp.mag c ≤ Fp.mag Fp.one) (hv : Nonneg v) :
    Nonneg (Fp.mul c v) := by
  refine ⟨Fp.isFinite_of_mag_le hv.1 (Fp.mag_mul_le hc1 hv.1), ?_⟩
  rw [(Fp.mul_spec hc.1 hv.1).1, hc.2, hv.2]
  rfl

/-- The code of 3/4 of 2^1024. -/
theorem magVal_three_quarters : Fp.magVal (2045 * 2 ^ 52 + 3 * 2 ^ 51) = 3 * 2 ^ 52 * 2 ^ 970 := by
  rw [Fp.magVal_code 2045 (3 * 2 ^ 51) (by norm_num) (.inr (by norm_num)),
    show ((2045 : Nat) : Int) - 1074 = ((970 + 1 : Nat) : Int) by norm_num, zpow_natCast, pow_succ (2 : ℚ) 970]
  generalize (2 : ℚ) ^ 970 = b
  push_cast
  ring

theorem c0_5842_le : Fp.magVal (Fp.mag Fp.c0_5842) ≤ 3 / 4 := by
  have hcode := Fp.magVal_code 1021 (3 * 2 ^ 51) (by norm_num) (.inr (by norm_num))
  have hmono := Fp.magVal_strictMono.monotone (by decide : Fp.mag Fp.c0_5842 ≤ 1021 * 2 ^ 52 + 3 * 2 ^ 51)
  rw [hcode] at hmono
  exact hmono.trans (by norm_num)

theorem nonneg_POW {a : F64} (ha : Nonneg a) : Nonneg (POW a Fp.c0_4) := by
  by_cases h0 : a = 0#64
  · rw [h0, POW_zero]; exact ⟨by decide, by decide⟩
  · have hpos : Fp.lt 0#64 a = true := by
      rw [Fp.zero_lt_iff ha.1]
      refine lt_of_le_of_ne (Fp.toRat_nonneg ha.1 ha.2) fun hz => h0 ?_
      exact Fp.ext_sign_mag ha.2 ((Fp.toRat_eq_zero_iff ha.1).1 hz.symm)
    have hpow := isFinitePositive_POW (by rw [isFinitePositive, ha.1, hpos]; rfl)
    obtain ⟨hfin, hgt⟩ := Bool.and_eq_true_iff.1 hpow
    exact ⟨hfin, Fp.sign_of_toRat_pos hfin ((Fp.zero_lt_iff hfin).1 hgt)⟩

/-- The middle branch of R101: the power is at most the largest finite value, 0.5842 of it at most 3/4 of 2^1024. -/
theorem nonneg_kaiserBeta_mid {a : F64} (ha : Nonneg a) (hle : Fp.toRat a ≤ 29) :
    Nonneg (Fp.add (Fp.mul Fp.c0_5842 (POW a Fp.c0_4)) (Fp.mul Fp.c0_07886 a)) := by
  have hpow := nonneg_POW ha
  have hx : Nonneg (Fp.mul Fp.c0_5842 (POW a Fp.c0_4)) := .mul ⟨by decide, by decide⟩ (by decide) hpow
  have hy : Nonneg (Fp.mul Fp.c0_07886 a) := .mul ⟨by decide, by decide⟩ (by decide) ha
  refine ⟨Fp.isFinite_iff.2 ((Fp.add_code hx.1 hy.1).lt_infMag ?_), Fp.sign_add hx.1 hy.1 hx.2 hy.2⟩
  have hxle : Fp.magVal (Fp.mag (Fp.mul Fp.c0_5842 (POW a Fp.c0_4))) ≤ 3 * 2 ^ 52 * 2 ^ 970 := by
    refine (Fp.mul_code (by decide) hpow.1).magVal_le ⟨_, magVal_three_quarters⟩ ?_
    have hbound := mul_le_mul c0_5842_le (Fp.magVal_lt_of_finite hpow.1).le (Fp.magVal_nonneg _) (by norm_num)
    refine hbound.trans_eq ?_
    rw [show 1024 = 54 + 970 from rfl, pow_add]
    generalize (2 : ℚ) ^ 970 = b
    ring
  have hyle : Fp.magVal (Fp.mag (Fp.mul Fp.c0_07886 a)) ≤ 29 := by
    refine (Fp.magVal_strictMono.monotone (Fp.mag_mul_le (by decide) ha.1)).trans ?_
    rwa [← ha.toRat]
  rw [hx.toRat, hy.toRat, abs_of_nonneg (add_nonneg (Fp.magVal_nonneg _) (Fp.magVal_nonneg _)),
    show 1024 = 54 + 970 from rfl, pow_add]
  have hone : (1 : ℚ) ≤ 2 ^ 970 := one_le_pow₀ (by norm_num)
  generalize (2 : ℚ) ^ 970 = b at *
  linarith

/-- R101, R21: beta is finite and not negative. -/
theorem nonneg_kaiserBeta {rdb : F64} (hfin : Fp.isFinite rdb = true) (hpos : 0 < Fp.toRat rdb) :
    Nonneg (kaiserBeta rdb) := by
  have hrdb : Nonneg rdb := ⟨hfin, Fp.sign_of_toRat_pos hfin hpos⟩
  rcases lt_or_ge (Fp.toRat rdb) 21 with hlt | h21
  · rw [kaiserBeta_of_lt hfin hlt]
    exact ⟨by decide, by decide⟩
  rcases le_or_gt (Fp.toRat rdb) 50 with h50 | hgt
  · have hsub : Nonneg (Fp.sub rdb Fp.twentyOne) :=
      hrdb.sub isFinite_twentyOne (by rwa [toRat_twentyOne]) (by rw [toRat_twentyOne]; norm_num)
    rw [kaiserBeta_of_mid hfin h21 h50]
    refine nonneg_kaiserBeta_mid hsub ?_
    have hmem : (29 : ℚ) ∈ Set.range Fp.magVal := by exact_mod_cast Fp.natCast_mem_range_magVal (n := 29) (by norm_num)
    rw [hsub.toRat]
    refine (Fp.sub_code hfin isFinite_twentyOne).magVal_le hmem ?_
    rw [toRat_twentyOne, abs_of_nonneg (by linarith)]
    linarith
  · rw [kaiserBeta_of_gt hfin hgt]
    have hc : Fp.isFinite Fp.c8_7 = true := by decide
    have hc9 : 0 ≤ Fp.toRat Fp.c8_7 ∧ Fp.toRat Fp.c8_7 ≤ 9 := by
      have hu : Fp.unpack Fp.c8_7 = .fin false 4897664594765414 (-49) := by decide
      norm_num [Fp.toRat, hu, Fp.signed]
    exact .mul ⟨by decide, by decide⟩ (by decide) (hrdb.sub hc (by linarith) hc9.1)

/-- Settles O33: at 21 dB the middle branch is that of +0.0. -/
theorem kaiserBetaFollowsItsBranches : Obligations.KaiserBetaFollowsItsBranches := by
  intro rdb hfin hpos
  have hbeta := nonneg_kaiserBeta hfin hpos
  refine ⟨kaiserBeta_of_lt hfin, fun h => ?_, kaiserBeta_of_mid hfin, kaiserBeta_of_gt hfin, hbeta.1,
    Fp.toRat_nonneg hbeta.1 hbeta.2⟩
  have hrdb : rdb = Fp.twentyOne :=
    Fp.eq_of_toRat_eq hfin isFinite_twentyOne (Fp.sign_of_toRat_pos hfin hpos) (h.trans toRat_twentyOne.symm)
  rw [kaiserBeta_of_mid hfin h.ge (by linarith), hrdb, show Fp.sub Fp.twentyOne Fp.twentyOne = 0#64 by decide, POW_zero]
  decide

end Sys2Proof.Machine
end

section
/-! SUPPORT. The taps of R106 in the rule's own terms, their loop, and the order of DESIGN's raises (R99, R104 to R106,
R113, R151); and the obligations about them. -/

namespace Sys2Proof.Fp

theorem isNaN_of_finite {a : F64} (h : isFinite a = true) : isNaN a = false := by
  simpa [isNaN] using (isFinite_iff.1 h).le

theorem eq_zero_iff_mag {a : F64} (ha : isFinite a = true) : eq a 0#64 = true ↔ mag a = 0 := by
  rw [eq_iff ha isFinite_posZero, toRat_posZero, toRat_eq_zero_iff ha]

end Sys2Proof.Fp

namespace Sys2Proof.Machine

/-! ### The centre of the filter -/

theorem tapCentre_code {len : Nat} (hlen : len ≤ 7679) :
    Fp.RoundedCode (((len - 1 : Nat) : ℚ) / 2) (Fp.mag (tapCentre len)) := by
  have htwo : Fp.magVal (Fp.mag Fp.two) = 2 := by
    have h := Fp.magVal_mag_ofNat (n := 2) (by norm_num)
    rwa [show Fp.ofNat 2 = Fp.two by decide] at h
  have hcode := Fp.div_code (Fp.ofNat_exact (by omega : len - 1 < 2 ^ 53)).1 (by decide : Fp.isFinite Fp.two = true)
    (by decide)
  rwa [Fp.magVal_mag_ofNat (by omega), htwo] at hcode

theorem isFinite_tapCentre {len : Nat} (hlen : len ≤ 7679) : Fp.isFinite (tapCentre len) = true :=
  isFinite_half (Fp.ofNat_exact (by omega)).1

/-- The centre is 0 for a one-tap filter alone (R104). -/
theorem tapCentre_eq_zero_iff {len : Nat} (hpos : 1 ≤ len) (hlen : len ≤ 7679) :
    Fp.eq (tapCentre len) 0#64 = true ↔ len = 1 := by
  have hcode := tapCentre_code hlen
  rw [Fp.eq_zero_iff_mag (isFinite_tapCentre hlen)]
  constructor
  · intro h0
    by_contra hne
    have hge : (2 : ℚ) ^ (-1 : Int) ≤ ((len - 1 : Nat) : ℚ) / 2 := by
      rw [le_div_iff₀ (by norm_num)]
      norm_num
      omega
    have hle := hcode.zpow_le_magVal (by norm_num) hge
    rw [h0, Fp.magVal_zero] at hle
    norm_num at hle
  · rintro rfl
    exact hcode.eq_zero_of_zero (by norm_num)

/-! ### One tap (R104 to R106) -/

/-- R104's window at tap `n`, by the length. -/
theorem kaiserWindow_eq_windowOfTap {len : Nat} (hpos : 1 ≤ len) (hlen : len ≤ 7679) (beta i0b : F64) (n : Nat) :
    kaiserWindow (Fp.sub (Fp.ofNat n) (tapCentre len)) (tapCentre len) beta i0b = windowOfTap beta i0b len n := by
  unfold kaiserWindow windowOfTap
  by_cases h1 : len = 1
  · rw [if_pos h1, if_pos ((tapCentre_eq_zero_iff hpos hlen).2 h1)]
  · rw [if_neg h1, if_neg (mt (tapCentre_eq_zero_iff hpos hlen).1 h1)]
    rfl

/-- R105, R106: the value of tap `n` is the designer's product. -/
theorem valueOfTap_eq (fc fs g : F64) (len n : Nat) (v : F64) : valueOfTap fc fs g len n v =
    Fp.mul (Fp.mul (sinc (Fp.sub (Fp.ofNat n) (tapCentre len)) (angularCutoff fc fs)) v) g := rfl

section
variable {fc fs g beta i0b : F64} {len n : Nat} (hn : n < len) (hlen : len ≤ 7679)
include hn hlen

theorem tap_of_window_error {e : ErrCode} (hw : windowOfTap beta i0b len n = .error e) :
    tap (angularCutoff fc fs) (tapCentre len) g beta i0b n = .error e := by
  rw [tap, kaiserWindow_eq_windowOfTap (by omega) hlen, hw]

theorem tap_of_window_ok {v : F64} (hw : windowOfTap beta i0b len n = .ok v) :
    tap (angularCutoff fc fs) (tapCentre len) g beta i0b n =
      if Fp.isFinite (valueOfTap fc fs g len n v) then .ok (valueOfTap fc fs g len n v) else .error .coefNonfinite := by
  rw [tap, kaiserWindow_eq_windowOfTap (by omega) hlen, hw]
  rfl

theorem tap_of_fits (hfits : TapFits fc fs g beta i0b len n) :
    ∃ h, tap (angularCutoff fc fs) (tapCentre len) g beta i0b n = .ok h := by
  obtain ⟨v, hw, hfin⟩ := hfits
  exact ⟨_, by rw [tap_of_window_ok hn hlen hw, if_pos hfin]⟩

end

/-! ### The loop -/

theorem tapLoop_total {f : Nat → Except ErrCode F64} {count start : Nat}
    (h : ∀ n, start ≤ n → n < start + count → ∃ x, f n = .ok x) : ∃ xs, tapLoop f count start = .ok xs := by
  induction count generalizing start with
  | zero => exact ⟨[], rfl⟩
  | succ count ih =>
    obtain ⟨x, hx⟩ := h start le_rfl (by omega)
    obtain ⟨xs, hxs⟩ := ih (start := start + 1) fun n hn hn' => h n (by omega) (by omega)
    exact ⟨x :: xs, by rw [tapLoop, hx, hxs]⟩

/-- The first tap that raises decides (R151). -/
theorem tapLoop_first_error {f : Nat → Except ErrCode F64} {count start m : Nat} {e : ErrCode}
    (hbefore : ∀ n, start ≤ n → n < m → ∃ x, f n = .ok x) (hm : start ≤ m) (hm' : m < start + count)
    (he : f m = .error e) : tapLoop f count start = .error e := by
  induction count generalizing start with
  | zero => omega
  | succ count ih =>
    rcases Nat.eq_or_lt_of_le hm with rfl | hlt
    · rw [tapLoop, he]
    · obtain ⟨x, hx⟩ := hbefore start le_rfl hlt
      rw [tapLoop, hx, ih (start := start + 1) (fun n hn hn' => hbefore n (by omega) hn') hlt (by omega)]

section
variable {fc fs g beta i0b : F64} {len : Nat} (hlen : len ≤ 7679)
include hlen

/-- When every tap fits, the taps are their values. -/
theorem coefficients_of_fits (hfits : ∀ n, n < len → TapFits fc fs g beta i0b len n) :
    ∃ h, coefficients fc fs g beta i0b len = .ok h ∧ h.length = len ∧
      ∀ n v, n < len → windowOfTap beta i0b len n = .ok v → h[n]? = some (valueOfTap fc fs g len n v) := by
  obtain ⟨h, hok⟩ := tapLoop_total (f := tap (angularCutoff fc fs) (tapCentre len) g beta i0b) (count := len)
    (start := 0) fun n _ hn => tap_of_fits (by omega) hlen (hfits n (by omega))
  obtain ⟨hcount, hall⟩ := tapLoop_ok hok
  refine ⟨h, hok, hcount, fun n v hn hw => ?_⟩
  obtain ⟨x, hx, hget⟩ := hall n hn
  obtain ⟨v', hw', hfin⟩ := hfits n hn
  cases hw'.symm.trans hw
  rw [Nat.zero_add, tap_of_window_ok hn hlen hw, if_pos hfin] at hx
  cases hx
  exact hget

theorem coefficients_first_error {m : Nat} {e : ErrCode} (hm : m < len)
    (hfits : ∀ n, n < m → TapFits fc fs g beta i0b len n)
    (he : tap (angularCutoff fc fs) (tapCentre len) g beta i0b m = .error e) :
    coefficients fc fs g beta i0b len = .error e :=
  tapLoop_first_error (fun n _ hn => tap_of_fits (hn.trans hm) hlen (hfits n hn)) (Nat.zero_le m) (by omega) he

end

/-! ### The order of the raises (R99) -/

section
variable {lMax : Nat} {c : ConfigRegs} (hfields : checkFields c = .ok ())
include hfields

theorem designOf_of_length_error {e : ErrCode} (h : filterLength lMax c.ripple c.twidth c.fs = .error e) :
    designOf lMax c = .error e := by
  simp only [designOf, hfields, h, bind, Except.bind]

variable {len : Nat} (hlength : filterLength lMax c.ripple c.twidth c.fs = .ok len)
include hlength

theorem designOf_of_factor_error {e : ErrCode} (h : resampleFactorOf c.fs c.decim c.targetRate = .error e) :
    designOf lMax c = .error e := by
  simp only [designOf, hfields, hlength, h, bind, Except.bind]

variable {factor : Nat} (hfactor : resampleFactorOf c.fs c.decim c.targetRate = .ok factor)
include hfactor

theorem designOf_of_series_error {e : ErrCode} (h : besselI0 (kaiserBeta c.ripple) = .error e) :
    designOf lMax c = .error e := by
  simp only [designOf, hfields, hlength, hfactor, h, bind, Except.bind]

variable {i0b : F64} (hseries : besselI0 (kaiserBeta c.ripple) = .ok i0b)
include hseries

theorem designOf_of_taps_error {e : ErrCode}
    (h : coefficients c.cutoff c.fs c.gain (kaiserBeta c.ripple) i0b len = .error e) : designOf lMax c = .error e := by
  simp only [designOf, hfields, hlength, hfactor, hseries, h, bind, Except.bind]

theorem designOf_of_taps_ok {h : List F64}
    (htaps : coefficients c.cutoff c.fs c.gain (kaiserBeta c.ripple) i0b len = .ok h) : designOf lMax c =
      .ok { taps := h, len := len, factor := factor, beta := kaiserBeta c.ripple, decim := c.decim } := by
  simp only [designOf, hfields, hlength, hfactor, hseries, htaps, bind, Except.bind, pure, Except.pure]

end

/-- Settles O31: the loop stops at the first tap that raises, and DESIGN at its first part that does. -/
theorem designRaisesInTheOrderOfItsPseudocode : Obligations.DesignRaisesInTheOrderOfItsPseudocode := by
  refine ⟨fun fc fs g beta i0b len hlen => ⟨coefficients_of_fits hlen, fun m e hm hfits hw => ?_,
    fun m v hm hfits hw hfin => ?_⟩, fun lMax c e len factor i0b h => ⟨fun hfields => ?_,
    fun h1 h2 => designOf_of_length_error h1 h2,
    fun h1 h2 => designOf_of_factor_error h1 h2, fun h1 h2 h3 => designOf_of_series_error h1 h2 h3,
    fun h1 h2 h3 h4 => designOf_of_taps_error h1 h2 h3 h4, fun h1 h2 h3 h4 => designOf_of_taps_ok h1 h2 h3 h4⟩⟩
  · exact coefficients_first_error hlen hm hfits (tap_of_window_error hm hlen hw)
  · refine coefficients_first_error hlen hm hfits ?_
    rw [tap_of_window_ok hm hlen hw, hfin, if_neg (by decide)]
  · simp only [designOf, hfields, bind, Except.bind]

end Sys2Proof.Machine
end

section
/-! SUPPORT. What DESIGN's filters are: a zero over a non-zero value, and the obligations about the taps of a design. -/

namespace Sys2Proof.Fp

theorem mag_div_zero_left {d : F64} (hnan : isNaN d = false) (h0 : mag d ≠ 0) : mag (div 0#64 d) = 0 := by
  rcases class_cases d with ⟨hfin, -, -⟩ | ⟨-, -, -, hinf⟩ | ⟨-, -, h⟩
  · exact (div_code isFinite_posZero hfin h0).eq_zero_of_zero (by simp [show mag 0#64 = 0 by decide, magVal_zero])
  · obtain ⟨m, e, hzero, -⟩ := unpack_finite_zero isFinite_posZero
    rw [hinf, (div_inf_finite (unpack_infinity (sign d)) hzero).2]
    generalize (sign 0#64 != sign d) = b
    revert b
    decide
  · rw [h] at hnan
    cases hnan

/-- A factor of 1 or more does not make a magnitude smaller. -/
theorem mag_le_mag_mul {a b : F64} (ha : isFinite a = true) (hb : isFinite b = true) (hone : 1 ≤ magVal (mag a)) :
    mag b ≤ mag (mul a b) :=
  (mul_code ha hb).ge_of_ge (mag_le_infMag (isNaN_of_finite hb)) (le_mul_of_one_le_left (magVal_nonneg _) hone)

end Sys2Proof.Fp

namespace Sys2Proof.Machine

theorem checkFields_gain {c : ConfigRegs} (h : checkFields c = .ok ()) :
    Fp.isFinite c.gain = true ∧ 0 < Fp.toRat c.gain :=
  (checkFields_ok h).1 _ (by simp [ConfigRegs.fields])

theorem checkFields_ripple {c : ConfigRegs} (h : checkFields c = .ok ()) :
    Fp.isFinite c.ripple = true ∧ 0 < Fp.toRat c.ripple :=
  (checkFields_ok h).1 _ (by simp [ConfigRegs.fields])

/-! ### A ripple of 8 dB (R113) -/

/-- R102: the numerator is 0 and the denominator is not. -/
theorem mag_orderQuotient_eight {tw fs : F64} (hfin : Fp.isFinite (Fp.div tw fs) = true)
    (hne : Fp.toRat (Fp.div tw fs) ≠ 0) : Fp.mag (orderQuotient Fp.eight tw fs) = 0 := by
  have hconst : Fp.isFinite (Fp.mul Fp.c2_285 (Fp.mul Fp.two Fp.pi64)) = true := by decide
  have hone : 1 ≤ Fp.magVal (Fp.mag (Fp.mul Fp.c2_285 (Fp.mul Fp.two Fp.pi64))) := by
    rw [← Fp.magVal_mag_one]
    exact Fp.magVal_strictMono.monotone (by decide)
  have hle := Fp.mag_le_mag_mul hconst hfin hone
  have h0 : Fp.mag (Fp.div tw fs) ≠ 0 := mt (Fp.toRat_eq_zero_iff hfin).2 hne
  rw [orderQuotient, show Fp.sub Fp.eight Fp.eight = 0#64 by decide]
  exact Fp.mag_div_zero_left (Fp.isNaN_mul hconst hfin) (by omega)

theorem filterLength_eight {lMax : Nat} (hl : 1 ≤ lMax) {tw fs : F64} (hfin : Fp.isFinite (Fp.div tw fs) = true)
    (hne : Fp.toRat (Fp.div tw fs) ≠ 0) : filterLength lMax Fp.eight tw fs = .ok 1 := by
  have h0 := mag_orderQuotient_eight hfin hne
  have hq := Fp.isFinite_of_mag_zero h0
  rw [filterLength_of_finite hq, (Fp.toRat_eq_zero_iff hq).2 h0]
  simp [forceOdd]
  omega

/-- The one tap of a pure gain: its sinc and its window are 1. -/
theorem coefficients_one {fc fs g beta i0b : F64} (hg : Fp.isFinite g = true) :
    coefficients fc fs g beta i0b 1 = .ok [g] := by
  have hvalue : valueOfTap fc fs g 1 0 Fp.one = g := by
    rw [valueOfTap_eq, sinc, if_pos (by decide), show Fp.mul Fp.one Fp.one = Fp.one by decide, Fp.mul_one_left hg]
  have hfits : ∀ n, n < 1 → TapFits fc fs g beta i0b 1 n := fun n hn => by
    obtain rfl : n = 0 := by omega
    exact ⟨Fp.one, rfl, by rw [hvalue]; exact hg⟩
  obtain ⟨h, hok, hlen, hget⟩ := coefficients_of_fits (by norm_num) hfits
  have hhead := hget 0 Fp.one (by norm_num) rfl
  rw [hvalue] at hhead
  obtain ⟨x, rfl⟩ := List.length_eq_one_iff.1 hlen
  rw [hok]
  simpa using hhead

/-- Settles O39: at 8 dB the length is 1 and beta is +0.0, so that I0(beta) is 1. -/
theorem eightDecibelsGivesAPureGain : Obligations.EightDecibelsGivesAPureGain := by
  intro lMax factor c hl hfields hripple hfin hne hfactor
  have hlen : filterLength lMax c.ripple c.twidth c.fs = .ok 1 := hripple ▸ filterLength_eight hl hfin hne
  have hbeta : kaiserBeta c.ripple = 0#64 := by rw [hripple]; decide
  rw [designOf_of_taps_ok hfields hlen hfactor (hbeta ▸ besselI0_zero) (coefficients_one (checkFields_gain hfields).1),
    hbeta]

end Sys2Proof.Machine
end

section
/-! SUPPORT. The taps of a filter of `2 c + 1` taps by their distance `k` from the centre (R104 to R106), and the
obligation about what a tap is. -/

namespace Sys2Proof.Fp

theorem RoundedCode.unique {x : ℚ} {m n : Nat} (hm : RoundedCode x m) (hn : RoundedCode x n) : m = n := by
  obtain ⟨i, hi, rfl⟩ := hm
  obtain ⟨j, hj, rfl⟩ := hn
  rw [nearestCode_unique hi hj]

/-! ### Differences of whole numbers -/

theorem sign_ofNat (n : Nat) : sign (ofNat n) = false := sign_round ..

section
variable {n c k : Nat} (hn : n < 2 ^ 53) (hc : c < 2 ^ 53)
include hn hc

theorem mag_sub_ofNat (hk : k < 2 ^ 53) (h : |(n : ℚ) - c| = k) : mag (sub (ofNat n) (ofNat c)) = mag (ofNat k) := by
  obtain ⟨hfn, hvn⟩ := ofNat_exact hn
  obtain ⟨hfc, hvc⟩ := ofNat_exact hc
  refine (sub_code hfn hfc).eq_of_eq (isFinite_iff.1 (ofNat_exact hk).1).le ?_
  rw [hvn, hvc, magVal_mag_ofNat hk, h]

theorem sign_sub_ofNat (hne : n ≠ c) : sign (sub (ofNat n) (ofNat c)) = decide (n < c) := by
  obtain ⟨hfn, hvn⟩ := ofNat_exact hn
  obtain ⟨hfc, hvc⟩ := ofNat_exact hc
  have hsum : toRat (ofNat n) + toRat (neg (ofNat c)) = n - c := by rw [toRat_neg hfc, hvn, hvc, sub_eq_add_neg]
  have hne' : (n : ℚ) - c ≠ 0 := sub_ne_zero.2 (by exact_mod_cast hne)
  have hsign := (add_spec hfn (by rwa [isFinite_neg] : isFinite (neg (ofNat c)) = true)).2.1
  rw [hsum] at hsign
  rw [sub, hsign hne']
  simp

theorem sub_ofNat_of_eq_add (h : n = c + k) : sub (ofNat n) (ofNat c) = ofNat k := by
  refine ext_sign_mag ?_ (mag_sub_ofNat hn hc (by omega) (by rw [h]; simp))
  rcases Nat.eq_zero_or_pos k with rfl | hk
  · obtain ⟨hfin, -⟩ := ofNat_exact hc
    rw [h, Nat.add_zero, sub, (add_spec hfin (by rwa [isFinite_neg])).1 (by rw [toRat_neg hfin]; ring), sign_ofNat,
      Bool.false_and]
    decide
  · rw [sign_sub_ofNat hn hc (by omega), sign_ofNat]
    simpa using (by omega : c ≤ n)

theorem sub_ofNat_of_add_eq (hk : 0 < k) (h : n + k = c) : sub (ofNat n) (ofNat c) = neg (ofNat k) := by
  refine ext_sign_mag ?_ ?_
  · rw [sign_sub_ofNat hn hc (by omega), sign_neg, sign_ofNat]
    simpa using (by omega : n < c)
  · rw [mag_neg]
    exact mag_sub_ofNat hn hc (by omega) (by rw [← h]; simp)

end

/-! ### Quotients and squares -/

theorem mag_div_neg_left {a b : F64} (ha : isFinite a = true) (hb : isFinite b = true) (h0 : mag b ≠ 0) :
    mag (div (neg a) b) = mag (div a b) := by
  have h := div_code (by rwa [isFinite_neg] : isFinite (neg a) = true) hb h0
  rw [mag_neg] at h
  exact h.unique (div_code ha hb h0)

/-- A square depends on the magnitude alone. -/
theorem mul_self_congr {a b : F64} (ha : isFinite a = true) (h : mag a = mag b) : mul a a = mul b b := by
  have hb := isFinite_of_mag_le ha h.ge
  refine ext_sign_mag ?_ ?_
  · rw [(mul_spec ha ha).1, (mul_spec hb hb).1, bne_self_eq_false, bne_self_eq_false]
  · have hcode := mul_code ha ha
    rw [h] at hcode
    exact hcode.unique (mul_code hb hb)

end Sys2Proof.Fp

namespace Sys2Proof.Machine

/-! ### The window by the distance from the centre (R104) -/

theorem tapCentre_odd {c : Nat} (hc : 2 * c + 1 ≤ 7679) : tapCentre (2 * c + 1) = Fp.ofNat c := by
  have hfin := (Fp.ofNat_exact (by omega : 2 * c < 2 ^ 53)).1
  refine Fp.ext_sign_mag ?_ ?_
  · rw [tapCentre, Nat.add_sub_cancel, (Fp.div_spec hfin (by decide) (by decide)).1, Fp.sign_ofNat, Fp.sign_ofNat]
    decide
  · refine (tapCentre_code hc).eq_of_eq (Fp.isFinite_iff.1 (Fp.ofNat_exact (by omega)).1).le ?_
    rw [Fp.magVal_mag_ofNat (by omega), Nat.add_sub_cancel]
    push_cast
    ring

/-- Tap `n` is `k` taps away from the centre `c`. -/
def AtDistance (c n k : Nat) : Prop := n = c + k ∨ n + k = c

theorem exists_atDistance {c n : Nat} (hn : n < 2 * c + 1) : ∃ k, k ≤ c ∧ AtDistance c n k := by
  rcases Nat.le_total c n with h | h
  · exact ⟨n - c, by omega, .inl (by omega)⟩
  · exact ⟨c - n, by omega, .inr (by omega)⟩

/-- The offset `t` of R105 at distance `k` is `k` on the right of the centre and `-k` on its left. -/
theorem tapOffset_eq {c n k : Nat} (hc : 2 * c + 1 ≤ 7679) (hk : k ≤ c) (h : AtDistance c n k) :
    Fp.sub (Fp.ofNat n) (tapCentre (2 * c + 1)) = Fp.ofNat k ∨
      0 < k ∧ Fp.sub (Fp.ofNat n) (tapCentre (2 * c + 1)) = Fp.neg (Fp.ofNat k) := by
  rw [tapCentre_odd hc]
  rcases h with hright | hleft
  · exact .inl (Fp.sub_ofNat_of_eq_add (by omega) (by omega) hright)
  · rcases Nat.eq_zero_or_pos k with rfl | hpos
    · exact .inl (Fp.sub_ofNat_of_eq_add (by omega) (by omega) (by omega))
    · exact .inr ⟨hpos, Fp.sub_ofNat_of_add_eq (by omega) (by omega) hpos hleft⟩

/-- `u` of R104 at distance `k` to the right of the centre. -/
def distanceRatio (c k : Nat) : F64 := Fp.div (Fp.ofNat k) (Fp.ofNat c)

/-- The argument of the window's `I0` at distance `k` (R104). -/
def windowArg (beta : F64) (c k : Nat) : F64 :=
  Fp.mul beta (Fp.sqrt (Fp.sub Fp.one (Fp.mul (distanceRatio c k) (distanceRatio c k))))

section
variable {c n k : Nat} (hpos : 1 ≤ c) (hc : 2 * c + 1 ≤ 7679) (hk : k ≤ c)

include hpos hc in
theorem mag_ofNat_centre : Fp.isFinite (Fp.ofNat c) = true ∧ Fp.mag (Fp.ofNat c) ≠ 0 := by
  refine ⟨(Fp.ofNat_exact (by omega)).1, fun h0 => ?_⟩
  have h := Fp.one_le_magVal_ofNat hpos
  rw [h0, Fp.magVal_zero] at h
  norm_num at h

include hpos hc hk

/-- The ratio is at most 1. -/
theorem mag_distanceRatio_le : Fp.mag (distanceRatio c k) ≤ Fp.mag Fp.one := by
  obtain ⟨hfin, h0⟩ := mag_ofNat_centre hpos hc
  refine (Fp.div_code (Fp.ofNat_exact (by omega)).1 hfin h0).le_of_le ?_
  rw [Fp.magVal_mag_one, Fp.magVal_mag_ofNat (by omega), Fp.magVal_mag_ofNat (by omega)]
  exact div_le_one_of_le₀ (by exact_mod_cast hk) (Nat.cast_nonneg c)

/-- The window of a tap depends on its distance from the centre alone. -/
theorem windowOfTap_eq (h : AtDistance c n k) (beta i0b : F64) : windowOfTap beta i0b (2 * c + 1) n =
    (besselI0 (windowArg beta c k)).map fun v => Fp.div v i0b := by
  obtain ⟨hfin, h0⟩ := mag_ofNat_centre hpos hc
  have hratio := Fp.isFinite_of_mag_le Fp.isFinite_one (mag_distanceRatio_le hpos hc hk)
  have hmag : Fp.mag (distanceRatio c k) =
      Fp.mag (Fp.div (Fp.sub (Fp.ofNat n) (tapCentre (2 * c + 1))) (tapCentre (2 * c + 1))) := by
    rcases tapOffset_eq hc hk h with ht | ⟨-, ht⟩
    · rw [ht, tapCentre_odd hc]
      rfl
    · rw [ht, tapCentre_odd hc, Fp.mag_div_neg_left (Fp.ofNat_exact (by omega)).1 hfin h0]
      rfl
  rw [windowArg, Fp.mul_self_congr hratio hmag, windowOfTap, if_neg (by omega)]
  rw [← tapCentre]
  cases besselI0 _ <;> rfl

end

/-! ### The window at the edges, at the centre, and with a beta of 0 -/

theorem mul_zero_of_nonneg {v : F64} (hv : Nonneg v) : Fp.mul v 0#64 = 0#64 := by
  refine Fp.ext_sign_mag ?_ ?_
  · rw [(Fp.mul_spec hv.1 Fp.isFinite_posZero).1, hv.2]
    decide
  · exact (Fp.mul_code hv.1 Fp.isFinite_posZero).eq_of_eq (by decide)
      (by rw [show Fp.mag 0#64 = 0 by decide, Fp.magVal_zero, mul_zero])

theorem nonneg_sqrt {v : F64} (hv : Nonneg v) : Nonneg (Fp.sqrt v) := by
  by_cases h0 : Fp.mag v = 0
  · rwa [Fp.sqrt_of_zero hv.1 ((Fp.toRat_eq_zero_iff hv.1).2 h0)]
  · obtain ⟨hsign, hfin, -⟩ := Fp.sqrt_spec hv.1 hv.2 h0
    exact ⟨hfin, hsign⟩

section
variable {c : Nat} (hpos : 1 ≤ c) (hc : 2 * c + 1 ≤ 7679)
include hpos hc

theorem windowArg_edge {beta : F64} (hbeta : Nonneg beta) : windowArg beta c c = 0#64 := by
  obtain ⟨hfin, h0⟩ := mag_ofNat_centre hpos hc
  rw [windowArg, distanceRatio, Fp.div_self_eq_one hfin h0,
    show Fp.sqrt (Fp.sub Fp.one (Fp.mul Fp.one Fp.one)) = 0#64 by decide +kernel, mul_zero_of_nonneg hbeta]

theorem windowArg_centre {beta : F64} (hbeta : Nonneg beta) : windowArg beta c 0 = beta := by
  obtain ⟨hfin, h0⟩ := mag_ofNat_centre hpos hc
  have hratio : Fp.mag (distanceRatio c 0) = Fp.mag 0#64 := by
    rw [distanceRatio, show Fp.ofNat 0 = 0#64 by decide]
    exact Fp.mag_div_zero_left (Fp.isNaN_of_finite hfin) h0
  rw [windowArg, Fp.mul_self_congr (Fp.isFinite_of_mag_zero hratio) hratio,
    show Fp.sqrt (Fp.sub Fp.one (Fp.mul 0#64 0#64)) = Fp.one by decide +kernel, Fp.mul_one_right hbeta.1]

theorem windowArg_zero {k : Nat} (hk : k ≤ c) : windowArg 0#64 c k = 0#64 := by
  have hle := mag_distanceRatio_le hpos hc hk
  have hfin := Fp.isFinite_of_mag_le Fp.isFinite_one hle
  have hsq : Nonneg (Fp.mul (distanceRatio c k) (distanceRatio c k)) :=
    ⟨Fp.isFinite_of_mag_le hfin (Fp.mag_mul_le hle hfin), by rw [(Fp.mul_spec hfin hfin).1, bne_self_eq_false]⟩
  have hone : Fp.magVal (Fp.mag (Fp.mul (distanceRatio c k) (distanceRatio c k))) ≤ Fp.magVal (Fp.mag Fp.one) :=
    Fp.magVal_strictMono.monotone ((Fp.mag_mul_le hle hfin).trans hle)
  have hroot : Nonneg (Fp.sqrt (Fp.sub Fp.one (Fp.mul (distanceRatio c k) (distanceRatio c k)))) := by
    refine nonneg_sqrt (Nonneg.sub ⟨Fp.isFinite_one, Fp.sign_one⟩ hsq.1 ?_ ?_)
    · rwa [hsq.toRat, Nonneg.toRat ⟨Fp.isFinite_one, Fp.sign_one⟩]
    · rw [hsq.toRat]
      exact Fp.magVal_nonneg _
  rw [windowArg, Fp.mul_comm, mul_zero_of_nonneg hroot]

end

/-! ### What a successful DESIGN leaves -/

/-- The taps of a successful DESIGN are the values of R106, all finite, for an odd length within the capacity. -/
theorem designOf_taps {lMax : Nat} (hl : lMax ≤ 7679) {c : ConfigRegs} {d : DesignResult}
    (h : designOf lMax c = .ok d) :
    (∃ m, d.len = 2 * m + 1 ∧ d.len ≤ lMax) ∧ ∃ i0b, besselI0 (kaiserBeta c.ripple) = .ok i0b ∧
      ∀ n, n < d.len → ∃ v, windowOfTap (kaiserBeta c.ripple) i0b d.len n = .ok v ∧
        d.taps[n]? = some (valueOfTap c.cutoff c.fs c.gain d.len n v) ∧
        Fp.isFinite (valueOfTap c.cutoff c.fs c.gain d.len n v) = true := by
  obtain ⟨i0b, -, hlen, -, hseries, htaps, -⟩ := designOf_ok h
  obtain ⟨hodd, hle⟩ := filterLength_ok hlen
  refine ⟨⟨d.len / 2, by omega, hle⟩, i0b, hseries, fun n hn => ?_⟩
  obtain ⟨x, hx, hget⟩ := (tapLoop_ok htaps).2 n hn
  obtain ⟨v, hwindow, rfl, hfin⟩ := tap_ok hx
  rw [Nat.zero_add, kaiserWindow_eq_windowOfTap (by omega) (by omega)] at hwindow
  rw [Nat.zero_add] at hget hfin
  exact ⟨v, hwindow, hget, hfin⟩

section
variable {beta i0b v : F64} {c n : Nat}

theorem window_of_single (hw : windowOfTap beta i0b 1 n = .ok v) : v = Fp.one := by
  rw [windowOfTap, if_pos rfl] at hw
  exact (Except.ok.inj hw).symm

theorem window_of_series {len : Nat} (hne : len ≠ 1) (hw : windowOfTap beta i0b len n = .ok v) :
    ∃ x, besselI0 (Fp.mul beta (Fp.sqrt (Fp.sub Fp.one
      (Fp.mul (Fp.div (Fp.sub (Fp.ofNat n) (tapCentre len)) (tapCentre len))
        (Fp.div (Fp.sub (Fp.ofNat n) (tapCentre len)) (tapCentre len)))))) = .ok x ∧ v = Fp.div x i0b := by
  rw [windowOfTap, if_neg hne, ← tapCentre] at hw
  split at hw
  case h_1 => cases hw
  case h_2 x hx => exact ⟨x, hx, (Except.ok.inj hw).symm⟩

/-- A tap whose window argument has the series value `x` has the window `x / I0(beta)`. -/
theorem window_of_arg {k : Nat} {x : F64} (hpos : 1 ≤ c) (hc : 2 * c + 1 ≤ 7679) (hk : k ≤ c) (hn : AtDistance c n k)
    (hx : besselI0 (windowArg beta c k) = .ok x) (hw : windowOfTap beta i0b (2 * c + 1) n = .ok v) :
    v = Fp.div x i0b := by
  rw [windowOfTap_eq hpos hc hk hn, hx] at hw
  exact (Except.ok.inj hw).symm

theorem window_of_edge (hpos : 1 ≤ c) (hc : 2 * c + 1 ≤ 7679) (hn : AtDistance c n c) (hbeta : Nonneg beta)
    (hw : windowOfTap beta i0b (2 * c + 1) n = .ok v) : v = Fp.div Fp.one i0b :=
  window_of_arg hpos hc le_rfl hn (by rw [windowArg_edge hpos hc hbeta, besselI0_zero]) hw

/-- With a beta of 0 the window is rectangular. -/
theorem window_of_beta_zero (hc : 2 * c + 1 ≤ 7679) (hn : n < 2 * c + 1)
    (hw : windowOfTap 0#64 Fp.one (2 * c + 1) n = .ok v) : v = Fp.one := by
  rcases Nat.eq_zero_or_pos c with rfl | hpos
  · exact window_of_single hw
  · obtain ⟨k, hk, hdist⟩ := exists_atDistance hn
    rw [window_of_arg hpos hc hk hdist (by rw [windowArg_zero hpos hc hk, besselI0_zero]) hw]
    decide +kernel

end

/-- Settles O38: each tap is the value of R106 for its window, which its distance from the centre decides. -/
theorem tapsAreSincTimesWindowTimesGain : Obligations.TapsAreSincTimesWindowTimesGain := by
  intro lMax cfg d hl h beta w alpha
  obtain ⟨⟨c, hlen, hle⟩, i0b, hseries, htaps⟩ := designOf_taps hl h
  obtain ⟨-, hfields, -⟩ := designOf_ok h
  obtain ⟨hripple, hripplePos⟩ := checkFields_ripple hfields
  refine ⟨i0b, hseries, fun n hn => ?_⟩
  obtain ⟨v, hwindow, htap, -⟩ := htaps n hn
  refine ⟨sinc (Fp.sub (Fp.ofNat n) (tapCentre d.len)) w, v, htap, fun ht => if_pos ht,
    fun ht => if_neg (ne_true_of_eq_false ht), fun h1 => ?_, fun hne => window_of_series hne hwindow,
    fun h3 hedge => ?_, fun hlow => ?_⟩
  · rw [h1] at hwindow
    exact window_of_single hwindow
  · rw [hlen] at hwindow
    exact window_of_edge (c := c) (by omega) (by omega) (by unfold AtDistance; omega)
      (nonneg_kaiserBeta hripple hripplePos) hwindow
  · have hbeta := kaiserBeta_of_lt hripple hlow
    rw [hbeta, besselI0_zero] at hseries
    rw [hlen, hbeta, ← Except.ok.inj hseries] at hwindow
    exact window_of_beta_zero (by omega) (by omega) hwindow

end Sys2Proof.Machine
end

section
/-! SUPPORT. The symmetry of a design's taps (R113), and the obligation about it. -/

namespace Sys2Proof.Fp

theorem RoundedCode.le_infMag {x : ℚ} {m : Nat} (h : RoundedCode x m) : m ≤ infMag := by
  obtain ⟨n, -, rfl⟩ := h
  exact min_le_right n infMag

theorem isNaN_div {a b : F64} (ha : isFinite a = true) (hb : isFinite b = true) (h0 : mag b ≠ 0) :
    isNaN (div a b) = false := by
  simpa [isNaN] using (div_code ha hb h0).le_infMag

/-- A finite non-zero factor makes no NaN. -/
theorem isNaN_mul_of_ne_zero {a b : F64} (ha : isFinite a = true) (h0 : mag a ≠ 0) (hb : isNaN b = false) :
    isNaN (mul a b) = false := by
  rcases class_cases b with ⟨hfin, -, -⟩ | ⟨-, -, -, hinf⟩ | ⟨-, -, h⟩
  · exact isNaN_mul ha hfin
  · obtain ⟨m, e, hval, hzero⟩ := unpack_finite_zero ha
    rw [hinf, (mul_inf_finite (unpack_infinity (sign b)) hval).2,
      if_neg (by rwa [hzero, toRat_eq_zero_iff ha])]
    cases sign a != sign b <;> decide
  · rw [h] at hb
    cases hb

theorem isNaN_left_of_mul {a b : F64} (h : isNaN (mul a b) = false) : isNaN a = false := by
  by_contra ha
  rw [mul_of_nan (.inl (Bool.of_not_eq_false ha)), isNaN_nan] at h
  cases h

/-- A zero times what leaves no NaN is a zero. -/
theorem mag_mul_of_mag_zero {a b : F64} (hnan : isNaN (mul a b) = false) (h0 : mag a = 0) : mag (mul a b) = 0 := by
  have ha := isFinite_of_mag_zero h0
  rcases class_cases b with ⟨hfin, -, -⟩ | ⟨-, -, -, hinf⟩ | ⟨-, -, h⟩
  · exact (mul_code ha hfin).eq_zero_of_zero (by rw [h0, magVal_zero, zero_mul])
  · obtain ⟨m, e, hval, hzero⟩ := unpack_finite_zero ha
    rw [hinf, (mul_inf_finite (unpack_infinity (sign b)) hval).2,
      if_pos (hzero.2 ((toRat_eq_zero_iff ha).2 h0)), isNaN_nan] at hnan
    cases hnan
  · rw [mul_of_nan (.inr h), isNaN_nan] at hnan
    cases hnan

/-- What an infinity divides without a NaN is a zero. -/
theorem mag_div_inf {a : F64} {s : Bool} (hnan : isNaN (div a (inf s)) = false) : mag (div a (inf s)) = 0 := by
  rcases class_cases a with ⟨hfin, -, -⟩ | ⟨-, -, -, hinf⟩ | ⟨-, -, h⟩
  · obtain ⟨m, e, hval, -⟩ := unpack_finite_zero hfin
    rw [(div_inf_finite (unpack_infinity s) hval).2]
    cases sign a != s <;> decide
  · have h : ∀ u, div (inf u) (inf s) = nan := by cases s <;> decide
    rw [hinf, h, isNaN_nan] at hnan
    cases hnan
  · rw [div_of_nan (.inl h), isNaN_nan] at hnan
    cases hnan

theorem eq_refl {a : F64} (ha : isFinite a = true) : eq a a = true := (eq_iff ha ha).2 rfl

theorem eq_of_mag_zero {a b : F64} (ha : mag a = 0) (hb : mag b = 0) : eq a b = true := by
  have hfa := isFinite_of_mag_zero ha
  have hfb := isFinite_of_mag_zero hb
  rw [eq_iff hfa hfb, (toRat_eq_zero_iff hfa).2 ha, (toRat_eq_zero_iff hfb).2 hb]

end Sys2Proof.Fp

namespace Sys2Proof.Machine

/-! ### The sinc on the two sides of the centre (R105) -/

/-- `SIN` is odd at `x`. -/
def OddAt (x : F64) : Prop := SIN (Fp.neg x) = Fp.neg (SIN x)

/-- R21 gives SIN's oddness at finite operands; at the infinities it follows from that at one of them (log 5). -/
theorem oddAt {x : F64} (hnan : Fp.isNaN x = false)
    (h : Fp.isFinite x = true ∨ SIN (Fp.inf true) = Fp.neg (SIN (Fp.inf false))) : OddAt x := by
  rcases Fp.class_cases x with ⟨hfin, -, -⟩ | ⟨hfin, -, -, hinf⟩ | ⟨-, -, hx⟩
  · exact SIN_neg hfin
  · have hodd := h.resolve_left (by rw [hfin]; decide)
    rw [hinf, OddAt]
    cases Fp.sign x
    · rwa [show Fp.neg (Fp.inf false) = Fp.inf true by decide]
    · rw [show Fp.neg (Fp.inf true) = Fp.inf false by decide, hodd, Fp.neg_neg]
  · rw [hx] at hnan
    cases hnan

theorem sinc_neg {t w : F64} (ht : Fp.isFinite t = true) (hnan : Fp.isNaN (Fp.mul w t) = false)
    (hodd : OddAt (Fp.mul w t)) : sinc (Fp.neg t) w = sinc t w := by
  have hzero : Fp.eq (Fp.neg t) 0#64 = Fp.eq t 0#64 := Bool.eq_iff_iff.2 <| by
    rw [Fp.eq_zero_iff_mag (by rwa [Fp.isFinite_neg]), Fp.eq_zero_iff_mag ht, Fp.mag_neg]
  unfold OddAt at hodd
  simp only [sinc, hzero, Fp.mul_neg_right hnan, hodd, Fp.div_neg_neg]

/-- Where the angle overflows, the value of a finite tap is a zero. -/
theorem mag_value_of_inf {t w v g : F64} {s : Bool} (ht : Fp.isFinite t = true) (h0 : Fp.mag t ≠ 0)
    (hw : Fp.mul w t = Fp.inf s) (hfin : Fp.isFinite (Fp.mul (Fp.mul (sinc t w) v) g) = true) :
    Fp.mag (Fp.mul (Fp.mul (sinc t w) v) g) = 0 := by
  have hnan := Fp.isNaN_of_finite hfin
  have hnan' := Fp.isNaN_left_of_mul hnan
  have hsinc : sinc t w = Fp.div (SIN (Fp.inf s)) (Fp.inf s) := by
    rw [sinc, if_neg (mt (Fp.eq_zero_iff_mag ht).1 h0), hw]
  have hzero : Fp.mag (sinc t w) = 0 := by
    rw [hsinc] at hnan' ⊢
    exact Fp.mag_div_inf (Fp.isNaN_left_of_mul hnan')
  exact Fp.mag_mul_of_mag_zero hnan (Fp.mag_mul_of_mag_zero hnan' hzero)

/-- The taps at `t` and `-t` are the same number; and they are the same value where SIN is odd at the angle. -/
theorem value_neg {t w v g : F64} (ht : Fp.isFinite t = true) (h0 : Fp.mag t ≠ 0)
    (hnan : Fp.isNaN (Fp.mul w t) = false) (hfin : Fp.isFinite (Fp.mul (Fp.mul (sinc t w) v) g) = true)
    (hfin' : Fp.isFinite (Fp.mul (Fp.mul (sinc (Fp.neg t) w) v) g) = true) :
    Fp.eq (Fp.mul (Fp.mul (sinc t w) v) g) (Fp.mul (Fp.mul (sinc (Fp.neg t) w) v) g) = true ∧
      (Fp.isFinite (Fp.mul w t) = true ∨ SIN (Fp.inf true) = Fp.neg (SIN (Fp.inf false)) →
        Fp.mul (Fp.mul (sinc t w) v) g = Fp.mul (Fp.mul (sinc (Fp.neg t) w) v) g) := by
  have hsame (h : Fp.isFinite (Fp.mul w t) = true ∨ SIN (Fp.inf true) = Fp.neg (SIN (Fp.inf false))) :
      sinc (Fp.neg t) w = sinc t w := sinc_neg ht hnan (oddAt hnan h)
  refine ⟨?_, fun h => by rw [hsame h]⟩
  rcases Fp.class_cases (Fp.mul w t) with ⟨hangle, -, -⟩ | ⟨-, -, -, hinf⟩ | ⟨-, -, h⟩
  · rw [hsame (.inl hangle)]
    exact Fp.eq_refl hfin
  · have hinf' : Fp.mul w (Fp.neg t) = Fp.inf (!Fp.sign (Fp.mul w t)) := by
      rw [Fp.mul_neg_right hnan, hinf]
      cases Fp.sign (Fp.mul w t) <;> decide
    exact Fp.eq_of_mag_zero (mag_value_of_inf ht h0 hinf hfin)
      (mag_value_of_inf (by rwa [Fp.isFinite_neg]) (by rwa [Fp.mag_neg]) hinf' hfin')
  · rw [h] at hnan
    cases hnan

/-! ### The taps on the two sides of the centre -/

theorem isNaN_angularCutoff {c : ConfigRegs} (h : checkFields c = .ok ()) :
    Fp.isNaN (angularCutoff c.cutoff c.fs) = false := by
  obtain ⟨hcutoff, -⟩ := (checkFields_ok h).1 c.cutoff (by simp [ConfigRegs.fields])
  obtain ⟨hfs, hfsPos⟩ := (checkFields_ok h).1 c.fs (by simp [ConfigRegs.fields])
  exact Fp.isNaN_mul_of_ne_zero (by decide) (by decide)
    (Fp.isNaN_div hcutoff hfs (mt (Fp.toRat_eq_zero_iff hfs).2 hfsPos.ne'))

section
variable {c n : Nat} (hc : 2 * c + 1 ≤ 7679) (hn : n < 2 * c + 1)
include hc hn

/-- R113: the offsets of a tap and of its mirror image are opposite. -/
theorem tapOffset_mirror (hne : n ≠ c) : Fp.sub (Fp.ofNat (2 * c - n)) (tapCentre (2 * c + 1)) =
    Fp.neg (Fp.sub (Fp.ofNat n) (tapCentre (2 * c + 1))) := by
  rw [tapCentre_odd hc]
  rcases Nat.lt_or_gt_of_ne hne with hlt | hgt
  · rw [Fp.sub_ofNat_of_add_eq (n := n) (k := c - n) (by omega) (by omega) (by omega) (by omega), Fp.neg_neg,
      Fp.sub_ofNat_of_eq_add (k := c - n) (by omega) (by omega) (by omega)]
  · rw [Fp.sub_ofNat_of_add_eq (k := n - c) (by omega) (by omega) (by omega) (by omega),
      Fp.sub_ofNat_of_eq_add (k := n - c) (by omega) (by omega) (by omega)]

theorem tapOffset_ne_zero (hne : n ≠ c) : Fp.isFinite (Fp.sub (Fp.ofNat n) (tapCentre (2 * c + 1))) = true ∧
    Fp.mag (Fp.sub (Fp.ofNat n) (tapCentre (2 * c + 1))) ≠ 0 := by
  obtain ⟨k, hk, hdist⟩ := exists_atDistance hn
  obtain ⟨hfin, h0⟩ := mag_ofNat_centre (c := k) (by unfold AtDistance at hdist; omega) (by omega)
  rcases tapOffset_eq hc hk hdist with ht | ⟨-, ht⟩
  · rw [ht]
    exact ⟨hfin, h0⟩
  · rw [ht, Fp.isFinite_neg, Fp.mag_neg]
    exact ⟨hfin, h0⟩

/-- A tap and its mirror image have the same window. -/
theorem windowOfTap_mirror (beta i0b : F64) :
    windowOfTap beta i0b (2 * c + 1) (2 * c - n) = windowOfTap beta i0b (2 * c + 1) n := by
  rcases Nat.eq_zero_or_pos c with rfl | hpos
  · rw [windowOfTap, windowOfTap, if_pos rfl, if_pos rfl]
  · obtain ⟨k, hk, hdist⟩ := exists_atDistance hn
    have hmirror : AtDistance c (2 * c - n) k := by unfold AtDistance at hdist ⊢; omega
    rw [windowOfTap_eq hpos hc hk hdist, windowOfTap_eq hpos hc hk hmirror]

end

section
variable {lMax : Nat} (hl : lMax ≤ 7679) {cfg : ConfigRegs} {d : DesignResult} (h : designOf lMax cfg = .ok d)
include hl h

theorem taps_mirror {i : Nat} (hi : i < d.len) : ∃ x y, d.taps[i]? = some x ∧ d.taps[d.len - 1 - i]? = some y ∧
    Fp.eq x y = true ∧ (Fp.isFinite (Fp.mul (angularCutoff cfg.cutoff cfg.fs)
        (Fp.sub (Fp.ofNat i) (tapCentre d.len))) = true ∨
      SIN (Fp.inf true) = Fp.neg (SIN (Fp.inf false)) → x = y) := by
  obtain ⟨⟨c, hlen, hle⟩, i0b, -, htaps⟩ := designOf_taps hl h
  obtain ⟨-, hfields, -⟩ := designOf_ok h
  have hc : 2 * c + 1 ≤ 7679 := by omega
  rw [show d.len - 1 - i = 2 * c - i by omega, hlen]
  rw [hlen] at htaps hi
  obtain ⟨v, hv, hget, hfin⟩ := htaps i hi
  obtain ⟨v', hv', hget', hfin'⟩ := htaps (2 * c - i) (by omega)
  rw [windowOfTap_mirror hc hi, hv] at hv'
  cases hv'
  refine ⟨_, _, hget, hget', ?_⟩
  by_cases hne : i = c
  · subst hne
    rw [show 2 * i - i = i by omega]
    exact ⟨Fp.eq_refl hfin, fun _ => rfl⟩
  · obtain ⟨hfinT, h0⟩ := tapOffset_ne_zero hc hi hne
    have hmirror := valueOfTap_eq cfg.cutoff cfg.fs cfg.gain (2 * c + 1) (2 * c - i) v
    rw [tapOffset_mirror hc hi hne] at hmirror
    rw [hmirror] at hfin' ⊢
    have hangle := Fp.isNaN_mul_of_ne_zero hfinT h0 (isNaN_angularCutoff hfields)
    exact value_neg hfinT h0 (by rwa [Fp.mul_comm]) hfin hfin'

/-- R113: the centre tap is the gain. -/
theorem taps_centre : d.taps[(d.len - 1) / 2]? = some cfg.gain := by
  obtain ⟨⟨c, hlen, hle⟩, i0b, hseries, htaps⟩ := designOf_taps hl h
  obtain ⟨-, hfields, -⟩ := designOf_ok h
  obtain ⟨hripple, hripplePos⟩ := checkFields_ripple hfields
  have hbeta := nonneg_kaiserBeta hripple hripplePos
  obtain ⟨v, hv, hget, -⟩ := htaps c (by omega)
  have hwindow : v = Fp.one := by
    rw [hlen] at hv
    rcases Nat.eq_zero_or_pos c with rfl | hpos
    · exact window_of_single hv
    · obtain ⟨hfin, -, hone⟩ := besselI0_ok hbeta.1 hseries
      rw [window_of_arg (k := 0) hpos (by omega) (Nat.zero_le c) (.inl rfl)
        (by rw [windowArg_centre hpos (by omega) hbeta, hseries]) hv]
      exact Fp.div_self_eq_one hfin fun h0 => by rw [h0, Fp.magVal_zero] at hone; norm_num at hone
  have hsinc : sinc (Fp.sub (Fp.ofNat c) (tapCentre d.len)) (angularCutoff cfg.cutoff cfg.fs) = Fp.one := by
    rw [hlen, tapCentre_odd (by omega), Fp.sub_ofNat_of_eq_add (n := c) (k := 0) (by omega) (by omega) rfl, sinc,
      if_pos (by decide)]
  rw [valueOfTap_eq, hsinc, hwindow, show Fp.mul Fp.one Fp.one = Fp.one by decide,
    Fp.mul_one_left (checkFields_gain hfields).1] at hget
  rwa [show (d.len - 1) / 2 = c by omega]

end

theorem commitSuccess_coef_getD {s : State} {d : DesignResult} {i : Nat} {x : F64} (h : d.taps[i]? = some x) :
    (s.commitSuccess d).coef.getD i 0#64 = x := by
  rw [State.commitSuccess_coef, List.getD_eq_getElem?_getD,
    List.getElem?_append_left (List.getElem?_eq_some_iff.1 h).1, h, Option.getD_some]

/-- Settles O37: opposite offsets have the same window and, where SIN is odd at the angle, the same sinc; at the
centre the sinc and the window are 1. -/
theorem successfulDesignIsOddSymmetricAndCentred : Obligations.SuccessfulDesignIsOddSymmetricAndCentred := by
  intro s d hwf _ h
  have hl := Params.lMax_le hwf
  obtain ⟨⟨c, hlen, hle⟩, -⟩ := designOf_taps hl h
  refine ⟨(s.commitSuccess d).complete, exec_design_eq h, rfl, ?_⟩
  have hlatched : ((s.commitSuccess d).complete).latched.filterLen.toNat = d.len := toNat_latched_len hl h
  rw [hlatched]
  refine ⟨by omega, by omega, hle, commitSuccess_coef_getD (taps_centre hl h), fun i hi => ?_⟩
  obtain ⟨x, y, hx, hy, hsym⟩ := taps_mirror hl h hi
  rw [show (s.commitSuccess d).complete.coef = (s.commitSuccess d).coef from rfl, commitSuccess_coef_getD hx,
    commitSuccess_coef_getD hy]
  exact hsym

end Sys2Proof.Machine
end
